-- ==== Sys2Proof/Word.lean ====
section
/-! DEFINITION. The word types of GMP-CODEC: bytes, byte sequences (`00_scope.md` R10), 32-bit command and register
words, 64-bit general registers, and register names (`10_state.md` R30). -/

namespace Sys2Proof

/-- A byte is 8 bits (R10). -/
abbrev Byte := BitVec 8

/-- A finite sequence of bytes, first byte first in time on a stream and lowest index in a buffer (R10). -/
abbrev Bytes := List Byte

/-- A 32-bit word: a command word, a control register, an `i32` or a `u32`. -/
abbrev W32 := BitVec 32

/-- The content of a general register (R30). -/
abbrev W64 := BitVec 64

/-- A general register `x0` to `x7`: only the values 0 to 7 of a specifier are legal (R30, R132). -/
abbrev Reg := Fin 8

end Sys2Proof
end

