-- ==== Sys2Proof/Syntax.lean ====
section
/-! DEFINITION. The commands of GMP-CODEC, one constructor per row of the command map (`30_encoding.md` R136). Operands
stand in field order, `ra` first, then `rb` or `imm` (R138). -/

namespace Sys2Proof

/-- A command (R136). A pair operand is given by its even register (R31, R132); `WellFormed` checks that it is even. -/
inductive Instr where
  /-- `NOP` (R296). -/
  | nop
  /-- `LDI x[ra], imm` (R298). -/
  | ldi (ra : Reg) (imm : BitVec 16)
  /-- `CONN.RESET` (R297). -/
  | connReset
  /-- `PHASE.SET imm` (R294). -/
  | phaseSet (imm : BitVec 16)
  /-- `THRESH.SET x[ra]` (R295). -/
  | threshSet (ra : Reg)
  /-- `DISPATCH` (R290). -/
  | dispatch
  /-- `BLD.CLR` (R299). -/
  | bldClr
  /-- `PAY.SEEK x[ra]` (R300). -/
  | paySeek (ra : Reg)
  /-- `PAY.LOAD` (R301). -/
  | payLoad
  /-- `ENC.VARINT x[ra]` (R165). -/
  | encVarint (ra : Reg)
  /-- `DEC.VARINT x[ra]` (R166). -/
  | decVarint (ra : Reg)
  /-- `ENC.BYTE x[ra]` (R181). -/
  | encByte (ra : Reg)
  /-- `DEC.BYTE x[ra]` (R182). -/
  | decByte (ra : Reg)
  /-- `ENC.UBYTE x[ra]` (R183). -/
  | encUbyte (ra : Reg)
  /-- `DEC.UBYTE x[ra]` (R184). -/
  | decUbyte (ra : Reg)
  /-- `ENC.SHORT x[ra]` (R186). -/
  | encShort (ra : Reg)
  /-- `DEC.SHORT x[ra]` (R187). -/
  | decShort (ra : Reg)
  /-- `ENC.USHORT x[ra]` (R188). -/
  | encUshort (ra : Reg)
  /-- `DEC.USHORT x[ra]` (R189). -/
  | decUshort (ra : Reg)
  /-- `ENC.INT x[ra]` (R191). -/
  | encInt (ra : Reg)
  /-- `DEC.INT x[ra]` (R192). -/
  | decInt (ra : Reg)
  /-- `ENC.LONG x[ra]` (R196). -/
  | encLong (ra : Reg)
  /-- `DEC.LONG x[ra]` (R197). -/
  | decLong (ra : Reg)
  /-- `ENC.BOOL x[ra]` (R201). -/
  | encBool (ra : Reg)
  /-- `DEC.BOOL x[ra]` (R202). -/
  | decBool (ra : Reg)
  /-- `ENC.FLOAT x[ra]` (R211). -/
  | encFloat (ra : Reg)
  /-- `DEC.FLOAT x[ra]` (R212). -/
  | decFloat (ra : Reg)
  /-- `ENC.DOUBLE x[ra]` (R213). -/
  | encDouble (ra : Reg)
  /-- `DEC.DOUBLE x[ra]` (R214). -/
  | decDouble (ra : Reg)
  /-- `ENC.STRING x[ra], x[rb]` (R221): `ra` byte count, `rb` SCR offset. -/
  | encString (ra rb : Reg)
  /-- `DEC.STRING x[ra], x[rb]` (R223): `ra` destination for the count, `rb` SCR offset. -/
  | decString (ra rb : Reg)
  /-- `ENC.UUID x[ra]` (R227): `ra` the even register of a pair. -/
  | encUuid (ra : Reg)
  /-- `DEC.UUID x[ra]` (R228): `ra` the even register of a pair. -/
  | decUuid (ra : Reg)
  /-- `ENC.RAW x[ra], x[rb]` (R224): `ra` byte count, `rb` SCR offset. -/
  | encRaw (ra rb : Reg)
  /-- `DEC.RAW x[ra], x[rb]` (R225): `ra` byte count, `rb` SCR offset. -/
  | decRaw (ra rb : Reg)
  /-- `UUID.FMT x[ra], x[rb]` (R230): `ra` the even register of a pair, `rb` SCR offset. -/
  | uuidFmt (ra rb : Reg)
  /-- `UUID.PARSE x[ra], x[rb]` (R231): `ra` the even register of a pair, `rb` SCR offset. -/
  | uuidParse (ra rb : Reg)
  /-- `FRAME.ENC x[ra]` (R255). -/
  | frameEnc (ra : Reg)
  /-- `FRAME.DEC` (R257). -/
  | frameDec
deriving DecidableEq, Repr

namespace Instr

/-- The pseudo-command `PHASE.STATUS` (R139). -/
abbrev phaseStatus : Instr := .phaseSet 1

/-- The pseudo-command `PHASE.LOGIN` (R139). -/
abbrev phaseLogin : Instr := .phaseSet 2

/-- The pseudo-command `CLR xd` (R139). -/
abbrev clr (d : Reg) : Instr := .ldi d 0

end Instr
end Sys2Proof
end

