-- ==== Sys2Proof/WellFormed.lean ====
section
/-! DEFINITION. When a term of `Instr` is a command of `30_encoding.md` R132. Register specifiers are 0 to 7 by their
type; what is left to check is that the specifier of a pair is even. -/

namespace Sys2Proof

/-- A pair specifier is even (R132, formats P and PR; `10_state.md` R31: `ra` in 0, 2, 4, 6). -/
abbrev Reg.Even (r : Reg) : Prop := r.val % 2 = 0

/-- The terms that stand for a command of R136. -/
abbrev Instr.WellFormed (i : Instr) : Prop :=
  match i with
  | .encUuid ra => ra.Even
  | .decUuid ra => ra.Even
  | .uuidFmt ra _ => ra.Even
  | .uuidParse ra _ => ra.Even
  | .nop | .ldi .. | .connReset | .phaseSet .. | .threshSet .. | .dispatch | .bldClr | .paySeek .. | .payLoad
  | .encVarint .. | .decVarint .. | .encByte .. | .decByte .. | .encUbyte .. | .decUbyte .. | .encShort ..
  | .decShort .. | .encUshort .. | .decUshort .. | .encInt .. | .decInt .. | .encLong .. | .decLong .. | .encBool ..
  | .decBool .. | .encFloat .. | .decFloat .. | .encDouble .. | .decDouble .. | .encString .. | .decString ..
  | .encRaw .. | .decRaw .. | .frameEnc .. | .frameDec => True

end Sys2Proof
end

