-- ==== Sys2Proof/Decode.lean ====
section
/-! DEFINITION. Decoding and encoding of command words (`30_encoding.md` R131 to R137): the fields, the seven formats,
the command map, the decoder (total, refusing every illegal word) and after it the encoder. -/

namespace Sys2Proof

/-- The field `op`, bits 7:0 (R131). -/
def opField (w : W32) : BitVec 8 := w.extractLsb' 0 8

/-- The field `ra`, bits 11:8 (R131). -/
def raField (w : W32) : BitVec 4 := w.extractLsb' 8 4

/-- The field `rb`, bits 15:12 (R131). -/
def rbField (w : W32) : BitVec 4 := w.extractLsb' 12 4

/-- The field `imm`, bits 31:16 (R131). -/
def immField (w : W32) : BitVec 16 := w.extractLsb' 16 16

/-- The register a specifier names; values above 7 name none (R30, R132). -/
def regOf (f : BitVec 4) : Option Reg :=
  if h : f.toNat < 8 then some ⟨f.toNat, h⟩ else none

/-- The even register a pair specifier names; odd values and values above 7 name none (R31, R132). -/
def pairOf (f : BitVec 4) : Option Reg :=
  (regOf f).filter fun r => decide r.Even

/-- What a format lets a command word supply, with the command it makes of it (R132). -/
inductive Shape where
  /-- Format Z: no operand. -/
  | z (cmd : Instr)
  /-- Format R: a register. -/
  | r (f : Reg → Instr)
  /-- Format P: the even register of a pair. -/
  | p (f : Reg → Instr)
  /-- Format RR: two registers. -/
  | rr (f : Reg → Reg → Instr)
  /-- Format PR: the even register of a pair, and a register. -/
  | pr (f : Reg → Reg → Instr)
  /-- Format RI: a register and an immediate. -/
  | ri (f : Reg → BitVec 16 → Instr)
  /-- Format I: an immediate. -/
  | im (f : BitVec 16 → Instr)

/-- Reads a word in a format: every unused field must be zero, every specifier must name a register (R132). -/
def Shape.read (w : W32) : Shape → Option Instr
  | .z cmd => if raField w = 0 ∧ rbField w = 0 ∧ immField w = 0 then some cmd else none
  | .r f => if rbField w = 0 ∧ immField w = 0 then (regOf (raField w)).map f else none
  | .p f => if rbField w = 0 ∧ immField w = 0 then (pairOf (raField w)).map f else none
  | .rr f =>
    if immField w = 0 then (regOf (raField w)).bind fun a => (regOf (rbField w)).map (f a) else none
  | .pr f =>
    if immField w = 0 then (pairOf (raField w)).bind fun a => (regOf (rbField w)).map (f a) else none
  | .ri f => if rbField w = 0 then (regOf (raField w)).map fun a => f a (immField w) else none
  | .im f => if raField w = 0 ∧ rbField w = 0 then some (f (immField w)) else none

/-- The command map (R136): the command code selects the row; codes not listed are reserved (R137). -/
def commandMap (op : BitVec 8) : Option Shape :=
  match op with
  | 0x00#8 => some (.z .nop)
  | 0x01#8 => some (.ri .ldi)
  | 0x02#8 => some (.z .connReset)
  | 0x03#8 => some (.im .phaseSet)
  | 0x04#8 => some (.r .threshSet)
  | 0x05#8 => some (.z .dispatch)
  | 0x06#8 => some (.z .bldClr)
  | 0x07#8 => some (.r .paySeek)
  | 0x08#8 => some (.z .payLoad)
  | 0x10#8 => some (.r .encVarint)
  | 0x11#8 => some (.r .decVarint)
  | 0x20#8 => some (.r .encByte)
  | 0x21#8 => some (.r .decByte)
  | 0x22#8 => some (.r .encUbyte)
  | 0x23#8 => some (.r .decUbyte)
  | 0x24#8 => some (.r .encShort)
  | 0x25#8 => some (.r .decShort)
  | 0x26#8 => some (.r .encUshort)
  | 0x27#8 => some (.r .decUshort)
  | 0x28#8 => some (.r .encInt)
  | 0x29#8 => some (.r .decInt)
  | 0x2A#8 => some (.r .encLong)
  | 0x2B#8 => some (.r .decLong)
  | 0x2C#8 => some (.r .encBool)
  | 0x2D#8 => some (.r .decBool)
  | 0x30#8 => some (.r .encFloat)
  | 0x31#8 => some (.r .decFloat)
  | 0x32#8 => some (.r .encDouble)
  | 0x33#8 => some (.r .decDouble)
  | 0x40#8 => some (.rr .encString)
  | 0x41#8 => some (.rr .decString)
  | 0x42#8 => some (.p .encUuid)
  | 0x43#8 => some (.p .decUuid)
  | 0x44#8 => some (.rr .encRaw)
  | 0x45#8 => some (.rr .decRaw)
  | 0x46#8 => some (.pr .uuidFmt)
  | 0x47#8 => some (.pr .uuidParse)
  | 0x50#8 => some (.r .frameEnc)
  | 0x51#8 => some (.z .frameDec)
  | _ => none

/-- The decoder (R130 step 2): the command of a word, or nothing for a word that matches no row (R137). -/
def decode (w : W32) : Option Instr := (commandMap (opField w)).bind (Shape.read w)

/-- The decoder on a word numbered as the opcode table numbers it. A command is one 32-bit word written to CMD (R135,
`20_memory.md` R100), so there is no order of bytes to lay out; bits at and above `nbits` are zero. -/
def decodeTableWord (nbits w : Nat) : Option Instr := decode (BitVec.ofNat 32 (w % 2 ^ nbits))

/-- The four fields put together: `op | ra << 8 | rb << 12 | imm << 16` (R136). -/
def mkWord (op : BitVec 8) (ra rb : BitVec 4) (imm : BitVec 16) : W32 :=
  op.setWidth 32 ||| ra.setWidth 32 <<< 8 ||| rb.setWidth 32 <<< 12 ||| imm.setWidth 32 <<< 16

/-- The specifier of a register. -/
def regField (r : Reg) : BitVec 4 := BitVec.ofNat 4 r.val

/-- The encoder: the word of a command (R136). -/
def encode (i : Instr) : W32 :=
  match i with
  | .nop => mkWord 0x00 0 0 0
  | .ldi ra imm => mkWord 0x01 (regField ra) 0 imm
  | .connReset => mkWord 0x02 0 0 0
  | .phaseSet imm => mkWord 0x03 0 0 imm
  | .threshSet ra => mkWord 0x04 (regField ra) 0 0
  | .dispatch => mkWord 0x05 0 0 0
  | .bldClr => mkWord 0x06 0 0 0
  | .paySeek ra => mkWord 0x07 (regField ra) 0 0
  | .payLoad => mkWord 0x08 0 0 0
  | .encVarint ra => mkWord 0x10 (regField ra) 0 0
  | .decVarint ra => mkWord 0x11 (regField ra) 0 0
  | .encByte ra => mkWord 0x20 (regField ra) 0 0
  | .decByte ra => mkWord 0x21 (regField ra) 0 0
  | .encUbyte ra => mkWord 0x22 (regField ra) 0 0
  | .decUbyte ra => mkWord 0x23 (regField ra) 0 0
  | .encShort ra => mkWord 0x24 (regField ra) 0 0
  | .decShort ra => mkWord 0x25 (regField ra) 0 0
  | .encUshort ra => mkWord 0x26 (regField ra) 0 0
  | .decUshort ra => mkWord 0x27 (regField ra) 0 0
  | .encInt ra => mkWord 0x28 (regField ra) 0 0
  | .decInt ra => mkWord 0x29 (regField ra) 0 0
  | .encLong ra => mkWord 0x2A (regField ra) 0 0
  | .decLong ra => mkWord 0x2B (regField ra) 0 0
  | .encBool ra => mkWord 0x2C (regField ra) 0 0
  | .decBool ra => mkWord 0x2D (regField ra) 0 0
  | .encFloat ra => mkWord 0x30 (regField ra) 0 0
  | .decFloat ra => mkWord 0x31 (regField ra) 0 0
  | .encDouble ra => mkWord 0x32 (regField ra) 0 0
  | .decDouble ra => mkWord 0x33 (regField ra) 0 0
  | .encString ra rb => mkWord 0x40 (regField ra) (regField rb) 0
  | .decString ra rb => mkWord 0x41 (regField ra) (regField rb) 0
  | .encUuid ra => mkWord 0x42 (regField ra) 0 0
  | .decUuid ra => mkWord 0x43 (regField ra) 0 0
  | .encRaw ra rb => mkWord 0x44 (regField ra) (regField rb) 0
  | .decRaw ra rb => mkWord 0x45 (regField ra) (regField rb) 0
  | .uuidFmt ra rb => mkWord 0x46 (regField ra) (regField rb) 0
  | .uuidParse ra rb => mkWord 0x47 (regField ra) (regField rb) 0
  | .frameEnc ra => mkWord 0x50 (regField ra) 0 0
  | .frameDec => mkWord 0x51 0 0 0

/-! ### The table of masks -/

/-- A row of the opcode table: the bits under `mask` must equal `matchWord` (R132). -/
structure Row where
  /-- The mnemonic. -/
  mnemonic : String
  /-- The command code, zero elsewhere. -/
  matchWord : W32
  /-- The mask of the row's format. -/
  mask : W32
deriving DecidableEq, Repr

/-- The opcode table (`spec/opcode_table.json`; R132's masks for R136's rows). The decoder does not use it: that the two
agree is a claim. -/
def opcodeRows : List Row :=
  [⟨"NOP", 0x00000000, 0xFFFFFFFF⟩,
   ⟨"LDI", 0x00000001, 0x0000F8FF⟩,
   ⟨"CONN.RESET", 0x00000002, 0xFFFFFFFF⟩,
   ⟨"PHASE.SET", 0x00000003, 0x0000FFFF⟩,
   ⟨"THRESH.SET", 0x00000004, 0xFFFFF8FF⟩,
   ⟨"DISPATCH", 0x00000005, 0xFFFFFFFF⟩,
   ⟨"BLD.CLR", 0x00000006, 0xFFFFFFFF⟩,
   ⟨"PAY.SEEK", 0x00000007, 0xFFFFF8FF⟩,
   ⟨"PAY.LOAD", 0x00000008, 0xFFFFFFFF⟩,
   ⟨"ENC.VARINT", 0x00000010, 0xFFFFF8FF⟩,
   ⟨"DEC.VARINT", 0x00000011, 0xFFFFF8FF⟩,
   ⟨"ENC.BYTE", 0x00000020, 0xFFFFF8FF⟩,
   ⟨"DEC.BYTE", 0x00000021, 0xFFFFF8FF⟩,
   ⟨"ENC.UBYTE", 0x00000022, 0xFFFFF8FF⟩,
   ⟨"DEC.UBYTE", 0x00000023, 0xFFFFF8FF⟩,
   ⟨"ENC.SHORT", 0x00000024, 0xFFFFF8FF⟩,
   ⟨"DEC.SHORT", 0x00000025, 0xFFFFF8FF⟩,
   ⟨"ENC.USHORT", 0x00000026, 0xFFFFF8FF⟩,
   ⟨"DEC.USHORT", 0x00000027, 0xFFFFF8FF⟩,
   ⟨"ENC.INT", 0x00000028, 0xFFFFF8FF⟩,
   ⟨"DEC.INT", 0x00000029, 0xFFFFF8FF⟩,
   ⟨"ENC.LONG", 0x0000002A, 0xFFFFF8FF⟩,
   ⟨"DEC.LONG", 0x0000002B, 0xFFFFF8FF⟩,
   ⟨"ENC.BOOL", 0x0000002C, 0xFFFFF8FF⟩,
   ⟨"DEC.BOOL", 0x0000002D, 0xFFFFF8FF⟩,
   ⟨"ENC.FLOAT", 0x00000030, 0xFFFFF8FF⟩,
   ⟨"DEC.FLOAT", 0x00000031, 0xFFFFF8FF⟩,
   ⟨"ENC.DOUBLE", 0x00000032, 0xFFFFF8FF⟩,
   ⟨"DEC.DOUBLE", 0x00000033, 0xFFFFF8FF⟩,
   ⟨"ENC.STRING", 0x00000040, 0xFFFF88FF⟩,
   ⟨"DEC.STRING", 0x00000041, 0xFFFF88FF⟩,
   ⟨"ENC.UUID", 0x00000042, 0xFFFFF9FF⟩,
   ⟨"DEC.UUID", 0x00000043, 0xFFFFF9FF⟩,
   ⟨"ENC.RAW", 0x00000044, 0xFFFF88FF⟩,
   ⟨"DEC.RAW", 0x00000045, 0xFFFF88FF⟩,
   ⟨"UUID.FMT", 0x00000046, 0xFFFF89FF⟩,
   ⟨"UUID.PARSE", 0x00000047, 0xFFFF89FF⟩,
   ⟨"FRAME.ENC", 0x00000050, 0xFFFFF8FF⟩,
   ⟨"FRAME.DEC", 0x00000051, 0xFFFFFFFF⟩]

/-- The mnemonic of a command (R136). -/
def Instr.mnemonic (i : Instr) : String :=
  match i with
  | .nop => "NOP"
  | .ldi .. => "LDI"
  | .connReset => "CONN.RESET"
  | .phaseSet .. => "PHASE.SET"
  | .threshSet .. => "THRESH.SET"
  | .dispatch => "DISPATCH"
  | .bldClr => "BLD.CLR"
  | .paySeek .. => "PAY.SEEK"
  | .payLoad => "PAY.LOAD"
  | .encVarint .. => "ENC.VARINT"
  | .decVarint .. => "DEC.VARINT"
  | .encByte .. => "ENC.BYTE"
  | .decByte .. => "DEC.BYTE"
  | .encUbyte .. => "ENC.UBYTE"
  | .decUbyte .. => "DEC.UBYTE"
  | .encShort .. => "ENC.SHORT"
  | .decShort .. => "DEC.SHORT"
  | .encUshort .. => "ENC.USHORT"
  | .decUshort .. => "DEC.USHORT"
  | .encInt .. => "ENC.INT"
  | .decInt .. => "DEC.INT"
  | .encLong .. => "ENC.LONG"
  | .decLong .. => "DEC.LONG"
  | .encBool .. => "ENC.BOOL"
  | .decBool .. => "DEC.BOOL"
  | .encFloat .. => "ENC.FLOAT"
  | .decFloat .. => "DEC.FLOAT"
  | .encDouble .. => "ENC.DOUBLE"
  | .decDouble .. => "DEC.DOUBLE"
  | .encString .. => "ENC.STRING"
  | .decString .. => "DEC.STRING"
  | .encUuid .. => "ENC.UUID"
  | .decUuid .. => "DEC.UUID"
  | .encRaw .. => "ENC.RAW"
  | .decRaw .. => "DEC.RAW"
  | .uuidFmt .. => "UUID.FMT"
  | .uuidParse .. => "UUID.PARSE"
  | .frameEnc .. => "FRAME.ENC"
  | .frameDec => "FRAME.DEC"

/-! ### The assembler syntax -/

/-- The operands of a command in the syntax of R138: registers `x0` to `x7`, immediates in decimal, that of LDI
signed. -/
def Instr.operands (i : Instr) : List String :=
  match i with
  | .nop => []
  | .ldi ra imm => ["x" ++ toString ra.val, toString imm.toInt]
  | .connReset => []
  | .phaseSet imm => [toString imm.toNat]
  | .threshSet ra => ["x" ++ toString ra.val]
  | .dispatch => []
  | .bldClr => []
  | .paySeek ra => ["x" ++ toString ra.val]
  | .payLoad => []
  | .encVarint ra => ["x" ++ toString ra.val]
  | .decVarint ra => ["x" ++ toString ra.val]
  | .encByte ra => ["x" ++ toString ra.val]
  | .decByte ra => ["x" ++ toString ra.val]
  | .encUbyte ra => ["x" ++ toString ra.val]
  | .decUbyte ra => ["x" ++ toString ra.val]
  | .encShort ra => ["x" ++ toString ra.val]
  | .decShort ra => ["x" ++ toString ra.val]
  | .encUshort ra => ["x" ++ toString ra.val]
  | .decUshort ra => ["x" ++ toString ra.val]
  | .encInt ra => ["x" ++ toString ra.val]
  | .decInt ra => ["x" ++ toString ra.val]
  | .encLong ra => ["x" ++ toString ra.val]
  | .decLong ra => ["x" ++ toString ra.val]
  | .encBool ra => ["x" ++ toString ra.val]
  | .decBool ra => ["x" ++ toString ra.val]
  | .encFloat ra => ["x" ++ toString ra.val]
  | .decFloat ra => ["x" ++ toString ra.val]
  | .encDouble ra => ["x" ++ toString ra.val]
  | .decDouble ra => ["x" ++ toString ra.val]
  | .encString ra rb => ["x" ++ toString ra.val, "x" ++ toString rb.val]
  | .decString ra rb => ["x" ++ toString ra.val, "x" ++ toString rb.val]
  | .encUuid ra => ["x" ++ toString ra.val]
  | .decUuid ra => ["x" ++ toString ra.val]
  | .encRaw ra rb => ["x" ++ toString ra.val, "x" ++ toString rb.val]
  | .decRaw ra rb => ["x" ++ toString ra.val, "x" ++ toString rb.val]
  | .uuidFmt ra rb => ["x" ++ toString ra.val, "x" ++ toString rb.val]
  | .uuidParse ra rb => ["x" ++ toString ra.val, "x" ++ toString rb.val]
  | .frameEnc ra => ["x" ++ toString ra.val]
  | .frameDec => []

/-- A command in the assembler syntax of R138. -/
def Instr.asm (i : Instr) : String :=
  if i.operands = [] then i.mnemonic else i.mnemonic ++ " " ++ ", ".intercalate i.operands

end Sys2Proof
end

