-- ==== Sys2Proof/Config.lean ====
section
/-! DEFINITION. What the spec leaves to the implementation: the sizes of `00_scope.md` R6, the compression unit, known
only by its law ZIP-RT, and the content of the scratch memory after reset, which is a free value (`10_state.md` R62). -/

namespace Sys2Proof

/-- The implementation parameters that are numbers (R6). -/
structure Params where
  /-- `BLD_CAP`, the capacity in bytes of BLD. -/
  bldCap : Nat
  /-- `PAY_CAP`, the capacity in bytes of PAY, and the largest total length and data length FRAME.DEC accepts. -/
  payCap : Nat
  /-- `SCR_SIZE`, the size in bytes of SCR. -/
  scrSize : Nat
  /-- `RT_N`, the number of routing-table entries. -/
  rtN : Nat
deriving DecidableEq, Repr

/-- The constraints R6 puts on the sizes. -/
abbrev Params.Valid (p : Params) : Prop :=
  64 ≤ p.bldCap ∧ p.bldCap < 2 ^ 30 ∧ p.bldCap + 5 ≤ p.payCap ∧ p.payCap < 2 ^ 30 ∧
  64 ≤ p.scrSize ∧ p.scrSize % 4 = 0 ∧ p.scrSize ≤ 61440 ∧ 5 ≤ p.rtN ∧ p.rtN ≤ 32

/-- The column "reference" of R6's table. It "is not a property of the hardware": only the reset state of this model
names it (assumption 1, DESIGN CHOICE). -/
def Params.reference : Params := { bldCap := 2048, payCap := 4096, scrSize := 4096, rtN := 16 }

/-- The compression unit (R6, R251, R252): two functions with the one property the model may assume, ZIP-RT. The
default values only show that such a unit exists; nothing rests on them. -/
structure ZipUnit where
  /-- `Deflate`, a total function. -/
  deflate : Bytes → Bytes := id
  /-- `Inflate`, a total function into byte sequences or `fail` (here `none`). -/
  inflate : Bytes → Option Bytes := some
  /-- ZIP-RT: `Inflate(Deflate(b)) = b`. -/
  zipRt : ∀ b, inflate (deflate b) = some b := by intro b; rfl
deriving Inhabited

namespace Config

/-- The compression unit of this machine: a FREE VALUE but for ZIP-RT (assumption 4). -/
opaque zip : ZipUnit

/-- The byte SCR holds at an offset from a reset until it is first written: a FREE VALUE (assumption 2). The first
argument counts the hardware resets, since no reset defines the content of SCR (`70_reset_and_hazards.md` R381). -/
opaque scrInitial : Nat → Nat → Byte

end Config
end Sys2Proof
end

