-- ==== Sys2Proof/Machine/State.lean ====
section
/-! DEFINITION. Everything GMP-CODEC holds (`10_state.md`), the reasons a step may stop, and the state after reset
(`70_reset_and_hazards.md` R380). The model's own fields stand last and are marked so. -/

namespace Sys2Proof.Machine

/-- The reasons the machine stops. There is none: "every command of this block completes or holds for input"
(`93_implementation_defined.md` section 1), and every bus access and transport move is answered. No one raises a
fault, so nothing rests on one (safe). -/
inductive Fault
deriving DecidableEq, Repr

/-- The reasons an instruction is refused. -/
inductive Refusal where
  /-- An instruction of the opcode table that has no meaning yet: raised by an arm of `exec` only. Every command has its
  meaning, so no arm raises it (safe: nothing is refused). -/
  | notModelled (mnemonic : String)
deriving DecidableEq, Repr

/-- The four phases of the connection (`10_state.md` R50). -/
inductive Phase where
  /-- Phase 0, the initial phase. -/
  | handshake
  /-- Phase 1. -/
  | status
  /-- Phase 2. -/
  | login
  /-- Phase 3. -/
  | play
deriving DecidableEq, Repr

/-- One routing-table entry as its two words (`10_state.md` R55). -/
structure RtEntry where
  /-- `RT[k].OPC`: the opcode to match. -/
  opc : W32
  /-- `RT[k].CTL`: VALID in bit 0, PHASE in bits 2:1, ROUTE in bits 15:8, the other bits 0. -/
  ctl : W32
deriving DecidableEq, Repr

/-- Where a FRAME.DEC stands between engine steps (`44_framer.md` R269). -/
inductive RxPoint where
  /-- About to take byte `i` of the total-length field, with the VarInt accumulator so far. -/
  | len (i : Nat) (acc : W32)
  /-- About to take byte `buf.length` of the `tlen` bytes of the frame. -/
  | take (tlen : Nat) (buf : Bytes)
  /-- About to drop byte `j` of an oversized frame of `tlen` bytes. -/
  | skip (tlen j : Nat)
deriving DecidableEq, Repr

/-- The progress of a FRAME.DEC in flight (`10_state.md` R67). -/
structure RxProgress where
  /-- How many bytes this FRAME.DEC has taken so far (`44_framer.md` R262). -/
  taken : Nat
  /-- The control point. -/
  point : RxPoint
deriving DecidableEq, Repr

/-- SCR as the list of the bytes written since reset, by rising offset. An offset that is not listed has no value of
the model's: it holds the free initial byte (assumption 2). -/
abbrev Mem := List Host.Cell

/-- The width of a bus access: every proper access is a word (`20_memory.md` R91, R102). -/
inductive BusWidth where
  /-- 8 bits. -/
  | byte
  /-- 16 bits. -/
  | half
  /-- 32 bits. -/
  | word
deriving DecidableEq, Repr

/-- What the register bus answered last: the word read, and whether the access was answered with a bus error
(`20_memory.md` R102). The host's view, not the block's state (assumption 7). -/
structure BusAnswer where
  /-- The word read; 0 for a write and for an error. -/
  data : W32
  /-- The bus error response. -/
  error : Bool
deriving DecidableEq, Repr

/-- One move of one agent (`00_scope.md` R8). -/
inductive Move where
  /-- One step of the engine (`30_encoding.md` R130). -/
  | engine
  /-- The host's BusRead (`20_memory.md` R91). -/
  | busRead (width : BusWidth) (addr : BitVec 16)
  /-- The host's BusWrite (`20_memory.md` R91). -/
  | busWrite (width : BusWidth) (addr : BitVec 16) (data : W32)
  /-- The RX transport delivers a byte (`20_memory.md` R97 a). -/
  | rxPush (b : Byte)
  /-- The RX transport declares end of input (R97 b). -/
  | rxEnd
  /-- The RX transport declares an I/O error (R97 c). -/
  | rxFail
  /-- The TX transport takes a byte (`20_memory.md` R98 a). -/
  | txPop
  /-- The TX transport declares an I/O error (R98 b). -/
  | txFail
  /-- The reset input takes a level (`70_reset_and_hazards.md` R380). -/
  | rst (level : Bool)
deriving DecidableEq, Repr

/-- The state of the machine. -/
structure State where
  /-- `x0` to `x7` (R30). -/
  x : Vector W64 8
  /-- STATUS.BUSY: a command is in execution (R44). -/
  busy : Bool
  /-- STATUS.CLOSED: a TransportError has closed the block (R44). -/
  closed : Bool
  /-- STATUS.FVALID: PAY holds a decoded frame (R44). -/
  fvalid : Bool
  /-- STATUS.FCOMP: that frame was parsed in the compression-capable format (R44). -/
  fcomp : Bool
  /-- STATUS.OVR: a host write was discarded because BUSY = 1 (R44). -/
  ovr : Bool
  /-- ERR: cause and sub-cause of the last completed command (R45). -/
  err : W32
  /-- ERRINFO (R46). -/
  errinfo : W32
  /-- ESTICKY: the causes there have been since reset (R47). -/
  esticky : W32
  /-- IE: bit 0 DONE_IE, bit 1 ERR_IE (R48). -/
  ie : BitVec 2
  /-- IP: bit 0 DONE, bit 1 ERR (R49). -/
  ip : BitVec 2
  /-- CMDCNT: completed commands, modulo 2^32 (R32). -/
  cmdcnt : W32
  /-- PHASE (R50). -/
  phase : Phase
  /-- THRESH, an `i32` (R51). -/
  thresh : W32
  /-- OPC, an `i32`: the opcode of the last good frame (R52). -/
  opc : W32
  /-- ROUTE (R53). -/
  route : BitVec 8
  /-- RPOS, the read cursor into PAY (R57). -/
  rpos : Nat
  /-- LASTN: bytes moved by the last good ENC, DEC or FRAME.ENC (R58). -/
  lastn : W32
  /-- FTLEN, an `i32`: total length of the last frame (R59). -/
  ftlen : W32
  /-- FDLEN, an `i32`: data length of the last frame (R59). -/
  fdlen : W32
  /-- STREAM.RXEND (R65). -/
  rxend : Bool
  /-- STREAM.RXERR (R65). -/
  rxerr : Bool
  /-- STREAM.TXERR (R65). -/
  txerr : Bool
  /-- RT, the routing table (R55). -/
  rt : List RtEntry
  /-- BLD, its valid bytes; BLEN is their number (R54, R60). -/
  bld : Bytes
  /-- PAY, its valid bytes; PLEN is their number (R56, R61). -/
  pay : Bytes
  /-- SCR, the bytes written since reset (R62). -/
  scr : Mem
  /-- RXQ, head first (R63). -/
  rxq : Bytes
  /-- TXQ, head first (R64). -/
  txq : Bytes
  /-- CUR: the command word in execution (R66). -/
  cur : W32
  /-- TL, the latched threshold, an `i32` (R68). -/
  tl : W32
  /-- The progress of a FRAME.DEC in flight; nothing when none has taken its first step (R67). -/
  rx : Option RxProgress
  /-- The level of the reset input (`20_memory.md` R96, R380). -/
  rst : Bool
  /-- THE MODEL'S OWN: the implementation parameters (`00_scope.md` R6); no step changes them (assumption 1). -/
  params : Params
  /-- THE MODEL'S OWN: how many hardware resets there have been; it selects SCR's free content (assumption 3). -/
  resets : Nat
  /-- THE MODEL'S OWN: the last answer of the register bus (assumption 7). -/
  bus : BusAnswer
  /-- THE MODEL'S OWN: the bytes the TX transport has put on the wire, first first (assumption 8). -/
  wire : Bytes
  /-- THE MODEL'S OWN: the moves of the agents still to come, in order; when there is none the engine moves
  (assumption 5). -/
  sched : List Move
deriving DecidableEq, Repr

/-- BLEN, the number of valid bytes in BLD (R54). -/
def State.blen (s : State) : Nat := s.bld.length

/-- PLEN, the number of valid bytes in PAY (R56). -/
def State.plen (s : State) : Nat := s.pay.length

/-- The five routing-table entries of reset (R55's table). -/
def rtReset : List RtEntry :=
  [⟨0x00000003, 0x00000105⟩, ⟨0x00000002, 0x00000205⟩, ⟨0x00000023, 0x00000307⟩, ⟨0x00000057, 0x00000407⟩,
   ⟨0x00000038, 0x00000507⟩]

/-- The reset state of a block with given parameters (R380). CUR and TL are "without meaning" and 0 here
(assumption 9). -/
def State.resetWith (p : Params) : State where
  x := Vector.replicate 8 0
  busy := false
  closed := false
  fvalid := false
  fcomp := false
  ovr := false
  err := 0
  errinfo := 0
  esticky := 0
  ie := 0
  ip := 0
  cmdcnt := 0
  phase := .handshake
  thresh := 0xFFFFFFFF
  opc := 0
  route := 0
  rpos := 0
  lastn := 0
  ftlen := 0
  fdlen := 0
  rxend := false
  rxerr := false
  txerr := false
  rt := rtReset ++ List.replicate (p.rtN - 5) ⟨0, 0⟩
  bld := []
  pay := []
  scr := []
  rxq := []
  txq := []
  cur := 0
  tl := 0
  rx := none
  rst := false
  params := p
  resets := 0
  bus := ⟨0, false⟩
  wire := []
  sched := []

/-- The machine right after reset, at the reference configuration of R6 (R380; assumption 1). -/
def State.reset : State := State.resetWith Params.reference

end Sys2Proof.Machine
end

