-- ==== Sys2Proof/Machine/Flags.lean ====
section
/-! DEFINITION. The errors with their codes (`60_exceptions.md` R330 to R337), and every flag the spec computes: the words
STATUS, STREAM, ERR and PHASE as they are read, STATUS.HELD, and the interrupt line. -/

namespace Sys2Proof.Machine

/-- The six causes (`60_exceptions.md` R330). -/
inductive Cause where
  /-- Cause 1 (R331). -/
  | transport
  /-- Cause 2 (R332). -/
  | protocol
  /-- Cause 3 (R333). -/
  | decode
  /-- Cause 4 (R334). -/
  | compression
  /-- Cause 5 (R335). -/
  | capacity
  /-- Cause 6 (R336). -/
  | illegal
deriving DecidableEq, Repr

/-- `ERR.CAUSE` (`10_state.md` R45). -/
def Cause.code : Cause → Nat
  | .transport => 1
  | .protocol => 2
  | .decode => 3
  | .compression => 4
  | .capacity => 5
  | .illegal => 6

/-- The sub-causes, in the order of R337's table. -/
inductive CmdError where
  /-- TransportError, the receive stream has ended. -/
  | rxEnd
  /-- TransportError, the receive stream has failed. -/
  | rxIoError
  /-- TransportError, the transmit stream has failed. -/
  | txIoError
  /-- TransportError, the block is closed. -/
  | closed
  /-- TransportError, a stop request. -/
  | stopped
  /-- ProtocolError, a VarInt whose fifth byte continues. -/
  | varIntTooLarge
  /-- ProtocolError, a total length of 0 or less. -/
  | lengthNonPositive
  /-- ProtocolError, an inflated length other than the data length. -/
  | lengthMismatch
  /-- ProtocolError, an unrecognised opcode in Login. -/
  | unknownOpcode
  /-- ProtocolError, a boolean byte other than 0 and 1. -/
  | badBoolean
  /-- ProtocolError, a negative string length. -/
  | negativeLength
  /-- DecodeError, the field runs past the bytes there are. -/
  | insufficientBytes
  /-- CompressionError, the inflater failed. -/
  | inflateFailed
  /-- CapacityError, BLD is full. -/
  | bldFull
  /-- CapacityError, a frame larger than the buffer. -/
  | frameTooLarge
  /-- CapacityError, an access outside SCR. -/
  | scrBounds
  /-- CapacityError, a data length larger than the buffer. -/
  | dataTooLarge
  /-- IllegalCommand, a word that is no command. -/
  | reservedEncoding
  /-- IllegalCommand, an operand no rule allows. -/
  | badOperand
  /-- IllegalCommand, a phase transition no rule allows. -/
  | illegalTransition
  /-- IllegalCommand, no decoded frame to route. -/
  | noFrame
  /-- IllegalCommand, a cursor beyond PLEN. -/
  | badSeek
  /-- IllegalCommand, a character that the identifier text may not have there. -/
  | badUuidText
deriving DecidableEq, Repr

/-- The cause of a sub-cause (R337). -/
def CmdError.cause : CmdError → Cause
  | .rxEnd | .rxIoError | .txIoError | .closed | .stopped => .transport
  | .varIntTooLarge | .lengthNonPositive | .lengthMismatch | .unknownOpcode | .badBoolean | .negativeLength => .protocol
  | .insufficientBytes => .decode
  | .inflateFailed => .compression
  | .bldFull | .frameTooLarge | .scrBounds | .dataTooLarge => .capacity
  | .reservedEncoding | .badOperand | .illegalTransition | .noFrame | .badSeek | .badUuidText => .illegal

/-- `ERR.SUB` (R337). -/
def CmdError.sub : CmdError → Nat
  | .rxEnd => 1
  | .rxIoError => 2
  | .txIoError => 3
  | .closed => 4
  | .stopped => 5
  | .varIntTooLarge => 1
  | .lengthNonPositive => 2
  | .lengthMismatch => 3
  | .unknownOpcode => 4
  | .badBoolean => 5
  | .negativeLength => 6
  | .insufficientBytes => 1
  | .inflateFailed => 1
  | .bldFull => 1
  | .frameTooLarge => 2
  | .scrBounds => 3
  | .dataTooLarge => 4
  | .reservedEncoding => 1
  | .badOperand => 2
  | .illegalTransition => 3
  | .noFrame => 4
  | .badSeek => 5
  | .badUuidText => 6

/-- The ERR word of an error: `CAUSE | SUB << 8` (R337). -/
def CmdError.errWord (e : CmdError) : W32 := BitVec.ofNat 32 e.cause.code ||| BitVec.ofNat 32 e.sub <<< 8

/-- The ESTICKY bit of an error: bit `c` for cause `c` (`10_state.md` R47). -/
def CmdError.stickyBit (e : CmdError) : W32 := 1 <<< e.cause.code

/-- The code of a phase (`10_state.md` R50). -/
def Phase.code : Phase → BitVec 2
  | .handshake => 0
  | .status => 1
  | .login => 2
  | .play => 3

/-- A flag at its place in a 32-bit word. -/
def flagAt (b : Bool) (n : Nat) : W32 := (BitVec.ofBool b).setWidth 32 <<< n

/-- A FRAME.DEC is in progress and its next action is `RxByte()`: it is the command in execution, and has either
taken its first step or will not be turned away by the closed check (`10_state.md` R44, `30_encoding.md` R130;
assumption 12). -/
def State.receiving (s : State) : Bool := s.busy && s.cur == 0x00000051 && (s.rx.isSome || !s.closed)

/-- STATUS.HELD (`10_state.md` R44): a FRAME.DEC waits for a byte, RXQ is empty and RXEND = RXERR = 0. -/
def State.held (s : State) : Bool := s.receiving && s.rxq.isEmpty && !s.rxend && !s.rxerr

/-- The STATUS word (`10_state.md` R44). -/
def State.statusWord (s : State) : W32 :=
  flagAt s.busy 0 ||| flagAt s.closed 1 ||| flagAt s.fvalid 2 ||| flagAt s.fcomp 3 ||| flagAt s.ovr 4 |||
    flagAt s.held 5

/-- The STREAM word (`10_state.md` R65). -/
def State.streamWord (s : State) : W32 := flagAt s.rxend 0 ||| flagAt s.rxerr 1 ||| flagAt s.txerr 2

/-- The interrupt output: `irq = 1` exactly when `(IP & IE) != 0` (`60_exceptions.md` R346). -/
def State.irq (s : State) : Bool := s.ip &&& s.ie != 0

end Sys2Proof.Machine
end

