-- ==== Sys2Proof/Machine/Operands.lean ====
section
/-! DEFINITION. Operand forms (`30_encoding.md` R133, R134): registers, pairs and immediates, the extensions and
truncations of `00_scope.md` R9, and the byte orders of R10. -/

namespace Sys2Proof.Machine

/-- `sext_64`: extends a two's-complement value by copying its top bit (R9). -/
def sext64 {n : Nat} (v : BitVec n) : W64 := v.signExtend 64

/-- `zext_64`: extends with zeros (R9). -/
def zext64 {n : Nat} (v : BitVec n) : W64 := v.setWidth 64

/-- `trunc_N(v)`, that is `v[N-1:0]` (R9). -/
def trunc (n : Nat) {w : Nat} (v : BitVec w) : BitVec n := v.setWidth n

/-- The 32-bit word of a count, as ERRINFO and the length registers hold it. -/
def word32 (n : Nat) : W32 := BitVec.ofNat 32 n

/-- A general register, read in full (R134). -/
def State.reg (s : State) (r : Reg) : W64 := s.x[r]

/-- The register that holds the low half of a pair, `x[ra+1]` (`10_state.md` R31). -/
def pairLow (r : Reg) : Reg := r + 1

/-- The immediate of LDI (R133). -/
def immValue (imm : BitVec 16) : W64 := sext64 imm

/-- `BE`: the `n` low bytes of a value, most significant byte first (R10). -/
def beBytes {w : Nat} : Nat → BitVec w → Bytes
  | 0, _ => []
  | n + 1, v => trunc 8 (v >>> (8 * n)) :: beBytes n v

/-- `LE`: the `n` low bytes of a value, least significant byte first (R10). -/
def leBytes {w : Nat} : Nat → BitVec w → Bytes
  | 0, _ => []
  | n + 1, v => trunc 8 v :: leBytes n (v >>> 8)

/-- `FromBE` (R10): the value of a byte sequence, most significant byte first, in `w` bits. -/
def fromBE (w : Nat) (s : Bytes) : BitVec w := s.foldl (fun acc b => acc <<< 8 ||| b.setWidth w) 0

/-- `FromLE` (R10): the value of a byte sequence, least significant byte first, in `w` bits. -/
def fromLE (w : Nat) : Bytes → BitVec w
  | [] => 0
  | b :: s => b.setWidth w ||| fromLE w s <<< 8

end Sys2Proof.Machine
end

