-- ==== Sys2Proof/Machine/Ops.lean ====
section
/-! DEFINITION. The shared operations: SCR memory, general registers, the buffers BLD and PAY (`00_scope.md` R11), and
the two completions of a command (`60_exceptions.md` R340, R341), of which the one with an error is what the block has
for taking an exception. -/

namespace Sys2Proof.Machine

/-! ### SCR as a memory -/

/-- The byte written last at an offset since reset, if any. -/
def Memory.lookup : Mem → Nat → Option Byte
  | [], _ => none
  | (k, b) :: m, a => if a = k then some b else Memory.lookup m a

/-- Writes one byte, keeping the offsets strictly rising. -/
def Memory.insert : Mem → Nat → Byte → Mem
  | [], a, b => [(a, b)]
  | (k, c) :: m, a, b =>
    if a < k then (a, b) :: (k, c) :: m
    else if a = k then (a, b) :: m
    else (k, c) :: Memory.insert m a b

/-- Writes a byte sequence at rising offsets. -/
def Memory.insertAll : Mem → Nat → Bytes → Mem
  | m, _, [] => m
  | m, a, b :: s => Memory.insertAll (Memory.insert m a b) (a + 1) s

/-- The canonical form: offsets strictly rising. An offset that is not listed has no value of the model's, so no entry
equals what an unlisted offset reads as (assumption 2). -/
abbrev Memory.wf (m : Mem) : Prop := m.Pairwise fun c d => c.1 < d.1

/-- The byte SCR holds at an offset: the byte written last, or the free initial byte (`10_state.md` R62). -/
def State.scrByte (s : State) (a : Nat) : Byte := (Memory.lookup s.scr a).getD (Config.scrInitial s.resets a)

/-- The `n` bytes of SCR from an offset on. -/
def State.scrBytes (s : State) : Nat → Nat → Bytes
  | _, 0 => []
  | a, n + 1 => s.scrByte a :: s.scrBytes (a + 1) n

/-! ### Errors and effects -/

/-- An error with the ERRINFO value recorded for it: `raise <Error>(<sub>, info)` (`00_scope.md` R11). -/
structure Raise where
  /-- The sub-cause, with its cause. -/
  error : CmdError
  /-- The value for ERRINFO. -/
  info : W32
deriving DecidableEq, Repr

/-- What the rule of a command gives: the state with its pending writes made, or the error it raised. -/
abbrev Effect := Except Raise State

/-! ### Completion -/

/-- Completion without error (R341): ERR and ERRINFO 0, IP.DONE set and IP.ERR left, CMDCNT advanced, BUSY 0. -/
def State.completeOk (s : State) : State :=
  { s with
    err := 0
    errinfo := 0
    ip := s.ip ||| 1
    cmdcnt := s.cmdcnt + 1
    busy := false
    rx := none }

/-- Completion with error (R340): ERR, ERRINFO and ESTICKY recorded, CLOSED set for cause 1 (R343), IP.DONE and IP.ERR
set, CMDCNT advanced, BUSY 0. -/
def State.completeErr (s : State) (e : Raise) : State :=
  { s with
    err := e.error.errWord
    errinfo := e.info
    esticky := s.esticky ||| e.error.stickyBit
    closed := s.closed || e.error.cause == .transport
    ip := s.ip ||| 3
    cmdcnt := s.cmdcnt + 1
    busy := false
    rx := none }

/-- Completes a command: its pending writes take effect together (R341), or none of them does and the recording
registers are written over `onError`, the state before the command with the writes its rule names for the error case
(R340). -/
def completeEffect (r : Effect) (onError : State) : State :=
  match r with
  | .ok t => t.completeOk
  | .error e => onError.completeErr e

/-- Runs a command that takes one engine step (`30_encoding.md` R130): the closed check (R344), then the rule, then the
completion. `onError` is as in `completeEffect`. -/
def State.performOr (s onError : State) (r : Effect) : State :=
  if s.closed then s.completeErr ⟨.closed, 0⟩ else completeEffect r onError

/-- `State.performOr` for a rule that names no write for the error case. -/
def State.perform (s : State) (r : Effect) : State := s.performOr s r

/-! ### Registers -/

/-- `x[i] <- v`; none is hardwired (`10_state.md` R30). -/
def State.setReg (s : State) (r : Reg) (v : W64) : State := { s with x := s.x.set r.val v r.isLt }

/-! ### BLD and PAY -/

/-- Stores bytes at the end of BLD and counts them in LASTN (R11, `BldAppend` when they fit). -/
def State.appendBld (s : State) (b : Bytes) : State := { s with bld := s.bld ++ b, lastn := word32 b.length }

/-- `BldAppend(s)` (R11, `40_varint.md` R168): all or nothing. -/
def bldAppend (b : Bytes) (s : State) : Effect :=
  if s.blen + b.length ≤ s.params.bldCap then .ok (s.appendBld b)
  else .error ⟨.bldFull, word32 (s.blen + b.length)⟩

/-- `PayAdvance(n)` (R11). -/
def State.advance (s : State) (n : Nat) : State := { s with rpos := s.rpos + n, lastn := word32 n }

/-- `PAY[RPOS .. PLEN)`, the bytes still to read. -/
def State.payRest (s : State) : Bytes := s.pay.drop s.rpos

/-- The DecodeError of a field that runs past PLEN, with the number of bytes that were available (R169). -/
def State.payShort (s : State) : Raise := ⟨.insufficientBytes, word32 (s.plen - s.rpos)⟩

/-- `PayPeek(n)` (R11). -/
def payPeek (n : Nat) (s : State) : Except Raise Bytes :=
  if s.rpos + n ≤ s.plen then .ok (s.payRest.take n) else .error s.payShort

/-! ### SCR accesses of commands -/

/-- Gives SCR a new content. -/
def State.setScr (s : State) (m : Mem) : State := { s with scr := m }

/-- An SCR access of `n` bytes at offset `a` is legal: no scaling, no base, no wrap-around (`20_memory.md` R104). -/
abbrev State.scrLegal (s : State) (a : W64) (n : Nat) : Prop := a.toNat + n ≤ s.params.scrSize

/-- The CapacityError of an illegal SCR access (R104). -/
def scrRaise (a : W64) : Raise := ⟨.scrBounds, trunc 32 a⟩

/-- `MemRead(addr, n)` (R11). -/
def memRead (a : W64) (n : Nat) (s : State) : Except Raise Bytes :=
  if s.scrLegal a n then .ok (s.scrBytes a.toNat n) else .error (scrRaise a)

/-- `MemWrite(addr, n, s)` (R11). -/
def memWrite (a : W64) (b : Bytes) (s : State) : Effect :=
  if s.scrLegal a b.length then .ok (s.setScr (Memory.insertAll s.scr a.toNat b)) else .error (scrRaise a)

end Sys2Proof.Machine
end

