-- ==== Sys2Proof/Machine/VarInt.lean ====
section
/-! DEFINITION. The VarInt format and the commands ENC.VARINT and DEC.VARINT (`40_varint.md`). -/

namespace Sys2Proof.Machine

/-- The loop of R161 for at most `n` more bytes: the last byte carries its group with continuation bit 0, the others
with continuation bit 1, and the rest of the value is shifted down logically. -/
def encodeGroups : Nat → W32 → Bytes
  | 0, _ => []
  | n + 1, u =>
    if u &&& 0xFFFFFF80 = 0 then [trunc 8 u]
    else trunc 8 (u &&& 0x7F ||| 0x80) :: encodeGroups n (u >>> 7)

/-- `encode_varint` of the 32-bit pattern of an `i32` (R161). The loop ends within 5 bytes, since after four shifts the
value is below 16. -/
def encodeVarint (v : W32) : Bytes := encodeGroups 5 v

/-- `varint_len` (R162, `00_scope.md` R12). -/
def varintLen (v : W32) : Nat := (encodeVarint v).length

/-- The three results of `decode_varint` (R163). -/
inductive VarintResult where
  /-- A value and the number of bytes consumed. -/
  | value (v : W32) (n : Nat)
  /-- The fifth byte still had its continuation bit set. -/
  | tooLarge
  /-- The bytes ended before the VarInt did. -/
  | insufficient
deriving DecidableEq, Repr

/-- Adds the group of byte `b`, byte `i` of a VarInt, to the accumulator; bits shifted past bit 31 are discarded
(R163, R164 a). -/
def addGroup (acc : W32) (i : Nat) (b : Byte) : W32 := acc ||| (b &&& 0x7F).setWidth 32 <<< (7 * i)

/-- The continuation bit, bit 7 (R160). -/
def continues (b : Byte) : Bool := b.getLsbD 7

/-- The loop of R163 from byte `i` on, with `n` bytes still allowed. -/
def decodeGroups : Nat → Nat → W32 → Bytes → VarintResult
  | 0, _, _, _ => .tooLarge
  | _ + 1, _, _, [] => .insufficient
  | n + 1, i, acc, b :: s =>
    if continues b then decodeGroups n (i + 1) (addGroup acc i b) s else .value (addGroup acc i b) (i + 1)

/-- `decode_varint` (R163): at most five bytes are looked at. -/
def decodeVarint (s : Bytes) : VarintResult := decodeGroups 5 0 0 s

/-- `decode_varint` with the errors its users raise for it: too few bytes is a DecodeError recording how many there
were, a VarInt too large is a ProtocolError (R166, R223, `44_framer.md` R260, R261, `45_dispatch_system.md` R291). -/
def takeVarint (s : Bytes) : Except Raise (W32 × Nat) :=
  match decodeVarint s with
  | .value v n => .ok (v, n)
  | .insufficient => .error ⟨.insufficientBytes, word32 s.length⟩
  | .tooLarge => .error ⟨.varIntTooLarge, 0⟩

/-- ENC.VARINT (R165): the low 32 bits of the source. -/
def execEncVarint (ra : Reg) (s : State) : Host.Outcome State Fault Refusal :=
  .next (s.perform (bldAppend (encodeVarint (trunc 32 (s.reg ra))) s))

/-- DEC.VARINT (R166): the value sign-extended. -/
def execDecVarint (ra : Reg) (s : State) : Host.Outcome State Fault Refusal :=
  .next (s.perform (do
    let (v, n) ← takeVarint s.payRest
    .ok ((s.setReg ra (sext64 v)).advance n)))

end Sys2Proof.Machine
end

