-- ==== Sys2Proof/Machine/Framer.lean ====
section
/-! DEFINITION. The packet framer, FRAME.ENC and FRAME.DEC (`44_framer.md`). What a frame is stands in functions of the
compression unit (`frameBytes`, `parseFrame`); the machine uses them with its own unit `Config.zip`. -/

namespace Sys2Proof.Machine

/-! ### FRAME.ENC -/

/-- The uncompressed content of a frame: `opcode_bytes ++ payload` (R253). -/
def frameInner (opcode : W32) (payload : Bytes) : Bytes := encodeVarint opcode ++ payload

/-- The wire frame of a message under the latched threshold (R250, R253, R254, R255). -/
def frameBytes (zip : ZipUnit) (tl opcode : W32) (payload : Bytes) : Except Raise Bytes :=
  let inner := frameInner opcode payload
  let len := word32 inner.length
  if tl.toInt < 0 then .ok (encodeVarint len ++ inner)
  else if tl.toNat ≤ inner.length then
    let c := zip.deflate inner
    let total := varintLen len + c.length
    if 2 ^ 31 ≤ total then .error ⟨.frameTooLarge, 0⟩
    else .ok (encodeVarint (word32 total) ++ encodeVarint len ++ c)
  else .ok (encodeVarint (word32 (1 + inner.length)) ++ [0x00] ++ inner)

/-- What FRAME.ENC writes when it completes without error (R255): TL is latched, the frame enters TXQ in one
indivisible step (R256), BLD is emptied and LASTN counts the frame. -/
def State.emitFrame (s : State) (frame : Bytes) : State :=
  { s with
    tl := s.thresh
    txq := s.txq ++ frame
    bld := []
    lastn := word32 frame.length }

/-- FRAME.ENC (R255). -/
def execFrameEnc (ra : Reg) (s : State) : Host.Outcome State Fault Refusal :=
  .next (s.perform (do
    if s.txerr then .error ⟨.txIoError, 0⟩
    let frame ← frameBytes Config.zip s.thresh (trunc 32 (s.reg ra)) s.bld
    .ok (s.emitFrame frame)))

/-! ### What a frame holds -/

/-- The parts of a decoded frame. -/
structure FrameParts where
  /-- The opcode, an `i32`. -/
  opcode : W32
  /-- The payload. -/
  payload : Bytes
  /-- The data length, an `i32`; 0 in the plain format (R259). -/
  dlen : W32
deriving DecidableEq, Repr

/-- An error met inside a frame, with the data length read by then, or 0 (R265). -/
structure FrameError where
  /-- The error. -/
  raise : Raise
  /-- The value for FDLEN. -/
  dlen : W32
deriving DecidableEq, Repr

/-- `Body(buf)` (R260): the data length and the uncompressed content of a compression-capable frame. -/
def frameBody (zip : ZipUnit) (payCap : Nat) (buf : Bytes) : Except FrameError (W32 × Bytes) :=
  match takeVarint buf with
  | .error e => .error ⟨e, 0⟩
  | .ok (dlen, m) =>
    if dlen = 0 then .ok (0, buf.drop m)
    else if (payCap : Int) < dlen.toInt then .error ⟨⟨.dataTooLarge, dlen⟩, dlen⟩
    else match zip.inflate (buf.drop m) with
      | none => .error ⟨⟨.inflateFailed, 0⟩, dlen⟩
      | some z =>
        if (z.length : Int) = dlen.toInt then .ok (dlen, z)
        else .error ⟨⟨.lengthMismatch, word32 z.length⟩, dlen⟩

/-- `Opcode(inner)` (R261): splits the uncompressed content; `dlen` goes along. -/
def frameOpcode (dlen : W32) (inner : Bytes) : Except FrameError FrameParts :=
  match takeVarint inner with
  | .error e => .error ⟨e, dlen⟩
  | .ok (opcode, n) => .ok ⟨opcode, inner.drop n, dlen⟩

/-- What the `tlen` bytes of a frame hold, under the latched threshold (R257, R259 to R261). -/
def parseFrame (zip : ZipUnit) (payCap : Nat) (tl : W32) (buf : Bytes) : Except FrameError FrameParts :=
  if tl.toInt < 0 then frameOpcode 0 buf
  else match frameBody zip payCap buf with
    | .error e => .error e
    | .ok (dlen, inner) => frameOpcode dlen inner

/-! ### FRAME.DEC as a step machine -/

/-- What FRAME.DEC writes when it completes without error (R257). -/
def State.frameDone (s : State) (tlen : W32) (f : FrameParts) : State :=
  { s with
    opc := f.opcode
    pay := f.payload
    rpos := 0
    ftlen := tlen
    fdlen := f.dlen
    fvalid := true
    fcomp := decide (0 ≤ s.tl.toInt) }

/-- What FRAME.DEC writes when it completes with error (R257, R265). -/
def State.frameFailed (s : State) (ftlen fdlen : W32) : State :=
  { s with
    fvalid := false
    pay := []
    rpos := 0
    ftlen := ftlen
    fdlen := fdlen }

/-- A FRAME.DEC ends in error. -/
def State.frameFail (s : State) (ftlen fdlen : W32) (e : Raise) : State := (s.frameFailed ftlen fdlen).completeErr e

/-- The total length read by a control point, or 0 (R265). -/
def RxPoint.ftlen : RxPoint → W32
  | .len _ _ => 0
  | .take tlen _ => word32 tlen
  | .skip tlen _ => word32 tlen

/-- The control point FRAME.DEC starts in (R269). -/
def RxProgress.start : RxProgress := ⟨0, .len 0 0⟩

/-- Leaves FRAME.DEC at a control point. -/
def State.setRx (s : State) (p : RxProgress) : State := { s with rx := some p }

/-- FRAME.DEC's first step latches the threshold (`10_state.md` R68) and stands at the start (R269). -/
def State.startRx (s : State) : State :=
  { s with
    tl := s.thresh
    rx := some RxProgress.start }

/-- Gives RXQ what is left of it. -/
def State.setRxq (s : State) (q : Bytes) : State := { s with rxq := q }

/-- The total length has been read (R257, R258, R264). -/
def gotLength (tlen : W32) (taken : Nat) (s : State) : State :=
  if tlen.toInt ≤ 0 then s.frameFail tlen 0 ⟨.lengthNonPositive, tlen⟩
  else if s.params.payCap < tlen.toNat then s.setRx ⟨taken, .skip tlen.toNat 0⟩
  else s.setRx ⟨taken, .take tlen.toNat []⟩

/-- All bytes of the frame have been taken: the command completes in this same step (R269). -/
def finishFrame (tlen : Nat) (buf : Bytes) (s : State) : State :=
  match parseFrame Config.zip s.params.payCap s.tl buf with
  | .ok f => (s.frameDone (word32 tlen) f).completeOk
  | .error e => s.frameFail (word32 tlen) e.dlen e.raise

/-- What FRAME.DEC does with a byte it has taken, up to its next `RxByte()` or its completion (R263, R264, R269). -/
def rxByte (p : RxProgress) (b : Byte) (s : State) : State :=
  let taken := p.taken + 1
  match p.point with
  | .len i acc =>
    if continues b then
      if i + 1 < 5 then s.setRx ⟨taken, .len (i + 1) (addGroup acc i b)⟩ else s.frameFail 0 0 ⟨.varIntTooLarge, 0⟩
    else gotLength (addGroup acc i b) taken s
  | .take tlen buf =>
    if buf.length + 1 < tlen then s.setRx ⟨taken, .take tlen (buf ++ [b])⟩ else finishFrame tlen (buf ++ [b]) s
  | .skip tlen j =>
    if j + 1 < tlen then s.setRx ⟨taken, .skip tlen (j + 1)⟩
    else s.frameFail (word32 tlen) 0 ⟨.frameTooLarge, word32 tlen⟩

/-- One engine step of a FRAME.DEC at a control point: `RxByte()` (R262). Queued bytes are delivered before an end or an
error is acted on; with neither, the command holds and nothing changes. -/
def rxStep (p : RxProgress) (s : State) : State :=
  match s.rxq with
  | b :: q => rxByte p b (s.setRxq q)
  | [] =>
    if s.rxerr then s.frameFail p.point.ftlen 0 ⟨.rxIoError, word32 p.taken⟩
    else if s.rxend then s.frameFail p.point.ftlen 0 ⟨.rxEnd, word32 p.taken⟩
    else s

/-- FRAME.DEC (R257), one engine step. The closed check comes once, before its first step (`30_encoding.md` R130). -/
def execFrameDec (s : State) : Host.Outcome State Fault Refusal :=
  .next (match s.rx with
    | some p => rxStep p s
    | none => if s.closed then s.completeErr ⟨.closed, 0⟩ else rxStep RxProgress.start s.startRx)

/-- The stop request (`60_exceptions.md` R349): a held FRAME.DEC completes with TransportError(Stopped); at any other
time nothing happens. -/
def State.stopRx (s : State) : State :=
  if s.held then
    let p := s.rx.getD RxProgress.start
    s.frameFail p.point.ftlen 0 ⟨.stopped, word32 p.taken⟩
  else s

end Sys2Proof.Machine
end

