-- ==== Sys2Proof/Machine/System.lean ====
section
/-! DEFINITION. Opcode routing, phase and threshold control, and the system and buffer commands
(`45_dispatch_system.md`). -/

namespace Sys2Proof.Machine

/-! ### Named writes -/

/-- `PHASE <- p`. -/
def State.setPhase (s : State) (p : Phase) : State := { s with phase := p }

/-- `THRESH <- v`. -/
def State.setThresh (s : State) (v : W32) : State := { s with thresh := v }

/-- `ROUTE <- r`. -/
def State.setRoute (s : State) (r : BitVec 8) : State := { s with route := r }

/-- `RPOS <- n`. -/
def State.setRpos (s : State) (n : Nat) : State := { s with rpos := n }

/-- `BLEN <- 0`. -/
def State.clearBld (s : State) : State := { s with bld := [] }

/-- What PAY.LOAD writes (R301). -/
def State.loadPay (s : State) : State :=
  { s with
    pay := s.bld
    rpos := 0
    fvalid := false }

/-- What CONN.RESET writes (R297). -/
def State.newConnection (s : State) : State :=
  { s with
    phase := .handshake
    thresh := 0xFFFFFFFF
    route := 0
    bld := []
    pay := []
    rpos := 0
    lastn := 0
    ftlen := 0
    fdlen := 0
    closed := false
    fvalid := false
    fcomp := false
    rxq := []
    txq := []
    rxend := false
    rxerr := false
    txerr := false }

/-! ### Routing -/

/-- `RT[k].CTL.VALID` (`10_state.md` R55). -/
def RtEntry.valid (e : RtEntry) : Bool := e.ctl.getLsbD 0

/-- `RT[k].CTL.PHASE` (`10_state.md` R55). -/
def RtEntry.phase (e : RtEntry) : BitVec 2 := e.ctl.extractLsb' 1 2

/-- `RT[k].CTL.ROUTE` (`10_state.md` R55). -/
def RtEntry.route (e : RtEntry) : BitVec 8 := e.ctl.extractLsb' 8 8

/-- A valid entry for a phase and an opcode; opcodes are compared on all 32 bits (R290, R293). -/
def RtEntry.isFor (e : RtEntry) (p : Phase) (opc : W32) : Bool := e.valid && e.phase == p.code && e.opc == opc

/-- The matching entry of least index (R293). -/
def State.routeEntry (s : State) : Option RtEntry := s.rt.find? fun e => e.isFor s.phase s.opc

/-- The SetCompression action (R291): the VarInt at offset 0 of PAY, whatever RPOS is; the bytes after it are
ignored. -/
def setCompressionAction (s : State) : Effect := do
  let (v, _) ← takeVarint s.pay
  .ok (s.setThresh v)

/-- The LoginSuccess action (R291): Login to Play, no change in any other phase. -/
def loginSuccessAction (s : State) : State := if s.phase = .login then s.setPhase .play else s

/-- The built-in action of a route (R291); the other routes have none in the block (`10_state.md` R53). -/
def routeAction (r : BitVec 8) (s : State) : Effect :=
  if r = 1 then setCompressionAction s
  else if r = 2 then .ok (loginSuccessAction s)
  else .ok s

/-- The rule of DISPATCH (R290, R292). -/
def dispatchRule (s : State) : Effect := do
  if !s.fvalid then .error ⟨.noFrame, 0⟩
  match s.routeEntry with
  | none => if s.phase = .login then .error ⟨.unknownOpcode, s.opc⟩ else .ok (s.setRoute 0)
  | some e =>
    let t ← routeAction e.route s
    .ok (t.setRoute e.route)

/-- DISPATCH (R290): on every error of its rule `ROUTE <- 0` still takes effect. -/
def execDispatch (s : State) : Host.Outcome State Fault Refusal := .next (s.performOr (s.setRoute 0) (dispatchRule s))

/-! ### Phase and threshold -/

/-- The phase PHASE.SET asks for (R294): 1 Status, 2 Login, no other. -/
def targetPhase (imm : BitVec 16) : Except Raise Phase :=
  if imm = 1 then .ok .status
  else if imm = 2 then .ok .login
  else .error ⟨.badOperand, imm.setWidth 32⟩

/-- PHASE.SET (R294). -/
def execPhaseSet (imm : BitVec 16) (s : State) : Host.Outcome State Fault Refusal :=
  .next (s.perform (do
    let p ← targetPhase imm
    if s.phase = .handshake then .ok (s.setPhase p)
    else .error ⟨.illegalTransition, s.phase.code.setWidth 32⟩))

/-- THRESH.SET (R295). -/
def execThreshSet (ra : Reg) (s : State) : Host.Outcome State Fault Refusal :=
  .next (s.perform (.ok (s.setThresh (trunc 32 (s.reg ra)))))

/-! ### System and buffer commands -/

/-- NOP (R296): completes without error, also when closed. -/
def execNop (s : State) : Host.Outcome State Fault Refusal := .next s.completeOk

/-- CONN.RESET (R297): a new connection; it executes also when closed. -/
def execConnReset (s : State) : Host.Outcome State Fault Refusal := .next s.newConnection.completeOk

/-- LDI (R298). -/
def execLdi (ra : Reg) (imm : BitVec 16) (s : State) : Host.Outcome State Fault Refusal :=
  .next (s.perform (.ok (s.setReg ra (immValue imm))))

/-- BLD.CLR (R299). -/
def execBldClr (s : State) : Host.Outcome State Fault Refusal := .next (s.perform (.ok s.clearBld))

/-- PAY.SEEK (R300): all 64 bits of the source are the cursor. -/
def execPaySeek (ra : Reg) (s : State) : Host.Outcome State Fault Refusal :=
  .next (s.perform (if s.plen < (s.reg ra).toNat then .error ⟨.badSeek, trunc 32 (s.reg ra)⟩
    else .ok (s.setRpos (s.reg ra).toNat)))

/-- PAY.LOAD (R301). -/
def execPayLoad (s : State) : Host.Outcome State Fault Refusal := .next (s.perform (.ok s.loadPay))

end Sys2Proof.Machine
end

