-- ==== Sys2Proof/Machine/Bus.lean ====
section
/-! DEFINITION. The register bus: the map of `10_state.md` R40 and the host's two moves (`20_memory.md` R91 to R95, R102). -/

namespace Sys2Proof.Machine

/-! ### Reads -/

/-- The ID register (`10_state.md` R41). -/
def idWord : W32 := 0x474D5001

/-- The control and status registers as words, by bus address (R40). CMD and CTRL read 0 (R42, R43), reserved
addresses too (`20_memory.md` R93), and unnamed bits (R40). -/
def State.controlWord (s : State) (addr : Nat) : W32 :=
  match addr with
  | 0x0040 => idWord
  | 0x004C => s.statusWord
  | 0x0050 => s.err
  | 0x0054 => s.errinfo
  | 0x0058 => s.esticky
  | 0x005C => s.ie.setWidth 32
  | 0x0060 => s.ip.setWidth 32
  | 0x0064 => s.cmdcnt
  | 0x0068 => s.phase.code.setWidth 32
  | 0x006C => s.thresh
  | 0x0070 => s.opc
  | 0x0074 => s.route.setWidth 32
  | 0x0078 => word32 s.blen
  | 0x007C => word32 s.plen
  | 0x0080 => word32 s.rpos
  | 0x0084 => s.lastn
  | 0x0088 => s.ftlen
  | 0x008C => s.fdlen
  | 0x0090 => s.streamWord
  | _ => 0

/-- The general register that a bus address below `0x0040` belongs to (R92). -/
def busReg (addr : Nat) : Reg := Fin.ofNat 8 (addr / 8)

/-- A bus address below `0x0040`, or one of an RT entry, is the upper of its two words (R40, R92). -/
def upperWord (addr : Nat) : Bool := addr % 8 == 4

/-- The RT entry a bus address belongs to (R40). -/
def rtIndex (addr : Nat) : Nat := (addr - 0x0100) / 8

/-- The address lies in the RT region (R40). -/
abbrev State.rtAddr (s : State) (addr : Nat) : Prop := 0x0100 ≤ addr ∧ addr < 0x0100 + 8 * s.params.rtN

/-- The address lies in the SCR window (`20_memory.md` R94). -/
abbrev State.scrAddr (s : State) (addr : Nat) : Prop := 0x1000 ≤ addr ∧ addr < 0x1000 + s.params.scrSize

/-- What a word read answers (R91, R94): no read has a side effect (R103). -/
def State.busWord (s : State) (addr : Nat) : W32 :=
  if addr < 0x0040 then
    if upperWord addr then trunc 32 (s.reg (busReg addr) >>> 32) else trunc 32 (s.reg (busReg addr))
  else if addr < 0x0100 then s.controlWord addr
  else if s.rtAddr addr then
    let e := s.rt.getD (rtIndex addr) ⟨0, 0⟩
    if upperWord addr then e.ctl else e.opc
  else if s.scrAddr addr then fromLE 32 (s.scrBytes (addr - 0x1000) 4)
  else 0

/-! ### Writes -/

/-- A discarded write sets OVR (R42, `20_memory.md` R95). -/
def State.setOvr (s : State) : State := { s with ovr := true }

/-- An accepted CMD write: the word becomes CUR, BUSY becomes 1 (R42, `30_encoding.md` R130). -/
def State.issue (s : State) (w : W32) : State :=
  { s with
    cur := w
    busy := true
    rx := none }

/-- A write to IE: bits 1:0 (R48). -/
def State.setIe (s : State) (v : W32) : State := { s with ie := trunc 2 v }

/-- A write to IP clears exactly the bits written as 1 (R49). -/
def State.clearIp (s : State) (v : W32) : State := { s with ip := s.ip &&& ~~~(trunc 2 v) }

/-- Gives RT a new content. -/
def State.setRt (s : State) (rt : List RtEntry) : State := { s with rt := rt }

/-- The bits of `RT[k].CTL` that are not read as 0 (R55). -/
def ctlMask : W32 := 0x0000FF07

/-- A register made of its two words (R92). -/
def joinWords (hi lo : W32) : W64 := hi.setWidth 64 <<< 32 ||| lo.setWidth 64

/-- A write of one word of a general register leaves the other word unchanged (R92). -/
def State.writeRegWord (s : State) (addr : Nat) (v : W32) : State :=
  let r := busReg addr
  s.setReg r (if upperWord addr then joinWords v (trunc 32 (s.reg r)) else joinWords (trunc 32 (s.reg r >>> 32)) v)

/-- A write of one word of an RT entry (R55). -/
def State.writeRtWord (s : State) (addr : Nat) (v : W32) : State :=
  s.setRt (s.rt.modify (rtIndex addr) fun e =>
    if upperWord addr then { e with ctl := v &&& ctlMask } else { e with opc := v })

/-- A write of a word of the SCR window, least significant byte at the lowest offset (R92, R94). -/
def State.writeScrWord (s : State) (addr : Nat) (v : W32) : State :=
  s.setScr (Memory.insertAll s.scr (addr - 0x1000) (leBytes 4 v))

/-- A write that is discarded while a command runs (`20_memory.md` R95). -/
def State.whenIdle (s t : State) : State := if s.busy then s.setOvr else t

/-- What a word write does (R40, R91): read-only and reserved addresses ignore it. -/
def State.writeWord (s : State) (addr : Nat) (v : W32) : State :=
  if addr < 0x0040 then s.whenIdle (s.writeRegWord addr v)
  else if addr = 0x0044 then s.whenIdle (s.issue v)
  else if addr = 0x0048 then if v.getLsbD 0 then s.stopRx else s
  else if addr = 0x005C then s.setIe v
  else if addr = 0x0060 then s.clearIp v
  else if s.rtAddr addr then s.whenIdle (s.writeRtWord addr v)
  else if s.scrAddr addr then s.whenIdle (s.writeScrWord addr v)
  else s

/-! ### The host's moves -/

/-- A proper access: 32 bits at a multiple of 4 (`20_memory.md` R102). -/
abbrev properAccess (width : BusWidth) (addr : BitVec 16) : Prop := width = .word ∧ addr.toNat % 4 = 0

/-- The bus answers (assumption 7). -/
def State.answer (s : State) (a : BusAnswer) : State := { s with bus := a }

/-- BusRead (R91): another access than a proper one is answered with a bus error and reads as 0 (R102). -/
def State.busRead (s : State) (width : BusWidth) (addr : BitVec 16) : State :=
  if properAccess width addr then s.answer ⟨s.busWord addr.toNat, false⟩ else s.answer ⟨0, true⟩

/-- BusWrite (R91): another access than a proper one is answered with a bus error and changes no state (R102). -/
def State.busWrite (s : State) (width : BusWidth) (addr : BitVec 16) (v : W32) : State :=
  if properAccess width addr then (s.writeWord addr.toNat v).answer ⟨0, false⟩ else s.answer ⟨0, true⟩

end Sys2Proof.Machine
end

