-- ==== Sys2Proof/Machine/FixedInt.lean ====
section
/-! DEFINITION. The fixed-width integers and the boolean (`41_fixed_int_bool.md`). -/

namespace Sys2Proof.Machine

/-- What every ENC of a fixed width does (R205): the low `8 * n` bits of the source, big-endian, without a range
check. -/
def encFixed (n : Nat) (ra : Reg) (s : State) : Effect := bldAppend (beBytes n (s.reg ra)) s

/-- What every DEC of a fixed width does (R205): `n` bytes, big-endian, extended by `ext`. -/
def decFixed (n : Nat) (ext : BitVec (8 * n) → W64) (ra : Reg) (s : State) : Effect := do
  let b ← payPeek n s
  .ok ((s.setReg ra (ext (fromBE (8 * n) b))).advance n)

/-- ENC.BYTE (R181). -/
def execEncByte (ra : Reg) (s : State) : Host.Outcome State Fault Refusal := .next (s.perform (encFixed 1 ra s))

/-- DEC.BYTE (R182): sign-extended. -/
def execDecByte (ra : Reg) (s : State) : Host.Outcome State Fault Refusal := .next (s.perform (decFixed 1 sext64 ra s))

/-- ENC.UBYTE (R183). -/
def execEncUbyte (ra : Reg) (s : State) : Host.Outcome State Fault Refusal := .next (s.perform (encFixed 1 ra s))

/-- DEC.UBYTE (R184): zero-extended. -/
def execDecUbyte (ra : Reg) (s : State) : Host.Outcome State Fault Refusal := .next (s.perform (decFixed 1 zext64 ra s))

/-- ENC.SHORT (R186). -/
def execEncShort (ra : Reg) (s : State) : Host.Outcome State Fault Refusal := .next (s.perform (encFixed 2 ra s))

/-- DEC.SHORT (R187): sign-extended. -/
def execDecShort (ra : Reg) (s : State) : Host.Outcome State Fault Refusal := .next (s.perform (decFixed 2 sext64 ra s))

/-- ENC.USHORT (R188). -/
def execEncUshort (ra : Reg) (s : State) : Host.Outcome State Fault Refusal := .next (s.perform (encFixed 2 ra s))

/-- DEC.USHORT (R189): zero-extended. -/
def execDecUshort (ra : Reg) (s : State) : Host.Outcome State Fault Refusal :=
  .next (s.perform (decFixed 2 zext64 ra s))

/-- ENC.INT (R191). -/
def execEncInt (ra : Reg) (s : State) : Host.Outcome State Fault Refusal := .next (s.perform (encFixed 4 ra s))

/-- DEC.INT (R192): sign-extended. -/
def execDecInt (ra : Reg) (s : State) : Host.Outcome State Fault Refusal := .next (s.perform (decFixed 4 sext64 ra s))

/-- ENC.LONG (R196): all 64 bits. -/
def execEncLong (ra : Reg) (s : State) : Host.Outcome State Fault Refusal := .next (s.perform (encFixed 8 ra s))

/-- DEC.LONG (R197): no extension is needed. -/
def execDecLong (ra : Reg) (s : State) : Host.Outcome State Fault Refusal := .next (s.perform (decFixed 8 id ra s))

/-- ENC.BOOL (R201): 1 for any non-zero register, testing all 64 bits. -/
def execEncBool (ra : Reg) (s : State) : Host.Outcome State Fault Refusal :=
  .next (s.perform (bldAppend [if s.reg ra = 0 then 0x00 else 0x01] s))

/-- The value of a boolean byte (R202): a byte other than 0 and 1 is a ProtocolError recording it. -/
def boolValue (b : Byte) : Except Raise W64 :=
  if b = 0x00 then .ok 0 else if b = 0x01 then .ok 1 else .error ⟨.badBoolean, b.setWidth 32⟩

/-- DEC.BOOL (R202). -/
def execDecBool (ra : Reg) (s : State) : Host.Outcome State Fault Refusal :=
  .next (s.perform (do
    let b ← payPeek 1 s
    let v ← boolValue (fromBE 8 b)
    .ok ((s.setReg ra v).advance 1)))

end Sys2Proof.Machine
end

