-- ==== Sys2Proof/Machine/Float.lean ====
section
/-! DEFINITION. Float and double (`42_float.md`): bit patterns, moved unchanged (R210, R215). -/

namespace Sys2Proof.Machine

/-- ENC.FLOAT (R211): the pattern in the low 32 bits. -/
def execEncFloat (ra : Reg) (s : State) : Host.Outcome State Fault Refusal := .next (s.perform (encFixed 4 ra s))

/-- DEC.FLOAT (R212): the pattern zero-extended, never sign-extended. -/
def execDecFloat (ra : Reg) (s : State) : Host.Outcome State Fault Refusal := .next (s.perform (decFixed 4 zext64 ra s))

/-- ENC.DOUBLE (R213). -/
def execEncDouble (ra : Reg) (s : State) : Host.Outcome State Fault Refusal := .next (s.perform (encFixed 8 ra s))

/-- DEC.DOUBLE (R214). -/
def execDecDouble (ra : Reg) (s : State) : Host.Outcome State Fault Refusal := .next (s.perform (decFixed 8 id ra s))

end Sys2Proof.Machine
end

