-- ==== Sys2Proof/Machine/StringUuid.lean ====
section
/-! DEFINITION. String, raw bytes and the 128-bit identifier (`43_string_uuid_raw.md`). -/

namespace Sys2Proof.Machine

/-- The byte count operand of ENC.STRING, ENC.RAW and DEC.RAW: all 64 bits, below `2^31` (R221, R224, R225). -/
def byteCount (n : W64) : Except Raise Nat :=
  if n.toNat < 2 ^ 31 then .ok n.toNat else .error ⟨.badOperand, trunc 32 n⟩

/-- The byte count a string decodes to: a negative one is a ProtocolError (R223). -/
def stringCount (v : W32) : Except Raise Nat :=
  if v.toInt < 0 then .error ⟨.negativeLength, v⟩ else .ok v.toNat

/-- ENC.STRING (R221): the count as a VarInt, then the bytes. -/
def execEncString (ra rb : Reg) (s : State) : Host.Outcome State Fault Refusal :=
  .next (s.perform (do
    let n ← byteCount (s.reg ra)
    let b ← memRead (s.reg rb) n s
    bldAppend (encodeVarint (word32 n) ++ b) s))

/-- DEC.STRING (R223): the offset is the register's old value; the count is written last. -/
def execDecString (ra rb : Reg) (s : State) : Host.Outcome State Fault Refusal :=
  .next (s.perform (do
    let (v, k) ← takeVarint s.payRest
    let n ← stringCount v
    let b ← payPeek (k + n) s
    let t ← memWrite (s.reg rb) (b.drop k) s
    .ok ((t.setReg ra (zext64 (word32 n))).advance (k + n))))

/-- ENC.RAW (R224): the bytes with no prefix. -/
def execEncRaw (ra rb : Reg) (s : State) : Host.Outcome State Fault Refusal :=
  .next (s.perform (do
    let n ← byteCount (s.reg ra)
    let b ← memRead (s.reg rb) n s
    bldAppend b s))

/-- DEC.RAW (R225): no general register is written. -/
def execDecRaw (ra rb : Reg) (s : State) : Host.Outcome State Fault Refusal :=
  .next (s.perform (do
    let n ← byteCount (s.reg ra)
    let b ← payPeek n s
    let t ← memWrite (s.reg rb) b s
    .ok (t.advance n)))

/-- The 16 wire bytes of an identifier: the high half big-endian, then the low half little-endian (R226). -/
def uuidBytes (hi lo : W64) : Bytes := beBytes 8 hi ++ leBytes 8 lo

/-- ENC.UUID (R227). -/
def execEncUuid (ra : Reg) (s : State) : Host.Outcome State Fault Refusal :=
  .next (s.perform (bldAppend (uuidBytes (s.reg ra) (s.reg (pairLow ra))) s))

/-- DEC.UUID (R228): both registers are written together. -/
def execDecUuid (ra : Reg) (s : State) : Host.Outcome State Fault Refusal :=
  .next (s.perform (do
    let b ← payPeek 16 s
    .ok (((s.setReg ra (fromBE 64 (b.take 8))).setReg (pairLow ra) (fromLE 64 (b.drop 8))).advance 16)))

/-- The ASCII character of a hexadecimal digit, lower case (R229). -/
def hexChar (d : BitVec 4) : Byte := if d.toNat < 10 then 0x30 + d.setWidth 8 else 0x57 + d.setWidth 8

/-- The value of a hexadecimal character, in either case (R231). -/
def hexValue (c : Byte) : Option (BitVec 4) :=
  if 0x30 ≤ c ∧ c ≤ 0x39 then some (trunc 4 (c - 0x30))
  else if 0x61 ≤ c ∧ c ≤ 0x66 then some (trunc 4 (c - 0x57))
  else if 0x41 ≤ c ∧ c ≤ 0x46 then some (trunc 4 (c - 0x37))
  else none

/-- The `n` low hexadecimal digits of a value, most significant first. -/
def hexDigits {w : Nat} : Nat → BitVec w → List (BitVec 4)
  | 0, _ => []
  | n + 1, v => trunc 4 (v >>> (4 * n)) :: hexDigits n v

/-- The text of `n` low hexadecimal digits of a value. -/
def hexText {w : Nat} (n : Nat) (v : BitVec w) : Bytes := (hexDigits n v).map hexChar

/-- The hyphen (R229). -/
def hyphen : Byte := 0x2D

/-- The canonical text of an identifier, 36 characters in five groups (R229): `hi[63:32]`, `hi[31:16]`, `hi[15:0]`,
`lo[63:48]`, `lo[47:0]`. -/
def uuidText (hi lo : W64) : Bytes :=
  hexText 8 (hi >>> 32) ++ [hyphen] ++ hexText 4 (hi >>> 16) ++ [hyphen] ++ hexText 4 hi ++ [hyphen] ++
    hexText 4 (lo >>> 48) ++ [hyphen] ++ hexText 12 lo

/-- Whether the canonical text has a hyphen at a character position (R229). -/
def hyphenAt (i : Nat) : Bool := i == 8 || i == 13 || i == 18 || i == 23

/-- The digits of a text from character position `i` on, or the position of its first bad character (R231). -/
def scanUuid : Nat → Bytes → Except Nat (List (BitVec 4))
  | _, [] => .ok []
  | i, c :: s =>
    if hyphenAt i then if c = hyphen then scanUuid (i + 1) s else .error i
    else match hexValue c with
      | some d => (scanUuid (i + 1) s).map (d :: ·)
      | none => .error i

/-- The 64-bit value of a sequence of hexadecimal digits, the first the most significant (R231). -/
def digitsValue (d : List (BitVec 4)) : W64 := d.foldl (fun acc v => acc <<< 4 ||| v.setWidth 64) 0

/-- The two halves of the identifier a text stands for, or the error of R231. -/
def parseUuid (text : Bytes) : Except Raise (W64 × W64) :=
  match scanUuid 0 text with
  | .ok d => .ok (digitsValue (d.take 16), digitsValue (d.drop 16))
  | .error i => .error ⟨.badUuidText, word32 i⟩

/-- UUID.FMT (R230). -/
def execUuidFmt (ra rb : Reg) (s : State) : Host.Outcome State Fault Refusal :=
  .next (s.perform (memWrite (s.reg rb) (uuidText (s.reg ra) (s.reg (pairLow ra))) s))

/-- UUID.PARSE (R231). -/
def execUuidParse (ra rb : Reg) (s : State) : Host.Outcome State Fault Refusal :=
  .next (s.perform (do
    let text ← memRead (s.reg rb) 36 s
    let (hi, lo) ← parseUuid text
    .ok ((s.setReg ra hi).setReg (pairLow ra) lo)))

end Sys2Proof.Machine
end

