-- ==== Sys2Proof/Machine/Dispatch.lean ====
section
/-! DEFINITION. The meaning of each command (`30_encoding.md` R136): one arm per constructor, one call of its meaning. A
meaning is what the engine does with the command in one step, from the closed check to the completion (R130). -/

namespace Sys2Proof.Machine

def exec (i : Instr) (s : State) : Host.Outcome State Fault Refusal :=
  match i with
  | .nop => Sys2Proof.Machine.execNop s
  | .ldi ra imm => Sys2Proof.Machine.execLdi ra imm s
  | .connReset => Sys2Proof.Machine.execConnReset s
  | .phaseSet imm => Sys2Proof.Machine.execPhaseSet imm s
  | .threshSet ra => Sys2Proof.Machine.execThreshSet ra s
  | .dispatch => Sys2Proof.Machine.execDispatch s
  | .bldClr => Sys2Proof.Machine.execBldClr s
  | .paySeek ra => Sys2Proof.Machine.execPaySeek ra s
  | .payLoad => Sys2Proof.Machine.execPayLoad s
  | .encVarint ra => Sys2Proof.Machine.execEncVarint ra s
  | .decVarint ra => Sys2Proof.Machine.execDecVarint ra s
  | .encByte ra => Sys2Proof.Machine.execEncByte ra s
  | .decByte ra => Sys2Proof.Machine.execDecByte ra s
  | .encUbyte ra => Sys2Proof.Machine.execEncUbyte ra s
  | .decUbyte ra => Sys2Proof.Machine.execDecUbyte ra s
  | .encShort ra => Sys2Proof.Machine.execEncShort ra s
  | .decShort ra => Sys2Proof.Machine.execDecShort ra s
  | .encUshort ra => Sys2Proof.Machine.execEncUshort ra s
  | .decUshort ra => Sys2Proof.Machine.execDecUshort ra s
  | .encInt ra => Sys2Proof.Machine.execEncInt ra s
  | .decInt ra => Sys2Proof.Machine.execDecInt ra s
  | .encLong ra => Sys2Proof.Machine.execEncLong ra s
  | .decLong ra => Sys2Proof.Machine.execDecLong ra s
  | .encBool ra => Sys2Proof.Machine.execEncBool ra s
  | .decBool ra => Sys2Proof.Machine.execDecBool ra s
  | .encFloat ra => Sys2Proof.Machine.execEncFloat ra s
  | .decFloat ra => Sys2Proof.Machine.execDecFloat ra s
  | .encDouble ra => Sys2Proof.Machine.execEncDouble ra s
  | .decDouble ra => Sys2Proof.Machine.execDecDouble ra s
  | .encString ra rb => Sys2Proof.Machine.execEncString ra rb s
  | .decString ra rb => Sys2Proof.Machine.execDecString ra rb s
  | .encUuid ra => Sys2Proof.Machine.execEncUuid ra s
  | .decUuid ra => Sys2Proof.Machine.execDecUuid ra s
  | .encRaw ra rb => Sys2Proof.Machine.execEncRaw ra rb s
  | .decRaw ra rb => Sys2Proof.Machine.execDecRaw ra rb s
  | .uuidFmt ra rb => Sys2Proof.Machine.execUuidFmt ra rb s
  | .uuidParse ra rb => Sys2Proof.Machine.execUuidParse ra rb s
  | .frameEnc ra => Sys2Proof.Machine.execFrameEnc ra s
  | .frameDec => Sys2Proof.Machine.execFrameDec s

end Sys2Proof.Machine
end

