-- ==== Sys2Proof/Machine/Agents.lean ====
section
/-! DEFINITION. What each agent's move does (`00_scope.md` R8): the engine (`30_encoding.md` R130), the host
(`20_memory.md` R91), the transports (R97, R98), and the reset input (`70_reset_and_hazards.md` R380). A move that is
not enabled does nothing (assumption 6). -/

namespace Sys2Proof.Machine

/-! ### The transports -/

/-- A byte enters RXQ at its tail. -/
def State.pushRx (s : State) (b : Byte) : State := { s with rxq := s.rxq ++ [b] }

/-- `RxPush(b)`: enabled when RXEND = 0 and RXERR = 0 (R97 a). -/
def State.rxPush (s : State) (b : Byte) : State := if s.rxend || s.rxerr then s else s.pushRx b

/-- `RxEnd` (R97 b). -/
def State.setRxend (s : State) : State := { s with rxend := true }

/-- `RxFail` (R97 c). -/
def State.setRxerr (s : State) : State := { s with rxerr := true }

/-- The head byte of TXQ leaves for the wire. -/
def State.popTx (s : State) (b : Byte) (q : Bytes) : State :=
  { s with
    txq := q
    wire := s.wire ++ [b] }

/-- `TxPop`: enabled when TXQ is not empty (R98 a). -/
def State.txPop (s : State) : State :=
  match s.txq with
  | [] => s
  | b :: q => s.popTx b q

/-- The TX transport declares an I/O error: TXERR is set, and the bytes still in TXQ are lost (R98; assumption 22). -/
def State.failTx (s : State) : State :=
  { s with
    txerr := true
    txq := [] }

/-- `TxFail`: enabled when TXERR = 0 (R98 b). -/
def State.txFail (s : State) : State := if s.txerr then s else s.failTx

/-! ### The reset input -/

/-- The reset input rises: every state of the block takes its reset value, a command in flight is abandoned, SCR gets
an unspecified content (R380, R381). The model's own fields that are not the block's stay. -/
def State.enterReset (s : State) : State :=
  { State.resetWith s.params with
    rst := true
    resets := s.resets + 1
    bus := s.bus
    wire := s.wire
    sched := s.sched }

/-- The reset input returns to 0. -/
def State.leaveReset (s : State) : State := { s with rst := false }

/-- The reset input takes a level (R380). -/
def State.setRst (s : State) (level : Bool) : State := if level then s.enterReset else s.leaveReset

/-- While the reset input is 1 the block is held in the reset state (R380): a move leaves it as it is. -/
def State.unlessReset (s t : State) : State := if s.rst then s else t

/-! ### The engine -/

/-- One step of the engine (R130): an idle engine waits; a word that is no command completes with
IllegalCommand(ReservedEncoding), ERRINFO the word (R137); a command runs. -/
def engineStep (s : State) : Host.Outcome State Fault Refusal :=
  if s.rst || !s.busy then .next s
  else match decode s.cur with
    | some i => exec i s
    | none => .next (s.completeErr ⟨.reservedEncoding, s.cur⟩)

/-! ### Moves -/

/-- One move of one agent. -/
def doMove (m : Move) (s : State) : Host.Outcome State Fault Refusal :=
  match m with
  | .engine => engineStep s
  | .busRead width addr => .next (s.busRead width addr)
  | .busWrite width addr v => .next (s.unlessReset (s.busWrite width addr v))
  | .rxPush b => .next (s.unlessReset (s.rxPush b))
  | .rxEnd => .next (s.unlessReset s.setRxend)
  | .rxFail => .next (s.unlessReset s.setRxerr)
  | .txPop => .next (s.unlessReset s.txPop)
  | .txFail => .next (s.unlessReset s.txFail)
  | .rst level => .next (s.setRst level)

/-- Gives the moves still to come. -/
def State.setSched (s : State) (l : List Move) : State := { s with sched := l }

end Sys2Proof.Machine
end

