-- ==== Sys2Proof/Machine/Step.lean ====
section
/-! DEFINITION. One step of the machine: the next move of the schedule, or, when there is none, a step of the engine
(assumption 5); and the state in which the very next step runs a given command word. -/

namespace Sys2Proof.Machine

/-- One step: one move of one agent (`00_scope.md` R8). -/
def step (s : State) : Host.Outcome State Fault Refusal :=
  match s.sched with
  | [] => engineStep s
  | m :: l => doMove m (s.setSched l)

/-- The state in which the next step runs the command word `w`: the word is in CUR with BUSY = 1, as an accepted CMD
write leaves it (`10_state.md` R42), no FRAME.DEC is in flight, the block is not held in reset, and the engine moves
first if other moves are still to come (assumption 5). -/
def State.withFetchWord (s : State) (nbits w : Nat) : State :=
  { s with
    cur := BitVec.ofNat 32 (w % 2 ^ nbits)
    busy := true
    rx := none
    rst := false
    sched := match s.sched with
      | [] => []
      | m :: l => .engine :: m :: l }

end Sys2Proof.Machine
end

