-- ==== Sys2Proof/Safety.lean ====
section
/-! DEFINITION. The terms claims use: the invariant of the machine, and what a run without a recorded error is. -/

namespace Sys2Proof.Machine

/-- The unnamed bits of an RT entry read 0 (`10_state.md` R55). -/
abbrev RtEntry.Wf (e : RtEntry) : Prop := e.ctl &&& ~~~ctlMask = 0

/-- RT has RT_N entries, each with its unnamed bits 0 (R55). -/
def State.RtWf (s : State) : Prop := s.rt.length = s.params.rtN ∧ ∀ e ∈ s.rt, e.Wf

/-- `BLEN <= BLD_CAP`, `PLEN <= PAY_CAP`, `RPOS <= PLEN` (R54, R56, R57). -/
def State.BuffersFit (s : State) : Prop :=
  s.blen ≤ s.params.bldCap ∧ s.plen ≤ s.params.payCap ∧ s.rpos ≤ s.plen

/-- SCR has its canonical form and lies within SCR_SIZE (R62). -/
def State.ScrWf (s : State) : Prop := Memory.wf s.scr ∧ ∀ c ∈ s.scr, c.1 < s.params.scrSize

/-- ERR describes no error, or one of R337's table, whose cause ESTICKY then holds; ESTICKY holds causes only (R45 to
R47, R337). -/
def State.ErrorsRecorded (s : State) : Prop :=
  s.esticky &&& ~~~0x7E = 0 ∧
  ((s.err = 0 ∧ s.errinfo = 0) ∨ ∃ e : CmdError, s.err = e.errWord ∧ s.esticky &&& e.stickyBit = e.stickyBit)

/-- A closed block has met a TransportError (R44, R343). -/
def State.ClosedRecorded (s : State) : Prop := s.closed = true → s.esticky.getLsbD 1 = true

/-- A decoded frame has a total length of 1 to PAY_CAP, and in the plain format the data length 0 (R59, R257). -/
def State.FrameRecorded (s : State) : Prop :=
  s.fvalid = true →
    0 < s.ftlen.toInt ∧ s.ftlen.toInt ≤ s.params.payCap ∧ (s.fcomp = false → s.fdlen = 0)

/-- What a control point of FRAME.DEC says of the bytes taken so far (R67, `44_framer.md` R269). -/
def RxProgress.Wf (payCap : Nat) (p : RxProgress) : Prop :=
  match p.point with
  | .len i _ => i < 5 ∧ p.taken = i
  | .take tlen buf => buf.length < tlen ∧ tlen ≤ payCap ∧ buf.length + 1 ≤ p.taken ∧ p.taken ≤ buf.length + 5
  | .skip tlen j => j < tlen ∧ payCap < tlen ∧ tlen < 2 ^ 31 ∧ j + 1 ≤ p.taken ∧ p.taken ≤ j + 5

/-- A FRAME.DEC in flight is the command in execution, the block is open, and the latched threshold is THRESH, which
"cannot in fact change during a frame" (R67, R68). -/
def State.RxWf (s : State) : Prop :=
  ∀ p, s.rx = some p →
    s.busy = true ∧ s.cur = 0x00000051 ∧ s.closed = false ∧ s.tl = s.thresh ∧ p.Wf s.params.payCap

/-- After an I/O error of the TX transport no byte is in TXQ: those there were are lost, and FRAME.ENC adds none
(`20_memory.md` R98, `44_framer.md` R255). -/
def State.TxWf (s : State) : Prop := s.txerr = true → s.txq = []

/-- While the reset input is 1 the block is held in the reset state (`70_reset_and_hazards.md` R380). -/
def State.ResetHeld (s : State) : Prop :=
  s.rst = true →
    s = { State.resetWith s.params with
      rst := true
      resets := s.resets
      bus := s.bus
      wire := s.wire
      sched := s.sched }

/-- The invariant of the machine. -/
structure State.Inv (s : State) : Prop where
  /-- The parameters meet R6. -/
  params : s.params.Valid
  /-- See `State.RtWf`. -/
  rt : s.RtWf
  /-- See `State.BuffersFit`. -/
  buffers : s.BuffersFit
  /-- See `State.ScrWf`. -/
  scr : s.ScrWf
  /-- See `State.ErrorsRecorded`. -/
  errors : s.ErrorsRecorded
  /-- See `State.ClosedRecorded`. -/
  closed : s.ClosedRecorded
  /-- See `State.FrameRecorded`. -/
  frame : s.FrameRecorded
  /-- See `State.RxWf`. -/
  rx : s.RxWf
  /-- See `State.TxWf`. -/
  tx : s.TxWf
  /-- See `State.ResetHeld`. -/
  reset : s.ResetHeld

/-- No command has completed with an error since reset: the "no fault recorded" premise of `10_state.md` R47. -/
abbrev State.NoErrorSoFar (s : State) : Prop := s.esticky = 0

/-- The order of the phases: Handshake, then Status or Login, then Play (`10_state.md` R50). -/
def Phase.rank : Phase → Nat
  | .handshake => 0
  | .status => 1
  | .login => 1
  | .play => 2

/-- The states some run from the reset state of a valid block reaches, whatever moves its agents make. -/
inductive Reachable : State → Prop where
  /-- The reset state, with any moves to come. -/
  | reset (p : Params) (h : p.Valid) (l : List Move) : Reachable ((State.resetWith p).setSched l)
  /-- A step. -/
  | step {s t : State} (h : Reachable s) (hs : step s = .next t) : Reachable t

/-! ### Terms of the claims -/

/-- The engine moves next. -/
def State.EngineNext (s : State) : Prop := s.sched = [] ∨ ∃ l, s.sched = .engine :: l

/-- The next step is a step of the engine at a given command. -/
def State.Runs (s : State) (i : Instr) : Prop :=
  s.EngineNext ∧ s.rst = false ∧ s.busy = true ∧ decode s.cur = some i

/-- The next step is the reset input rising. -/
def State.ResetNext (s : State) : Prop := ∃ l, s.sched = .rst true :: l

/-- The next step is an I/O error that the TX transport declares. -/
def State.TxFailNext (s : State) : Prop := ∃ l, s.sched = .txFail :: l

/-- The number a byte sequence stands for, most significant byte first. -/
def natBE (b : Bytes) : Nat := b.foldl (fun acc c => 256 * acc + c.toNat) 0

/-- The number a byte sequence stands for, least significant byte first. -/
def natLE (b : Bytes) : Nat := b.foldr (fun c acc => c.toNat + 256 * acc) 0

/-- The `n` low bytes of a number, most significant byte first. -/
def bytesBE (n v : Nat) : Bytes := (List.range n).map fun k => BitVec.ofNat 8 (v / 256 ^ (n - 1 - k))

/-- The `n` low bytes of a number, least significant byte first. -/
def bytesLE (n v : Nat) : Bytes := (List.range n).map fun k => BitVec.ofNat 8 (v / 256 ^ k)

/-- The 64-bit pattern of an `n`-byte number, read as two's complement when `signed`. -/
def extended (n : Nat) (signed : Bool) (v : Nat) : W64 :=
  BitVec.ofInt 64 (if signed = true ∧ 2 ^ (8 * n - 1) ≤ v then (v : Int) - 2 ^ (8 * n) else v)

/-- The number the groups of a VarInt stand for, least significant group first. -/
def natGroups (b : Bytes) : Nat := b.foldr (fun c acc => c.toNat % 128 + 128 * acc) 0

/-- The number of a phase (`10_state.md` R50). -/
def Phase.number : Phase → Nat
  | .handshake => 0
  | .status => 1
  | .login => 2
  | .play => 3

/-- An RT entry is valid and is for a phase and an opcode, read off its two words (`10_state.md` R55). -/
def RtEntry.Matches (e : RtEntry) (p : Phase) (opc : W32) : Prop :=
  e.ctl.toNat % 2 = 1 ∧ e.ctl.toNat / 2 % 4 = p.number ∧ e.opc = opc

/-- The route number of an RT entry, read off its CTL word (`10_state.md` R55). -/
def RtEntry.routeNumber (e : RtEntry) : Nat := e.ctl.toNat / 256 % 256

/-- The character positions of the hyphens in the text of an identifier (`43_string_uuid_raw.md` R229). -/
def hyphenPositions : List Nat := [8, 13, 18, 23]

/-- Which of the 32 digits stands at a character position that is no hyphen's (R229). -/
def digitIndex (i : Nat) : Nat := i - (hyphenPositions.filter (· < i)).length

/-- The character at a position of the text of a 128-bit number (R229): the digits most significant first, lower
case. -/
def textChar (v i : Nat) : Byte :=
  if i ∈ hyphenPositions then 0x2D
  else
    let d := v / 16 ^ (31 - digitIndex i) % 16
    BitVec.ofNat 8 (if d < 10 then 0x30 + d else 0x61 + (d - 10))

/-- The value of a hexadecimal character in either case, if it is one (R231). -/
def charDigit (c : Nat) : Option Nat :=
  if 0x30 ≤ c ∧ c ≤ 0x39 then some (c - 0x30)
  else if 0x61 ≤ c ∧ c ≤ 0x66 then some (c - 0x61 + 10)
  else if 0x41 ≤ c ∧ c ≤ 0x46 then some (c - 0x41 + 10)
  else none

/-- A character may stand at a position of the text of an identifier (R231). -/
def CharOk (i : Nat) (c : Byte) : Prop := if i ∈ hyphenPositions then c = 0x2D else (charDigit c.toNat).isSome

/-- The number that the digits of a text from position `i` on stand for, behind an accumulator. -/
def textNumber (text : Nat → Byte) : Nat → Nat → Nat → Nat
  | 0, _, acc => acc
  | n + 1, i, acc =>
    textNumber text n (i + 1)
      (if i ∈ hyphenPositions then acc else 16 * acc + (charDigit (text i).toNat).getD 0)

end Sys2Proof.Machine

namespace Sys2Proof

/-- The general registers a command writes (`10_state.md` R30: every DEC command and LDI; a pair is `ra` and the next
register, R31, also for UUID.PARSE; DEC.RAW names a source and writes none, `43_string_uuid_raw.md` R225). -/
def Instr.destinations (i : Instr) : List Reg :=
  match i with
  | .ldi ra _ | .decVarint ra | .decByte ra | .decUbyte ra | .decShort ra | .decUshort ra | .decInt ra | .decLong ra
  | .decBool ra | .decFloat ra | .decDouble ra | .decString ra _ => [ra]
  | .decUuid ra | .uuidParse ra _ => [ra, ra + 1]
  | .nop | .connReset | .phaseSet .. | .threshSet .. | .dispatch | .bldClr | .paySeek .. | .payLoad | .encVarint ..
  | .encByte .. | .encUbyte .. | .encShort .. | .encUshort .. | .encInt .. | .encLong .. | .encBool .. | .encFloat ..
  | .encDouble .. | .encString .. | .encUuid .. | .encRaw .. | .decRaw .. | .uuidFmt .. | .frameEnc ..
  | .frameDec => []

/-- The ENC commands, those that perform `BldAppend` (`40_varint.md` R168). -/
def Instr.isEnc (i : Instr) : Bool :=
  match i with
  | .encVarint .. | .encByte .. | .encUbyte .. | .encShort .. | .encUshort .. | .encInt .. | .encLong .. | .encBool ..
  | .encFloat .. | .encDouble .. | .encString .. | .encUuid .. | .encRaw .. => true
  | .nop | .ldi .. | .connReset | .phaseSet .. | .threshSet .. | .dispatch | .bldClr | .paySeek .. | .payLoad
  | .decVarint .. | .decByte .. | .decUbyte .. | .decShort .. | .decUshort .. | .decInt .. | .decLong .. | .decBool ..
  | .decFloat .. | .decDouble .. | .decString .. | .decUuid .. | .decRaw .. | .uuidFmt .. | .uuidParse ..
  | .frameEnc .. | .frameDec => false

/-- The DEC commands, those that read PAY at RPOS (`40_varint.md` R169). -/
def Instr.isDec (i : Instr) : Bool :=
  match i with
  | .decVarint .. | .decByte .. | .decUbyte .. | .decShort .. | .decUshort .. | .decInt .. | .decLong .. | .decBool ..
  | .decFloat .. | .decDouble .. | .decString .. | .decUuid .. | .decRaw .. => true
  | .nop | .ldi .. | .connReset | .phaseSet .. | .threshSet .. | .dispatch | .bldClr | .paySeek .. | .payLoad
  | .encVarint .. | .encByte .. | .encUbyte .. | .encShort .. | .encUshort .. | .encInt .. | .encLong .. | .encBool ..
  | .encFloat .. | .encDouble .. | .encString .. | .encUuid .. | .encRaw .. | .uuidFmt .. | .uuidParse ..
  | .frameEnc .. | .frameDec => false

end Sys2Proof
end

