-- ==== Sys2Proof/Certificates/Slice0/Obligations.lean ====
section
/-! DEFINITION. The statements about GMP-CODEC, from the numbered rules of the spec. A statement about a command gives
the whole next state by equations, so its frame is everything the equation leaves as it was. -/

open Sys2Proof Sys2Proof.Machine

/-! ### Encoding -/

/-- Decoding the word of a well-formed command gives the command back (`30_encoding.md` sections 2 and 3). -/
def Obligations.DecodeInvertsEncode : Prop :=
  ∀ i : Instr, i.WellFormed → decode (encode i) = some i

/-- A word that decodes, decodes to a well-formed command whose word it is (`30_encoding.md` sections 2 and 3): no bit
of a word is dropped. -/
def Obligations.EncodeInvertsDecode : Prop :=
  ∀ (w : W32) (i : Instr), decode w = some i → i.WellFormed ∧ encode i = w

/-- The decoder agrees with the table of matches and masks (`30_encoding.md` sections 2 and 3): a word that decodes
lies in the row with its command's mnemonic, and a word that does not lies in no row. -/
def Obligations.DecodeFollowsTheMasks : Prop :=
  ∀ w : W32,
    (∀ i, decode w = some i → ∃ r ∈ opcodeRows, r.mnemonic = i.mnemonic ∧ w &&& r.mask = r.matchWord) ∧
    (decode w = none → ∀ r ∈ opcodeRows, w &&& r.mask ≠ r.matchWord)

/-- Words the spec writes out decode to the commands it says (`30_encoding.md` section 3, `95_test_vectors.md`
sections 2.9 and 3), a sanity statement. -/
def Obligations.WordsOfTheSpecDecode : Prop :=
  decode 0x00000110 = some (.encVarint 1) ∧ decode 0x00002140 = some (.encString 1 2) ∧
  decode 0xFFFF0301 = some (.ldi 3 0xFFFF) ∧ decode 0x00020003 = some (.phaseSet 2) ∧
  decode 0x00000443 = some (.decUuid 4) ∧ decode 0x00000051 = some .frameDec ∧
  decode 0x00002647 = some (.uuidParse 6 2) ∧ decode 0x00000142 = none ∧ decode 0x00008140 = none

/-! ### Steps -/

/-- When the engine moves next, runs and its word decodes, the step is the meaning of the command, with the move taken
off the schedule if it stood there; an engine that runs nothing waits. The schedule is the model's (assumption 5). -/
def Obligations.StepRunsTheDecodedCommand : Prop :=
  (∀ (s : State) (i : Instr), s.rst = false → s.busy = true → decode s.cur = some i →
    (s.sched = [] → step s = exec i s) ∧
    ∀ l, s.sched = .engine :: l → step s = exec i { s with sched := l }) ∧
  ∀ s : State, s.busy = false → s.sched = [] → step s = .next s

/-- R137: a word that matches no row of the table completes with IllegalCommand(ReservedEncoding), ERRINFO = CUR, and
changes nothing else, whether or not the block is closed; a word that matches a row runs its command. -/
def Obligations.IllegalWordsCompleteAsReserved : Prop :=
  ∀ s : State, s.sched = [] → s.rst = false → s.busy = true →
    ((∀ r ∈ opcodeRows, s.cur &&& r.mask ≠ r.matchWord) →
      step s = .next { s with
        err := 0x00000106
        errinfo := s.cur
        esticky := s.esticky ||| 0x40
        ip := s.ip ||| 3
        cmdcnt := s.cmdcnt + 1
        busy := false
        rx := none }) ∧
    ((∃ r ∈ opcodeRows, s.cur &&& r.mask = r.matchWord) → ∃ i, decode s.cur = some i ∧ step s = exec i s)

/-! ### Reset and invariant -/

/-- The reset state of every valid configuration meets the invariant, and so does the reset state of this model, which
is that of the reference configuration (assumption 1). -/
def Obligations.ResetMeetsTheInvariant : Prop :=
  (∀ p : Params, p.Valid → (State.resetWith p).Inv) ∧ State.reset.Inv

/-- Every step, of whatever agent, keeps the invariant: the sizes and masks of the buffers and tables, SCR's canonical
form, the error record, that a FRAME.DEC in flight stands at a proper control point with THRESH still latched, and that
TXQ is empty after an I/O error of the TX transport (assumption 22). -/
def Obligations.StepKeepsTheInvariant : Prop :=
  ∀ s t : State, s.Inv → step s = .next t → t.Inv

/-- R380: what the reset input does: rising, it gives every state its reset value, abandons the command in execution
and empties TXQ; while it is 1 no move of another agent changes the block; and the state right after reset has the
same values with the input at 0. CUR and TL are "without meaning", SCR is unspecified, and nothing is said of them. -/
def Obligations.ResetGivesTheResetState : Prop :=
  (∀ (s t : State) (l : List Move), (s.sched = .rst true :: l ∧ step s = .next t) ∨ t = State.reset →
    t.x = Vector.replicate 8 0 ∧ t.busy = false ∧ t.closed = false ∧ t.fvalid = false ∧ t.fcomp = false ∧
    t.ovr = false ∧ t.held = false ∧ t.err = 0 ∧ t.errinfo = 0 ∧ t.esticky = 0 ∧ t.ie = 0 ∧ t.ip = 0 ∧
    t.irq = false ∧ t.cmdcnt = 0 ∧ t.phase = .handshake ∧ t.thresh = 0xFFFFFFFF ∧ t.opc = 0 ∧ t.route = 0 ∧
    t.bld = [] ∧ t.pay = [] ∧ t.rpos = 0 ∧ t.lastn = 0 ∧ t.ftlen = 0 ∧ t.fdlen = 0 ∧ t.rxend = false ∧
    t.rxerr = false ∧ t.txerr = false ∧ t.rxq = [] ∧ t.txq = [] ∧ t.rx = none ∧
    t.rt = [⟨0x03, 0x105⟩, ⟨0x02, 0x205⟩, ⟨0x23, 0x307⟩, ⟨0x57, 0x407⟩, ⟨0x38, 0x507⟩] ++
      List.replicate (t.params.rtN - 5) ⟨0, 0⟩ ∧
    t.busWord 0x0040 = 0x474D5001) ∧
  (∀ (s t : State) (l : List Move), s.sched = .rst true :: l → step s = .next t →
    t.rst = true ∧ t.params = s.params ∧ t.sched = l) ∧
  (∀ (s t : State) (m : Move) (l : List Move), s.rst = true → s.sched = m :: l → (∀ b, m ≠ .rst b) →
    step s = .next t → t = { s with sched := l, bus := t.bus }) ∧
  (∀ (s : State) (l : List Move), s.sched = .rst false :: l → step s = .next { s with rst := false, sched := l }) ∧
  State.reset.rst = false

/-! ### Completion and errors -/

/-- Every completion of a running command records itself (`60_exceptions.md` section 3): CMDCNT advances by one modulo
2^32; without error ERR and ERRINFO are 0, IP.DONE is set and IP.ERR left, ESTICKY left; with an error ERR is its code,
its cause's bit is added to ESTICKY, both IP bits are set, and CLOSED is set exactly for cause 1. -/
def Obligations.CompletionRecordsTheOutcome : Prop :=
  ∀ (i : Instr) (s t : State), s.busy = true → exec i s = .next t → t.busy = false →
    t.cmdcnt.toNat = (s.cmdcnt.toNat + 1) % 2 ^ 32 ∧ t.rx = none ∧
    ((t.err = 0 ∧ t.errinfo = 0 ∧ t.ip.getLsbD 0 = true ∧ t.ip.getLsbD 1 = s.ip.getLsbD 1 ∧
        t.esticky = s.esticky ∧ t.closed = (s.closed && i != .connReset)) ∨
      ∃ e : CmdError, t.err.toNat = e.cause.code + 256 * e.sub ∧
        (∀ c < 32, t.esticky.getLsbD c = (s.esticky.getLsbD c || c == e.cause.code)) ∧ t.ip = 3 ∧
        t.closed = (s.closed || e.cause.code == 1))

/-- R342: errors are precise. A command that completes with an error has changed nothing but the recording registers,
DISPATCH apart from them only ROUTE, and FRAME.DEC only FVALID, PLEN, RPOS, FTLEN, FDLEN, its own latched threshold,
and the bytes taken from the head of RXQ. -/
def Obligations.ErrorsArePrecise : Prop :=
  ∀ (i : Instr) (s t : State), s.busy = true → exec i s = .next t → t.busy = false → t.err ≠ 0 →
    ∃ e : Raise,
      (i ≠ .frameDec ∧ t = s.completeErr e) ∨
      (i = .dispatch ∧ t = ({ s with route := 0 } : State).completeErr e) ∨
      (i = .frameDec ∧ s.rx = none ∧ s.closed = true ∧ t = s.completeErr e) ∨
      (i = .frameDec ∧ ∃ ftlen fdlen tl k, t = ({ s with
        fvalid := false
        pay := []
        rpos := 0
        ftlen := ftlen
        fdlen := fdlen
        tl := tl
        rxq := s.rxq.drop k } : State).completeErr e)

/-- The ERR words of the causes and sub-causes (`60_exceptions.md` section 1). -/
def Obligations.ErrorWordsFollowTheTable : Prop :=
  [CmdError.rxEnd, .rxIoError, .txIoError, .closed, .stopped, .varIntTooLarge, .lengthNonPositive, .lengthMismatch,
    .unknownOpcode, .badBoolean, .negativeLength, .insufficientBytes, .inflateFailed, .bldFull, .frameTooLarge,
    .scrBounds, .dataTooLarge, .reservedEncoding, .badOperand, .illegalTransition, .noFrame, .badSeek,
    .badUuidText].map (fun e => e.errWord) =
  [0x0101, 0x0201, 0x0301, 0x0401, 0x0501, 0x0102, 0x0202, 0x0302, 0x0402, 0x0502, 0x0602, 0x0103, 0x0104, 0x0105,
    0x0205, 0x0305, 0x0405, 0x0106, 0x0206, 0x0306, 0x0406, 0x0506, 0x0606]

/-- While the block is closed every command except NOP and CONN.RESET completes at once with TransportError(Closed)
and has no other effect (`60_exceptions.md` section 3). A FRAME.DEC meets the check before its first step only. That the
flags and registers which an error of the command itself would clear stay too is the model's reading (assumption 11). -/
def Obligations.ClosedBlockTurnsCommandsAway : Prop :=
  ∀ (i : Instr) (s : State), s.closed = true → i ≠ .nop → i ≠ .connReset → (i = .frameDec → s.rx = none) →
    exec i s = .next { s with
      err := 0x00000401
      errinfo := 0
      esticky := s.esticky ||| 2
      ip := s.ip ||| 3
      cmdcnt := s.cmdcnt + 1
      busy := false
      rx := none }

/-- Only CONN.RESET and hardware reset clear CLOSED, and only a TransportError or nothing sets it: a step that sets it
leaves cause 1 in ERR (`60_exceptions.md` section 3). -/
def Obligations.ClosedChangesOnlyAsSaid : Prop :=
  ∀ s t : State, step s = .next t →
    (s.closed = true → t.closed = false → s.ResetNext ∨ s.Runs .connReset) ∧
    (s.closed = false → t.closed = true → t.err.toNat % 16 = 1)

/-! ### What commands may change -/

/-- No command writes RT, IE, OVR, CUR, the reset input, or the fields that are the model's own (`10_state.md`
sections 3 and 5). -/
def Obligations.CommandsKeepWhatTheHostSets : Prop :=
  ∀ (i : Instr) (s t : State), exec i s = .next t →
    t.rt = s.rt ∧ t.ie = s.ie ∧ t.ovr = s.ovr ∧ t.cur = s.cur ∧ t.rst = s.rst ∧ t.params = s.params ∧
    t.resets = s.resets ∧ t.bus = s.bus ∧ t.wire = s.wire ∧ t.sched = s.sched

/-- Each register, buffer, queue and flag that not every completion writes is written only by the commands its rule
names: the general registers (each command its own destinations), PHASE, THRESH, OPC, ROUTE, PAY, RXQ, TXQ, SCR, BLD
(an ENC command only appends), RPOS, LASTN, FTLEN, FDLEN, FCOMP, FVALID, STREAM, TL and the progress of a FRAME.DEC
(`10_state.md` sections 1 and 3 to 5; `40_varint.md` section 4). What every completion writes, and what no command does,
other statements say. -/
def Obligations.OnlyNamedCommandsWrite : Prop :=
  ∀ (i : Instr) (s t : State), exec i s = .next t →
    (∀ r : Reg, t.x[r] ≠ s.x[r] → r ∈ i.destinations) ∧
    (t.phase ≠ s.phase → i = .dispatch ∨ i = .connReset ∨ ∃ imm, i = .phaseSet imm) ∧
    (t.thresh ≠ s.thresh → i = .dispatch ∨ i = .connReset ∨ ∃ ra, i = .threshSet ra) ∧
    (t.opc ≠ s.opc → i = .frameDec) ∧
    (t.route ≠ s.route → i = .dispatch ∨ i = .connReset) ∧
    (t.pay ≠ s.pay → i = .frameDec ∨ i = .connReset ∨ i = .payLoad) ∧
    (t.rxq ≠ s.rxq → i = .frameDec ∨ i = .connReset) ∧
    (t.txq ≠ s.txq → i = .connReset ∨ ∃ ra, i = .frameEnc ra) ∧
    (t.scr ≠ s.scr → (∃ ra rb, i = .decString ra rb) ∨ (∃ ra rb, i = .decRaw ra rb) ∨ ∃ ra rb, i = .uuidFmt ra rb) ∧
    (t.bld ≠ s.bld → i = .connReset ∨ i = .bldClr ∨ (∃ ra, i = .frameEnc ra) ∨
      i.isEnc = true ∧ ∃ b, t.bld = s.bld ++ b) ∧
    (t.rpos ≠ s.rpos → i = .frameDec ∨ i = .connReset ∨ i = .payLoad ∨ (∃ ra, i = .paySeek ra) ∨ i.isDec = true) ∧
    (t.lastn ≠ s.lastn → i = .connReset ∨ (∃ ra, i = .frameEnc ra) ∨ i.isEnc = true ∨ i.isDec = true) ∧
    (t.ftlen ≠ s.ftlen ∨ t.fdlen ≠ s.fdlen → i = .frameDec ∨ i = .connReset) ∧
    (t.tl ≠ s.tl → i = .frameDec ∨ ∃ ra, i = .frameEnc ra) ∧
    (t.rx ≠ none → i = .frameDec) ∧
    (t.fcomp ≠ s.fcomp → i = .frameDec ∨ i = .connReset) ∧
    (t.fvalid ≠ s.fvalid → i = .frameDec ∨ i = .connReset ∨ i = .payLoad) ∧
    ((t.rxend ≠ s.rxend ∨ t.rxerr ≠ s.rxerr ∨ t.txerr ≠ s.txerr) → i = .connReset)

/-- The phase only moves forward, Handshake to Status or Login to Play, but for CONN.RESET and hardware reset; it
becomes Play only from Login, by DISPATCH (`10_state.md` section 3). -/
def Obligations.PhaseMovesForward : Prop :=
  ∀ s t : State, step s = .next t → ¬ s.ResetNext → ¬ s.Runs .connReset →
    (t.phase = s.phase ∨ s.phase.rank < t.phase.rank) ∧
    (t.phase = .play → s.phase ≠ .play → s.phase = .login ∧ s.Runs .dispatch)

/-- R47: an ESTICKY bit, once set, is cleared by hardware reset alone, and every command that completes with a cause
sets that cause's bit; bit 0 and bits 31:7 stay 0. -/
def Obligations.StickyErrorsStay : Prop :=
  (∀ s t : State, step s = .next t → ¬ s.ResetNext → ∀ c, s.esticky.getLsbD c = true → t.esticky.getLsbD c = true) ∧
  (∀ (s : State) (e : Raise), (s.completeErr e).esticky.getLsbD e.error.cause.code = true) ∧
  (∀ s t : State, step s = .next t → s.esticky &&& ~~~0x7E = 0 → t.esticky &&& ~~~0x7E = 0) ∧
  State.reset.esticky = 0

/-! ### The register bus -/

/-- A CMD write: idle, the word becomes CUR and BUSY becomes 1, and the engine's next step runs it; busy, it is
discarded and sets OVR; a read of CMD gives 0 (R42). What the bus answers a write is left out of the statement. -/
def Obligations.CmdWriteIssuesACommand : Prop :=
  ∀ (s : State) (w : W32) (l : List Move), s.rst = false → s.sched = .busWrite .word 0x0044 w :: l →
    (s.busy = false → ∃ t, step s = .next t ∧ t = { s with
      cur := w
      busy := true
      rx := none
      bus := t.bus
      sched := l }) ∧
    (s.busy = true → ∃ t, step s = .next t ∧ t = { s with
      ovr := true
      bus := t.bus
      sched := l }) ∧
    (∀ (t : State) (i : Instr), s.busy = false → l = [] → decode w = some i → step s = .next t → step t = exec i t) ∧
    s.busWord 0x0044 = 0

/-- A general register is two words on the bus, the low one at `8i` and the high one at `8i + 4`; a write of one leaves
the other (`20_memory.md` section 1). What the bus answers a write is left out of the statement. -/
def Obligations.BusMovesRegisterWords : Prop :=
  ∀ (s : State) (r : Reg) (v : W32) (l : List Move),
    (s.sched = .busRead .word (BitVec.ofNat 16 (8 * r.val)) :: l →
      step s = .next { s with bus := ⟨BitVec.ofNat 32 s.x[r].toNat, false⟩, sched := l }) ∧
    (s.sched = .busRead .word (BitVec.ofNat 16 (8 * r.val + 4)) :: l →
      step s = .next { s with bus := ⟨BitVec.ofNat 32 (s.x[r].toNat / 2 ^ 32), false⟩, sched := l }) ∧
    (s.rst = false → s.busy = false → s.sched = .busWrite .word (BitVec.ofNat 16 (8 * r.val)) v :: l →
      ∃ t, step s = .next t ∧ t = { s with
        x := s.x.set r.val (BitVec.ofNat 64 (s.x[r].toNat / 2 ^ 32 * 2 ^ 32 + v.toNat)) r.isLt
        bus := t.bus
        sched := l }) ∧
    (s.rst = false → s.busy = false → s.sched = .busWrite .word (BitVec.ofNat 16 (8 * r.val + 4)) v :: l →
      ∃ t, step s = .next t ∧ t = { s with
        x := s.x.set r.val (BitVec.ofNat 64 (v.toNat * 2 ^ 32 + s.x[r].toNat % 2 ^ 32)) r.isLt
        bus := t.bus
        sched := l })

/-- R94: the SCR window reads and writes SCR, four bytes per access, the byte at the lowest offset in bits 7:0; a read
has no side effect, and a write changes those four bytes and no other. -/
def Obligations.BusWindowMovesScrBytes : Prop :=
  ∀ (s : State) (a : Nat) (v : W32) (l : List Move), s.params.Valid → a % 4 = 0 → a + 4 ≤ s.params.scrSize →
    (s.sched = .busRead .word (BitVec.ofNat 16 (0x1000 + a)) :: l →
      step s = .next { s with
        bus := ⟨BitVec.ofNat 32 (natLE [s.scrByte a, s.scrByte (a + 1), s.scrByte (a + 2), s.scrByte (a + 3)]), false⟩
        sched := l }) ∧
    (s.rst = false → s.busy = false → s.sched = .busWrite .word (BitVec.ofNat 16 (0x1000 + a)) v :: l →
      ∃ t : State, step s = .next t ∧ t = { s with scr := t.scr, bus := t.bus, sched := l } ∧
        ∀ c, t.scrByte c =
          if a ≤ c ∧ c < a + 4 then BitVec.ofNat 8 (v.toNat / 256 ^ (c - a)) else s.scrByte c)

/-- The routing table on the bus: two words an entry, read and written; the unnamed bits of CTL stay 0
(`10_state.md` section 3). What the bus answers a write is left out of the statement. -/
def Obligations.BusMovesRoutingEntries : Prop :=
  ∀ (s : State) (k : Nat) (v : W32) (l : List Move) (h : k < s.rt.length), s.rt.length = s.params.rtN →
    s.params.rtN ≤ 32 →
    (s.sched = .busRead .word (BitVec.ofNat 16 (0x0100 + 8 * k)) :: l →
      step s = .next { s with bus := ⟨s.rt[k].opc, false⟩, sched := l }) ∧
    (s.sched = .busRead .word (BitVec.ofNat 16 (0x0104 + 8 * k)) :: l →
      step s = .next { s with bus := ⟨s.rt[k].ctl, false⟩, sched := l }) ∧
    (s.rst = false → s.busy = false → s.sched = .busWrite .word (BitVec.ofNat 16 (0x0100 + 8 * k)) v :: l →
      ∃ t, step s = .next t ∧ t = { s with rt := s.rt.set k ⟨v, s.rt[k].ctl⟩, bus := t.bus, sched := l }) ∧
    (s.rst = false → s.busy = false → s.sched = .busWrite .word (BitVec.ofNat 16 (0x0104 + 8 * k)) v :: l →
      ∃ t, step s = .next t ∧
        t = { s with rt := s.rt.set k ⟨s.rt[k].opc, v &&& 0x0000FF07⟩, bus := t.bus, sched := l })

/-- While BUSY = 1 a write to a general register, to CMD, to RT or to the SCR window is discarded and sets OVR; writes
to IE and IP are accepted (`20_memory.md` section 1). CTRL is the subject of the stop request. What the bus
answers a write is left out of the statement. -/
def Obligations.WritesWhileBusyAreDiscarded : Prop :=
  ∀ (s : State) (a : Nat) (v : W32) (l : List Move), s.params.Valid → s.rst = false → s.busy = true → a % 4 = 0 →
    s.sched = .busWrite .word (BitVec.ofNat 16 a) v :: l →
    (a < 0x0040 ∨ a = 0x0044 ∨ (0x0100 ≤ a ∧ a < 0x0100 + 8 * s.params.rtN) ∨
        (0x1000 ≤ a ∧ a < 0x1000 + s.params.scrSize) →
      ∃ t, step s = .next t ∧ t = { s with ovr := true, bus := t.bus, sched := l }) ∧
    (a = 0x005C →
      ∃ t, step s = .next t ∧ t = { s with ie := BitVec.ofNat 2 v.toNat, bus := t.bus, sched := l }) ∧
    (a = 0x0060 →
      ∃ t, step s = .next t ∧ t = { s with ip := s.ip &&& ~~~(BitVec.ofNat 2 v.toNat), bus := t.bus, sched := l })

/-- R93: reserved bus addresses read as 0 and ignore writes; they raise nothing. -/
def Obligations.ReservedAddressesAreInert : Prop :=
  ∀ (s : State) (a : Nat) (v : W32) (l : List Move), s.params.Valid → a % 4 = 0 →
    ((0x0094 ≤ a ∧ a < 0x0100) ∨ (0x0100 + 8 * s.params.rtN ≤ a ∧ a < 0x1000) ∨
      (0x1000 + s.params.scrSize ≤ a ∧ a < 0x10000)) →
    (s.sched = .busRead .word (BitVec.ofNat 16 a) :: l →
      step s = .next { s with bus := ⟨0, false⟩, sched := l }) ∧
    (s.rst = false → s.sched = .busWrite .word (BitVec.ofNat 16 a) v :: l →
      ∃ t, step s = .next t ∧ t = { s with bus := t.bus, sched := l } ∧ t.bus.error = false)

/-- R102: a bus access that is not 32 bits wide at a multiple of 4 is answered with a bus error, reads as 0 and changes
no state of the block. -/
def Obligations.ImproperAccessesAreErrors : Prop :=
  ∀ (s : State) (width : BusWidth) (a : BitVec 16) (v : W32) (l : List Move), width ≠ .word ∨ a.toNat % 4 ≠ 0 →
    (s.sched = .busRead width a :: l → step s = .next { s with bus := ⟨0, true⟩, sched := l }) ∧
    (s.rst = false → s.sched = .busWrite width a v :: l →
      ∃ t, step s = .next t ∧ t = { s with bus := t.bus, sched := l } ∧ t.bus.error = true)

/-- What the control and status registers read as, that a word read has no side effect, and that a write to a read-only
register is ignored (`10_state.md` section 3, `20_memory.md` section 5). STATUS and STREAM are given bit by bit. That
HELD can be 1 before the first engine step of a FRAME.DEC (assumption 12), and that BLEN, PLEN and RPOS are natural
numbers read through their low 32 bits (assumption 17), is the model's reading; what the bus answers a write is left
out. -/
def Obligations.ControlRegistersReadAsTheMapSays : Prop :=
  (∀ s : State,
    (∀ n < 32, (s.busWord 0x004C).getLsbD n =
      [s.busy, s.closed, s.fvalid, s.fcomp, s.ovr, s.held].getD n false) ∧
    (s.held = true ↔ s.busy = true ∧ s.cur = 0x00000051 ∧ (s.rx ≠ none ∨ s.closed = false) ∧ s.rxq = [] ∧
      s.rxend = false ∧ s.rxerr = false) ∧
    (∀ n < 32, (s.busWord 0x0090).getLsbD n = [s.rxend, s.rxerr, s.txerr].getD n false) ∧
    [0x0040, 0x0044, 0x0048, 0x0050, 0x0054, 0x0058, 0x0064, 0x006C, 0x0070, 0x0084, 0x0088, 0x008C].map s.busWord =
      [0x474D5001, 0, 0, s.err, s.errinfo, s.esticky, s.cmdcnt, s.thresh, s.opc, s.lastn, s.ftlen, s.fdlen] ∧
    [0x005C, 0x0060, 0x0068, 0x0074, 0x0078, 0x007C, 0x0080].map (fun a => (s.busWord a).toNat) =
      [s.ie.toNat, s.ip.toNat, s.phase.number, s.route.toNat, s.bld.length % 2 ^ 32, s.pay.length % 2 ^ 32,
        s.rpos % 2 ^ 32]) ∧
  (∀ (s : State) (a : BitVec 16) (l : List Move), a.toNat % 4 = 0 → s.sched = .busRead .word a :: l →
    step s = .next { s with bus := ⟨s.busWord a.toNat, false⟩, sched := l }) ∧
  ∀ (s : State) (v : W32) (l : List Move), s.rst = false →
    ∀ a ∈ [0x0040, 0x004C, 0x0050, 0x0054, 0x0058, 0x0064, 0x0068, 0x006C, 0x0070, 0x0074, 0x0078, 0x007C, 0x0080,
      0x0084, 0x0088, 0x008C, 0x0090], s.sched = .busWrite .word (BitVec.ofNat 16 a) v :: l →
      ∃ t, step s = .next t ∧ t = { s with bus := t.bus, sched := l }

/-- The interrupt line is 1 exactly when an enabled bit is pending; a write to IE sets its two bits and a write to IP
clears exactly the bits written as 1 (`60_exceptions.md` section 4, `10_state.md` section 3). What the bus answers a
write is left out of the statement. -/
def Obligations.InterruptLineFollowsIpAndIe : Prop :=
  (∀ s : State, s.irq = true ↔ ∃ n < 2, s.ip.getLsbD n = true ∧ s.ie.getLsbD n = true) ∧
  ∀ (s : State) (v : W32) (l : List Move), s.rst = false →
    (s.sched = .busWrite .word 0x005C v :: l → ∃ t : State, step s = .next t ∧
      t = { s with ie := t.ie, bus := t.bus, sched := l } ∧ ∀ n < 2, t.ie.getLsbD n = v.getLsbD n) ∧
    (s.sched = .busWrite .word 0x0060 v :: l → ∃ t : State, step s = .next t ∧
      t = { s with ip := t.ip, bus := t.bus, sched := l } ∧
      ∀ n < 2, t.ip.getLsbD n = (s.ip.getLsbD n && !v.getLsbD n))

/-- Writing 1 to CTRL.STOP while HELD = 1 completes the held FRAME.DEC with TransportError(Stopped), ERRINFO the bytes
taken so far, and closes the block; at any other time it has no effect and is not remembered (`60_exceptions.md`
section 4). That HELD can be 1 before the first engine step of a FRAME.DEC is the model's reading (assumption 12). What
the bus answers a write is left out of the statement. -/
def Obligations.StopEndsAHeldReceive : Prop :=
  ∀ (s : State) (v : W32) (l : List Move), s.rst = false → s.sched = .busWrite .word 0x0048 v :: l →
    (v.getLsbD 0 = true → s.held = true → ∃ t, step s = .next t ∧ t = { s with
      fvalid := false
      pay := []
      rpos := 0
      ftlen := match s.rx with
        | some ⟨_, .take tlen _⟩ => BitVec.ofNat 32 tlen
        | some ⟨_, .skip tlen _⟩ => BitVec.ofNat 32 tlen
        | _ => 0
      fdlen := 0
      closed := true
      err := 0x00000501
      errinfo := match s.rx with
        | some p => BitVec.ofNat 32 p.taken
        | none => 0
      esticky := s.esticky ||| 2
      ip := s.ip ||| 3
      cmdcnt := s.cmdcnt + 1
      busy := false
      rx := none
      bus := t.bus
      sched := l }) ∧
    (v.getLsbD 0 = false ∨ s.held = false → ∃ t, step s = .next t ∧ t = { s with bus := t.bus, sched := l })

/-! ### The transports -/

/-- The moves of the transports (`20_memory.md` section 2): bytes enter RXQ at its tail until an end or an error is
declared, and leave TXQ at its head for the wire until an error is declared, when the bytes still there are lost
(assumption 22). A move that is not enabled does nothing (assumption 6). -/
def Obligations.TransportMovesDoAsSaid : Prop :=
  ∀ (s : State) (b : Byte) (l : List Move), s.rst = false →
    (s.sched = .rxPush b :: l → s.rxend = false → s.rxerr = false →
      step s = .next { s with rxq := s.rxq ++ [b], sched := l }) ∧
    (s.sched = .rxPush b :: l → s.rxend = true ∨ s.rxerr = true → step s = .next { s with sched := l }) ∧
    (s.sched = .rxEnd :: l → step s = .next { s with rxend := true, sched := l }) ∧
    (s.sched = .rxFail :: l → step s = .next { s with rxerr := true, sched := l }) ∧
    (∀ q, s.sched = .txPop :: l → s.txq = b :: q →
      step s = .next { s with txq := q, wire := s.wire ++ [b], sched := l }) ∧
    (s.sched = .txPop :: l → s.txq = [] → step s = .next { s with sched := l }) ∧
    (s.sched = .txFail :: l → s.txerr = false → step s = .next { s with txerr := true, txq := [], sched := l }) ∧
    (s.sched = .txFail :: l → s.txerr = true → step s = .next { s with sched := l })

/-- Two frames never interleave on the wire: in every step the bytes on the wire followed by the bytes in TXQ stay
as they are, or grow by one whole frame that FRAME.ENC emits, or lose what TXQ still held (CONN.RESET, hardware reset,
and an I/O error that the TX transport declares) (`20_memory.md` sections 2 and 6; assumption 22). -/
def Obligations.WireCarriesWholeFrames : Prop :=
  ∀ s t : State, step s = .next t →
    t.wire ++ t.txq = s.wire ++ s.txq ∨
    (∃ ra f, s.Runs (.frameEnc ra) ∧ s.closed = false ∧
      frameBytes Config.zip s.thresh (BitVec.ofNat 32 s.x[ra].toNat) s.bld = .ok f ∧
      t.wire = s.wire ∧ t.txq = s.txq ++ f) ∨
    ((s.ResetNext ∨ s.Runs .connReset ∨ s.TxFailNext) ∧ t.wire = s.wire ∧ t.txq = [])

/-- The block depends on the sequence of received bytes only, not on when they arrive (`20_memory.md` section 2,
`44_framer.md` section 3): as long as a byte is waiting, an engine step and an arrival may change places, but for
CONN.RESET, which empties RXQ. -/
def Obligations.ArrivalCommutesWithTheEngine : Prop :=
  ∀ (s : State) (b : Byte), s.rst = false → s.rxq ≠ [] → s.rxend = false → s.rxerr = false →
    decode s.cur ≠ some .connReset →
    Host.Core.run Sys2Proof.core 2 { s with sched := [.engine, .rxPush b] } =
      Host.Core.run Sys2Proof.core 2 { s with sched := [.rxPush b, .engine] }

/-! ### System commands -/

/-- R296: NOP completes without error, also when the block is closed, and changes nothing but what every completion
without error writes. Its word is zero. -/
def Obligations.NopOnlyCompletes : Prop :=
  encode .nop = 0x00000000 ∧
  ∀ s : State, exec .nop s = .next { s with
    err := 0
    errinfo := 0
    ip := s.ip ||| 1
    cmdcnt := s.cmdcnt + 1
    busy := false
    rx := none }

/-- R298: LDI writes its immediate, read as a signed 16-bit number, to its register. -/
def Obligations.LdiLoadsASignedImmediate : Prop :=
  ∀ (ra : Reg) (imm : BitVec 16) (s : State), s.closed = false →
    encode (.ldi ra imm) = BitVec.ofNat 32 (0x01 + 256 * ra.val + 65536 * imm.toNat) ∧
    exec (.ldi ra imm) s = .next ({ s with
      x := s.x.set ra.val
        (BitVec.ofInt 64 (if imm.toNat < 32768 then (imm.toNat : Int) else imm.toNat - 65536)) ra.isLt } :
        State).completeOk

/-- R297: CONN.RESET starts a new connection, also when the block is closed: the connection state takes its initial
values, RXQ and TXQ are emptied, and OPC, the general registers, SCR, RT, IE, ESTICKY and OVR stay. -/
def Obligations.ConnResetStartsANewConnection : Prop :=
  encode .connReset = 0x00000002 ∧
  ∀ s : State, exec .connReset s = .next { s with
    phase := .handshake
    thresh := 0xFFFFFFFF
    route := 0
    bld := []
    pay := []
    rpos := 0
    lastn := 0
    ftlen := 0
    fdlen := 0
    closed := false
    fvalid := false
    fcomp := false
    rxq := []
    txq := []
    rxend := false
    rxerr := false
    txerr := false
    err := 0
    errinfo := 0
    ip := s.ip ||| 1
    cmdcnt := s.cmdcnt + 1
    busy := false
    rx := none }

/-- R294 and R295: PHASE.SET goes from Handshake to Status (1) or Login (2) and to nothing else, checking the operand
before the phase; THRESH.SET takes the low 32 bits of its register as the threshold, in any phase. -/
def Obligations.PhaseSetAndThreshSetWriteTheirRegisters : Prop :=
  (∀ (imm : BitVec 16) (s : State), s.closed = false →
    encode (.phaseSet imm) = BitVec.ofNat 32 (0x03 + 65536 * imm.toNat) ∧
    (imm.toNat ≠ 1 → imm.toNat ≠ 2 →
      exec (.phaseSet imm) s = .next (s.completeErr ⟨.badOperand, BitVec.ofNat 32 imm.toNat⟩)) ∧
    (imm.toNat = 1 ∨ imm.toNat = 2 → s.phase ≠ .handshake →
      exec (.phaseSet imm) s = .next (s.completeErr ⟨.illegalTransition, BitVec.ofNat 32 s.phase.number⟩)) ∧
    (imm.toNat = 1 → s.phase = .handshake →
      exec (.phaseSet imm) s = .next ({ s with phase := .status } : State).completeOk) ∧
    (imm.toNat = 2 → s.phase = .handshake →
      exec (.phaseSet imm) s = .next ({ s with phase := .login } : State).completeOk)) ∧
  ∀ (ra : Reg) (s : State), s.closed = false →
    encode (.threshSet ra) = BitVec.ofNat 32 (0x04 + 256 * ra.val) ∧
    exec (.threshSet ra) s = .next ({ s with thresh := BitVec.ofNat 32 s.x[ra].toNat } : State).completeOk

/-- R299, R300 and R301: BLD.CLR empties BLD; PAY.SEEK moves the cursor to any offset up to PLEN; PAY.LOAD copies BLD
into PAY and takes FVALID away. -/
def Obligations.BufferCommandsMoveBuffers : Prop :=
  encode .bldClr = 0x00000006 ∧ encode .payLoad = 0x00000008 ∧
  (∀ ra : Reg, encode (.paySeek ra) = BitVec.ofNat 32 (0x07 + 256 * ra.val)) ∧
  ∀ s : State, s.closed = false →
    exec .bldClr s = .next ({ s with bld := [] } : State).completeOk ∧
    exec .payLoad s = .next ({ s with pay := s.bld, rpos := 0, fvalid := false } : State).completeOk ∧
    ∀ ra : Reg,
      (s.x[ra].toNat ≤ s.pay.length →
        exec (.paySeek ra) s = .next ({ s with rpos := s.x[ra].toNat } : State).completeOk) ∧
      (s.pay.length < s.x[ra].toNat →
        exec (.paySeek ra) s = .next (s.completeErr ⟨.badSeek, BitVec.ofNat 32 s.x[ra].toNat⟩))

/-- R290 to R293: DISPATCH routes the decoded frame by the matching entry of least index; with no entry it is an error
in Login and a silent no-op elsewhere; route 1 stores the threshold at offset 0 of PAY, route 2 moves Login to Play;
on every error ROUTE is 0 and PHASE and THRESH stay. -/
def Obligations.DispatchRoutesTheFrame : Prop :=
  encode .dispatch = 0x00000005 ∧
  ∀ s : State, s.closed = false →
    (s.fvalid = false → exec .dispatch s = .next (({ s with route := 0 } : State).completeErr ⟨.noFrame, 0⟩)) ∧
    (s.fvalid = true → (∀ e ∈ s.rt, ¬ e.Matches s.phase s.opc) →
      (s.phase = .login →
        exec .dispatch s = .next (({ s with route := 0 } : State).completeErr ⟨.unknownOpcode, s.opc⟩)) ∧
      (s.phase ≠ .login → exec .dispatch s = .next ({ s with route := 0 } : State).completeOk)) ∧
    ∀ (k : Nat) (h : k < s.rt.length), s.fvalid = true → s.rt[k].Matches s.phase s.opc →
      (∀ (j : Nat) (hj : j < k), ¬ s.rt[j].Matches s.phase s.opc) →
      let r := s.rt[k].routeNumber
      (r ≠ 1 → r ≠ 2 → exec .dispatch s = .next ({ s with route := BitVec.ofNat 8 r } : State).completeOk) ∧
      (r = 2 → s.phase = .login →
        exec .dispatch s = .next ({ s with route := 2, phase := .play } : State).completeOk) ∧
      (r = 2 → s.phase ≠ .login → exec .dispatch s = .next ({ s with route := 2 } : State).completeOk) ∧
      (r = 1 →
        (∀ v n, decodeVarint s.pay = .value v n →
          exec .dispatch s = .next ({ s with route := 1, thresh := v } : State).completeOk) ∧
        (decodeVarint s.pay = .insufficient →
          exec .dispatch s = .next (({ s with route := 0 } : State).completeErr
            ⟨.insufficientBytes, BitVec.ofNat 32 s.pay.length⟩)) ∧
        (decodeVarint s.pay = .tooLarge →
          exec .dispatch s = .next (({ s with route := 0 } : State).completeErr ⟨.varIntTooLarge, 0⟩)))

/-! ### VarInt -/

/-- R160 and R162: the encoding of a VarInt has as many bytes as the number needs, the low 7 bits of its bytes are the
number's groups, least significant first, and bit 7 is set on every byte but the last. -/
def Obligations.VarIntEncodingIsShortest : Prop :=
  (∀ v : W32,
    natGroups (encodeVarint v) = v.toNat ∧
    (∀ (k : Nat) (h : k < (encodeVarint v).length),
      128 ≤ (encodeVarint v)[k].toNat ↔ k + 1 < (encodeVarint v).length) ∧
    varintLen v = (if v.toNat < 2 ^ 7 then 1 else if v.toNat < 2 ^ 14 then 2 else if v.toNat < 2 ^ 21 then 3
      else if v.toNat < 2 ^ 28 then 4 else 5)) ∧
  encodeVarint 2097151 = [0xFF, 0xFF, 0x7F] ∧ encodeVarint (BitVec.ofInt 32 (-1)) = [0xFF, 0xFF, 0xFF, 0xFF, 0x0F]

/-- R163 and R164: what decoding a VarInt gives. The first byte below 128 among the first five ends it, the number is
that of the groups, modulo 2^32; five bytes of 128 or more are too large, and a sixth is never looked at; fewer are
insufficient. -/
def Obligations.VarIntDecodingStopsAtTheFifthByte : Prop :=
  ∀ s : Bytes,
    (∀ (k : Nat) (h : k < s.length), k < 5 → s[k].toNat < 128 → (∀ (j : Nat) (hj : j < k), 128 ≤ s[j].toNat) →
      decodeVarint s = .value (BitVec.ofNat 32 (natGroups (s.take (k + 1)))) (k + 1)) ∧
    (5 ≤ s.length → (∀ b ∈ s.take 5, 128 ≤ b.toNat) → decodeVarint s = .tooLarge) ∧
    (s.length < 5 → (∀ b ∈ s, 128 ≤ b.toNat) → decodeVarint s = .insufficient)

/-- R167: every `i32` comes back from its encoding, whatever bytes follow; the converse does not hold. -/
def Obligations.VarIntRoundTrip : Prop :=
  (∀ (v : W32) (t : Bytes), decodeVarint (encodeVarint v ++ t) = .value v (varintLen v)) ∧
  ∃ (s : Bytes) (v : W32) (n : Nat), decodeVarint s = .value v n ∧ encodeVarint v ≠ s.take n

/-- R165 and R166: ENC.VARINT appends the encoding of the low 32 bits of its register, all or nothing; DEC.VARINT reads
a VarInt at the cursor and sign-extends it, or raises the error of the case and changes nothing else. -/
def Obligations.VarIntCommandsAppendAndRead : Prop :=
  (∀ (ra : Reg) (s : State), s.closed = false →
    let b := encodeVarint (BitVec.ofNat 32 s.x[ra].toNat)
    encode (.encVarint ra) = BitVec.ofNat 32 (0x10 + 256 * ra.val) ∧
    (s.bld.length + b.length ≤ s.params.bldCap →
      exec (.encVarint ra) s = .next ({ s with
        bld := s.bld ++ b
        lastn := BitVec.ofNat 32 b.length } : State).completeOk) ∧
    (s.params.bldCap < s.bld.length + b.length →
      exec (.encVarint ra) s = .next (s.completeErr ⟨.bldFull, BitVec.ofNat 32 (s.bld.length + b.length)⟩))) ∧
  ∀ (ra : Reg) (s : State), s.closed = false →
    encode (.decVarint ra) = BitVec.ofNat 32 (0x11 + 256 * ra.val) ∧
    (∀ v n, decodeVarint (s.pay.drop s.rpos) = .value v n →
      exec (.decVarint ra) s = .next ({ s with
        x := s.x.set ra.val (BitVec.ofInt 64 v.toInt) ra.isLt
        rpos := s.rpos + n
        lastn := BitVec.ofNat 32 n } : State).completeOk) ∧
    (decodeVarint (s.pay.drop s.rpos) = .insufficient →
      exec (.decVarint ra) s =
        .next (s.completeErr ⟨.insufficientBytes, BitVec.ofNat 32 (s.pay.length - s.rpos)⟩)) ∧
    (decodeVarint (s.pay.drop s.rpos) = .tooLarge →
      exec (.decVarint ra) s = .next (s.completeErr ⟨.varIntTooLarge, 0⟩))

/-! ### Fixed widths -/

/-- The ENC commands of the fixed-width types append the low bytes of their register, big-endian, all or nothing, with
no range check (`41_fixed_int_bool.md` section 1, `42_float.md`, `40_varint.md` section 4). -/
def Obligations.FixedWidthEncodesAppendBigEndian : Prop :=
  ∀ p ∈ [(Instr.encByte, 1), (Instr.encUbyte, 1), (Instr.encShort, 2), (Instr.encUshort, 2), (Instr.encInt, 4),
      (Instr.encLong, 8), (Instr.encFloat, 4), (Instr.encDouble, 8)],
    ∀ (ra : Reg) (s : State), s.closed = false →
      (s.bld.length + p.2 ≤ s.params.bldCap →
        exec (p.1 ra) s = .next ({ s with
          bld := s.bld ++ bytesBE p.2 s.x[ra].toNat
          lastn := BitVec.ofNat 32 p.2 } : State).completeOk) ∧
      (s.params.bldCap < s.bld.length + p.2 →
        exec (p.1 ra) s = .next (s.completeErr ⟨.bldFull, BitVec.ofNat 32 (s.bld.length + p.2)⟩))

/-- The DEC commands of the fixed-width types read their bytes at the cursor, big-endian, and extend them by sign (byte,
short, int) or by zeros (ubyte, ushort, float); with too few bytes they record how many there were and change nothing
else (`41_fixed_int_bool.md` section 1, `42_float.md`, `40_varint.md` section 4). -/
def Obligations.FixedWidthDecodesReadBigEndian : Prop :=
  ∀ p ∈ [(Instr.decByte, 1, true), (Instr.decUbyte, 1, false), (Instr.decShort, 2, true), (Instr.decUshort, 2, false),
      (Instr.decInt, 4, true), (Instr.decLong, 8, true), (Instr.decFloat, 4, false), (Instr.decDouble, 8, false)],
    ∀ (ra : Reg) (s : State), s.closed = false →
      (s.rpos + p.2.1 ≤ s.pay.length →
        exec (p.1 ra) s = .next ({ s with
          x := s.x.set ra.val (extended p.2.1 p.2.2 (natBE ((s.pay.drop s.rpos).take p.2.1))) ra.isLt
          rpos := s.rpos + p.2.1
          lastn := BitVec.ofNat 32 p.2.1 } : State).completeOk) ∧
      (s.pay.length < s.rpos + p.2.1 →
        exec (p.1 ra) s = .next (s.completeErr ⟨.insufficientBytes, BitVec.ofNat 32 (s.pay.length - s.rpos)⟩))

/-- R206: for each fixed-width integer type, and for float and double too, encoding a register, loading BLD into PAY and
decoding gives the low bits of the register, extended; and decoding bytes and encoding the result gives the bytes
back. -/
def Obligations.FixedWidthRoundTrip : Prop :=
  ∀ p ∈ [(Instr.encByte, Instr.decByte, 1, true), (Instr.encUbyte, Instr.decUbyte, 1, false),
      (Instr.encShort, Instr.decShort, 2, true), (Instr.encUshort, Instr.decUshort, 2, false),
      (Instr.encInt, Instr.decInt, 4, true), (Instr.encLong, Instr.decLong, 8, true),
      (Instr.encFloat, Instr.decFloat, 4, false), (Instr.encDouble, Instr.decDouble, 8, false)],
    ∀ (ra rd : Reg) (s : State), s.closed = false →
      (s.bld = [] → p.2.2.1 ≤ s.params.bldCap →
        ∃ t u v : State, exec (p.1 ra) s = .next t ∧ exec .payLoad t = .next u ∧ exec (p.2.1 rd) u = .next v ∧
          v.err = 0 ∧ v.x[rd] = extended p.2.2.1 p.2.2.2 (s.x[ra].toNat % 2 ^ (8 * p.2.2.1))) ∧
      (s.rpos + p.2.2.1 ≤ s.pay.length → s.bld.length + p.2.2.1 ≤ s.params.bldCap →
        ∃ t u : State, exec (p.2.1 rd) s = .next t ∧ exec (p.1 rd) t = .next u ∧ u.err = 0 ∧
          u.bld = s.bld ++ (s.pay.drop s.rpos).take p.2.2.1)

/-- R201 and R202: ENC.BOOL appends 01 for a non-zero register and 00 for zero; DEC.BOOL takes 00 as 0 and 01 as 1,
any other byte is a ProtocolError recording it, and no byte left is a DecodeError. -/
def Obligations.BooleansAreZeroOrOne : Prop :=
  (∀ (ra : Reg) (s : State), s.closed = false →
    encode (.encBool ra) = BitVec.ofNat 32 (0x2C + 256 * ra.val) ∧
    (s.bld.length < s.params.bldCap → exec (.encBool ra) s = .next ({ s with
      bld := s.bld ++ [if s.x[ra].toNat = 0 then 0x00 else 0x01]
      lastn := 1 } : State).completeOk) ∧
    (s.params.bldCap ≤ s.bld.length →
      exec (.encBool ra) s = .next (s.completeErr ⟨.bldFull, BitVec.ofNat 32 (s.bld.length + 1)⟩))) ∧
  ∀ (ra : Reg) (s : State), s.closed = false →
    encode (.decBool ra) = BitVec.ofNat 32 (0x2D + 256 * ra.val) ∧
    (s.pay.length ≤ s.rpos →
      exec (.decBool ra) s =
        .next (s.completeErr ⟨.insufficientBytes, BitVec.ofNat 32 (s.pay.length - s.rpos)⟩)) ∧
    ∀ h : s.rpos < s.pay.length,
      (s.pay[s.rpos].toNat ≤ 1 → exec (.decBool ra) s = .next ({ s with
        x := s.x.set ra.val (BitVec.ofNat 64 s.pay[s.rpos].toNat) ra.isLt
        rpos := s.rpos + 1
        lastn := 1 } : State).completeOk) ∧
      (1 < s.pay[s.rpos].toNat →
        exec (.decBool ra) s = .next (s.completeErr ⟨.badBoolean, BitVec.ofNat 32 s.pay[s.rpos].toNat⟩))

/-! ### String, raw bytes, identifier -/

/-- R221 and R224: ENC.STRING appends the count as a VarInt and the bytes, ENC.RAW the bytes alone, all or nothing, with
the errors in their order: the count, the SCR bounds, the room in BLD. -/
def Obligations.StringAndRawEncodesReadScr : Prop :=
  ∀ (ra rb : Reg) (s : State), s.closed = false →
    let n := s.x[ra].toNat
    let a := s.x[rb].toNat
    let text := (List.range n).map fun k => s.scrByte (a + k)
    encode (.encString ra rb) = BitVec.ofNat 32 (0x40 + 256 * ra.val + 4096 * rb.val) ∧
    encode (.encRaw ra rb) = BitVec.ofNat 32 (0x44 + 256 * ra.val + 4096 * rb.val) ∧
    ∀ p ∈ [(Instr.encString ra rb, encodeVarint (BitVec.ofNat 32 n) ++ text), (Instr.encRaw ra rb, text)],
      (2 ^ 31 ≤ n → exec p.1 s = .next (s.completeErr ⟨.badOperand, BitVec.ofNat 32 n⟩)) ∧
      (n < 2 ^ 31 → s.params.scrSize < a + n →
        exec p.1 s = .next (s.completeErr ⟨.scrBounds, BitVec.ofNat 32 a⟩)) ∧
      (n < 2 ^ 31 → a + n ≤ s.params.scrSize → s.params.bldCap < s.bld.length + p.2.length →
        exec p.1 s = .next (s.completeErr ⟨.bldFull, BitVec.ofNat 32 (s.bld.length + p.2.length)⟩)) ∧
      (n < 2 ^ 31 → a + n ≤ s.params.scrSize → s.bld.length + p.2.length ≤ s.params.bldCap →
        exec p.1 s = .next ({ s with
          bld := s.bld ++ p.2
          lastn := BitVec.ofNat 32 p.2.length } : State).completeOk)

/-- R223: DEC.STRING reads a VarInt count and that many bytes into SCR at the old value of its offset register, and
writes the count last; the errors come in the order of the rule and leave everything else as it was. Every byte of SCR
outside those written stays. -/
def Obligations.DecStringWritesScr : Prop :=
  ∀ (ra rb : Reg) (s : State), s.closed = false →
    let rest := s.pay.drop s.rpos
    let a := s.x[rb].toNat
    encode (.decString ra rb) = BitVec.ofNat 32 (0x41 + 256 * ra.val + 4096 * rb.val) ∧
    (decodeVarint rest = .insufficient →
      exec (.decString ra rb) s =
        .next (s.completeErr ⟨.insufficientBytes, BitVec.ofNat 32 (s.pay.length - s.rpos)⟩)) ∧
    (decodeVarint rest = .tooLarge →
      exec (.decString ra rb) s = .next (s.completeErr ⟨.varIntTooLarge, 0⟩)) ∧
    ∀ v k, decodeVarint rest = .value v k →
      (v.toInt < 0 → exec (.decString ra rb) s = .next (s.completeErr ⟨.negativeLength, v⟩)) ∧
      (0 ≤ v.toInt → s.pay.length < s.rpos + k + v.toNat →
        exec (.decString ra rb) s =
          .next (s.completeErr ⟨.insufficientBytes, BitVec.ofNat 32 (s.pay.length - s.rpos)⟩)) ∧
      (0 ≤ v.toInt → s.rpos + k + v.toNat ≤ s.pay.length → s.params.scrSize < a + v.toNat →
        exec (.decString ra rb) s = .next (s.completeErr ⟨.scrBounds, BitVec.ofNat 32 a⟩)) ∧
      (0 ≤ v.toInt → s.rpos + k + v.toNat ≤ s.pay.length → a + v.toNat ≤ s.params.scrSize →
        ∃ t : State, exec (.decString ra rb) s = .next t.completeOk ∧
          t = { s with
            x := s.x.set ra.val (BitVec.ofNat 64 v.toNat) ra.isLt
            rpos := s.rpos + (k + v.toNat)
            lastn := BitVec.ofNat 32 (k + v.toNat)
            scr := t.scr } ∧
          ∀ c, t.scrByte c =
            if a ≤ c ∧ c < a + v.toNat then s.pay.getD (s.rpos + k + (c - a)) 0 else s.scrByte c)

/-- R225: DEC.RAW reads the bytes its count register asks for into SCR; the errors come in the order of the rule and
leave everything else as it was. No general register is written, and every byte of SCR outside those written stays. -/
def Obligations.DecRawWritesScr : Prop :=
  ∀ (ra rb : Reg) (s : State), s.closed = false →
    let n := s.x[ra].toNat
    let a := s.x[rb].toNat
    encode (.decRaw ra rb) = BitVec.ofNat 32 (0x45 + 256 * ra.val + 4096 * rb.val) ∧
    (2 ^ 31 ≤ n → exec (.decRaw ra rb) s = .next (s.completeErr ⟨.badOperand, BitVec.ofNat 32 n⟩)) ∧
    (n < 2 ^ 31 → s.pay.length < s.rpos + n →
      exec (.decRaw ra rb) s =
        .next (s.completeErr ⟨.insufficientBytes, BitVec.ofNat 32 (s.pay.length - s.rpos)⟩)) ∧
    (n < 2 ^ 31 → s.rpos + n ≤ s.pay.length → s.params.scrSize < a + n →
      exec (.decRaw ra rb) s = .next (s.completeErr ⟨.scrBounds, BitVec.ofNat 32 a⟩)) ∧
    (n < 2 ^ 31 → s.rpos + n ≤ s.pay.length → a + n ≤ s.params.scrSize →
      ∃ t : State, exec (.decRaw ra rb) s = .next t.completeOk ∧
        t = { s with
          rpos := s.rpos + n
          lastn := BitVec.ofNat 32 n
          scr := t.scr } ∧
        ∀ c, t.scrByte c = if a ≤ c ∧ c < a + n then s.pay.getD (s.rpos + (c - a)) 0 else s.scrByte c)

/-- R222: a string of any byte content and any length that fits the buffers round-trips exactly, through ENC.STRING,
PAY.LOAD and DEC.STRING. -/
def Obligations.StringRoundTrip : Prop :=
  ∀ (ra rb rc rd : Reg) (s : State), s.closed = false → s.bld = [] → s.params.Valid →
    let n := s.x[ra].toNat
    let a := s.x[rb].toNat
    let b := s.x[rd].toNat
    a + n ≤ s.params.scrSize → b + n ≤ s.params.scrSize → varintLen (BitVec.ofNat 32 n) + n ≤ s.params.bldCap →
    ∃ t u v : State, exec (.encString ra rb) s = .next t ∧ exec .payLoad t = .next u ∧
      exec (.decString rc rd) u = .next v ∧ v.err = 0 ∧ v.x[rc].toNat = n ∧ v.rpos = v.pay.length ∧
      (∀ k < n, v.scrByte (b + k) = s.scrByte (a + k)) ∧
      ∀ c, ¬(b ≤ c ∧ c < b + n) → v.scrByte c = s.scrByte c

/-- R226 to R228: an identifier goes on the wire as its high half big-endian and then its low half little-endian, from
and to the pair of an even register and the next; DEC.UUID with too few bytes writes neither register. -/
def Obligations.UuidWireOrderIsMixed : Prop :=
  ∀ (ra : Reg) (s : State) (h : ra.val + 1 < 8), ra.Even → s.closed = false →
    encode (.encUuid ra) = BitVec.ofNat 32 (0x42 + 256 * ra.val) ∧
    encode (.decUuid ra) = BitVec.ofNat 32 (0x43 + 256 * ra.val) ∧
    (s.bld.length + 16 ≤ s.params.bldCap → exec (.encUuid ra) s = .next ({ s with
      bld := s.bld ++ (bytesBE 8 s.x[ra].toNat ++ bytesLE 8 s.x[ra.val + 1].toNat)
      lastn := 16 } : State).completeOk) ∧
    (s.params.bldCap < s.bld.length + 16 →
      exec (.encUuid ra) s = .next (s.completeErr ⟨.bldFull, BitVec.ofNat 32 (s.bld.length + 16)⟩)) ∧
    (s.rpos + 16 ≤ s.pay.length → exec (.decUuid ra) s = .next ({ s with
      x := (s.x.set ra.val (BitVec.ofNat 64 (natBE ((s.pay.drop s.rpos).take 8))) ra.isLt).set (ra.val + 1)
        (BitVec.ofNat 64 (natLE ((s.pay.drop (s.rpos + 8)).take 8))) h
      rpos := s.rpos + 16
      lastn := 16 } : State).completeOk) ∧
    (s.pay.length < s.rpos + 16 →
      exec (.decUuid ra) s =
        .next (s.completeErr ⟨.insufficientBytes, BitVec.ofNat 32 (s.pay.length - s.rpos)⟩))

/-- R229 and R230: UUID.FMT writes the 36 characters of the canonical text, lower case, most significant digit first,
hyphens at positions 8, 13, 18 and 23, and nothing else; out of bounds it writes no byte. -/
def Obligations.UuidFmtWritesTheText : Prop :=
  ∀ (ra rb : Reg) (s : State) (_ : ra.val + 1 < 8), ra.Even → s.closed = false →
    let v := s.x[ra].toNat * 2 ^ 64 + s.x[ra.val + 1].toNat
    let a := s.x[rb].toNat
    encode (.uuidFmt ra rb) = BitVec.ofNat 32 (0x46 + 256 * ra.val + 4096 * rb.val) ∧
    (s.params.scrSize < a + 36 →
      exec (.uuidFmt ra rb) s = .next (s.completeErr ⟨.scrBounds, BitVec.ofNat 32 a⟩)) ∧
    (a + 36 ≤ s.params.scrSize →
      ∃ t : State, exec (.uuidFmt ra rb) s = .next t.completeOk ∧ t = { s with scr := t.scr } ∧
        ∀ c, t.scrByte c = if a ≤ c ∧ c < a + 36 then textChar v (c - a) else s.scrByte c)

/-- R231: UUID.PARSE reads 36 characters; if every one may stand where it does, the pair gets the number their digits
stand for, in either case, most significant first; if not, the index of the first that may not is recorded and no
register is written. -/
def Obligations.UuidParseReadsTheText : Prop :=
  ∀ (ra rb : Reg) (s : State) (h : ra.val + 1 < 8), ra.Even → s.closed = false →
    let a := s.x[rb].toNat
    let text := fun i => s.scrByte (a + i)
    let v := textNumber text 36 0 0
    encode (.uuidParse ra rb) = BitVec.ofNat 32 (0x47 + 256 * ra.val + 4096 * rb.val) ∧
    (s.params.scrSize < a + 36 →
      exec (.uuidParse ra rb) s = .next (s.completeErr ⟨.scrBounds, BitVec.ofNat 32 a⟩)) ∧
    (a + 36 ≤ s.params.scrSize → (∀ i < 36, CharOk i (text i)) →
      exec (.uuidParse ra rb) s = .next ({ s with
        x := (s.x.set ra.val (BitVec.ofNat 64 (v / 2 ^ 64)) ra.isLt).set (ra.val + 1)
          (BitVec.ofNat 64 (v % 2 ^ 64)) h } : State).completeOk) ∧
    (∀ i < 36, a + 36 ≤ s.params.scrSize → (∀ j < i, CharOk j (text j)) → ¬ CharOk i (text i) →
      exec (.uuidParse ra rb) s = .next (s.completeErr ⟨.badUuidText, BitVec.ofNat 32 i⟩))

/-- UUID.FMT and then UUID.PARSE of the text it wrote give the identifier back, in whatever pair; and UUID.PARSE of a
text with no upper-case digit and then UUID.FMT write the same 36 bytes, at whatever offset of SCR (which the parsing
itself changes where the offset stands in a register of the pair) (`43_string_uuid_raw.md` section 3). -/
def Obligations.UuidTextRoundTrip : Prop :=
  (∀ (ra rb rc : Reg) (s : State) (_ : ra.val + 1 < 8) (hc : rc.val + 1 < 8), ra.Even → rc.Even → s.closed = false →
    s.x[rb].toNat + 36 ≤ s.params.scrSize →
    ∃ t u : State, exec (.uuidFmt ra rb) s = .next t ∧ exec (.uuidParse rc rb) t = .next u ∧ u.err = 0 ∧
      u.x = (s.x.set rc.val s.x[ra] rc.isLt).set (rc.val + 1) s.x[ra.val + 1] hc) ∧
  ∀ (rc rb rd : Reg) (s : State), rc.val + 1 < 8 → rc.Even → s.closed = false →
    let a := s.x[rb].toNat
    a + 36 ≤ s.params.scrSize →
    (∀ k < 36, CharOk k (s.scrByte (a + k)) ∧ ¬(0x41 ≤ (s.scrByte (a + k)).toNat ∧ (s.scrByte (a + k)).toNat ≤ 0x46)) →
    ∃ t : State, exec (.uuidParse rc rb) s = .next t ∧ t.err = 0 ∧
      (t.x[rd].toNat + 36 ≤ s.params.scrSize →
        ∃ u : State, exec (.uuidFmt rc rd) t = .next u ∧ u.err = 0 ∧
          ∀ k < 36, u.scrByte (t.x[rd].toNat + k) = s.scrByte (a + k))

/-! ### The framer -/

/-- The frame FRAME.ENC puts on TXQ, whole, for a threshold that is negative, above the length of opcode and payload,
or at most that length; TL is latched, BLD emptied, LASTN counts the frame. A failed transmit stream, or a compressed
frame too long for a length field, is an error and emits nothing (`44_framer.md` sections 1 and 2). That an error
leaves TL as it was is the model's reading (assumption 13). -/
def Obligations.FrameEncEmitsTheFrame : Prop :=
  ∀ (ra : Reg) (s : State), s.closed = false →
    let inner := encodeVarint (BitVec.ofNat 32 s.x[ra].toNat) ++ s.bld
    let len := BitVec.ofNat 32 inner.length
    let c := Config.zip.deflate inner
    let total := varintLen len + c.length
    let emitted := fun f : Bytes => ({ s with
      tl := s.thresh
      txq := s.txq ++ f
      bld := []
      lastn := BitVec.ofNat 32 f.length } : State).completeOk
    encode (.frameEnc ra) = BitVec.ofNat 32 (0x50 + 256 * ra.val) ∧
    (s.txerr = true → exec (.frameEnc ra) s = .next (s.completeErr ⟨.txIoError, 0⟩)) ∧
    (s.txerr = false →
      (s.thresh.toInt < 0 → exec (.frameEnc ra) s = .next (emitted (encodeVarint len ++ inner))) ∧
      ((inner.length : Int) < s.thresh.toInt →
        exec (.frameEnc ra) s =
          .next (emitted (encodeVarint (BitVec.ofNat 32 (1 + inner.length)) ++ [0x00] ++ inner))) ∧
      (0 ≤ s.thresh.toInt → s.thresh.toInt ≤ inner.length → total < 2 ^ 31 →
        exec (.frameEnc ra) s =
          .next (emitted (encodeVarint (BitVec.ofNat 32 total) ++ encodeVarint len ++ c))) ∧
      (0 ≤ s.thresh.toInt → s.thresh.toInt ≤ inner.length → 2 ^ 31 ≤ total →
        exec (.frameEnc ra) s = .next (s.completeErr ⟨.frameTooLarge, 0⟩)))

/-- R260 and R261: what the bytes of a frame hold, for every compression unit. In the plain format the opcode is the
first field; in the compression-capable format the data length is, and a data length other than 0 has the rest inflated
and checked against it. The errors come in the order of the rules, each with its ERRINFO and the data length read. -/
def Obligations.FramePartsFollowTheFormat : Prop :=
  ∀ (zip : ZipUnit) (payCap : Nat) (tl : W32) (buf : Bytes),
    let content := fun (d : W32) (inner : Bytes) =>
      (∀ o n, decodeVarint inner = .value o n → parseFrame zip payCap tl buf = .ok ⟨o, inner.drop n, d⟩) ∧
      (decodeVarint inner = .insufficient →
        parseFrame zip payCap tl buf = .error ⟨⟨.insufficientBytes, BitVec.ofNat 32 inner.length⟩, d⟩) ∧
      (decodeVarint inner = .tooLarge → parseFrame zip payCap tl buf = .error ⟨⟨.varIntTooLarge, 0⟩, d⟩)
    (tl.toInt < 0 → content 0 buf) ∧
    (0 ≤ tl.toInt →
      (decodeVarint buf = .insufficient →
        parseFrame zip payCap tl buf = .error ⟨⟨.insufficientBytes, BitVec.ofNat 32 buf.length⟩, 0⟩) ∧
      (decodeVarint buf = .tooLarge → parseFrame zip payCap tl buf = .error ⟨⟨.varIntTooLarge, 0⟩, 0⟩) ∧
      ∀ d m, decodeVarint buf = .value d m →
        (d = 0 → content 0 (buf.drop m)) ∧
        ((payCap : Int) < d.toInt → parseFrame zip payCap tl buf = .error ⟨⟨.dataTooLarge, d⟩, d⟩) ∧
        (d ≠ 0 → d.toInt ≤ payCap →
          (zip.inflate (buf.drop m) = none →
            parseFrame zip payCap tl buf = .error ⟨⟨.inflateFailed, 0⟩, d⟩) ∧
          ∀ z, zip.inflate (buf.drop m) = some z →
            ((z.length : Int) ≠ d.toInt →
              parseFrame zip payCap tl buf = .error ⟨⟨.lengthMismatch, BitVec.ofNat 32 z.length⟩, d⟩) ∧
            ((z.length : Int) = d.toInt → content d z)))

/-- FRAME.DEC takes one byte in each engine step and stops at the next control point or completes
(`44_framer.md` section 3). Before its first step it stands at the start, and that step latches the threshold. What a
complete frame holds is `parseFrame`'s, of which another statement speaks. -/
def Obligations.FrameDecTakesOneByteAStep : Prop :=
  encode .frameDec = 0x00000051 ∧
  ∀ (s t : State) (p : RxProgress) (b : Byte) (q : Bytes), s.rxq = b :: q →
    (s.rx = some p ∧ t = { s with rxq := q } ∨
      s.rx = none ∧ s.closed = false ∧ p = ⟨0, .len 0 0⟩ ∧ t = { s with tl := s.thresh, rxq := q }) →
    let at' := fun point : RxPoint => ({ t with rx := some ⟨p.taken + 1, point⟩ } : State)
    let failed := fun (ftlen fdlen : W32) (e : Raise) => ({ t with
      fvalid := false
      pay := []
      rpos := 0
      ftlen := ftlen
      fdlen := fdlen } : State).completeErr e
    (∀ i acc, p.point = .len i acc →
      let v := acc ||| BitVec.ofNat 32 (b.toNat % 128 * 2 ^ (7 * i))
      (128 ≤ b.toNat → i + 1 < 5 → exec .frameDec s = .next (at' (.len (i + 1) v))) ∧
      (128 ≤ b.toNat → 5 ≤ i + 1 → exec .frameDec s = .next (failed 0 0 ⟨.varIntTooLarge, 0⟩)) ∧
      (b.toNat < 128 → v.toInt ≤ 0 → exec .frameDec s = .next (failed v 0 ⟨.lengthNonPositive, v⟩)) ∧
      (b.toNat < 128 → 0 < v.toInt → s.params.payCap < v.toNat →
        exec .frameDec s = .next (at' (.skip v.toNat 0))) ∧
      (b.toNat < 128 → 0 < v.toInt → v.toNat ≤ s.params.payCap →
        exec .frameDec s = .next (at' (.take v.toNat [])))) ∧
    (∀ tlen buf, p.point = .take tlen buf →
      (buf.length + 1 < tlen → exec .frameDec s = .next (at' (.take tlen (buf ++ [b])))) ∧
      (tlen ≤ buf.length + 1 →
        (∀ f, parseFrame Config.zip s.params.payCap t.tl (buf ++ [b]) = .ok f →
          exec .frameDec s = .next ({ t with
            opc := f.opcode
            pay := f.payload
            rpos := 0
            ftlen := BitVec.ofNat 32 tlen
            fdlen := f.dlen
            fvalid := true
            fcomp := decide (0 ≤ t.tl.toInt) } : State).completeOk) ∧
        (∀ e, parseFrame Config.zip s.params.payCap t.tl (buf ++ [b]) = .error e →
          exec .frameDec s = .next (failed (BitVec.ofNat 32 tlen) e.dlen e.raise)))) ∧
    (∀ tlen j, p.point = .skip tlen j →
      (j + 1 < tlen → exec .frameDec s = .next (at' (.skip tlen (j + 1)))) ∧
      (tlen ≤ j + 1 →
        exec .frameDec s =
          .next (failed (BitVec.ofNat 32 tlen) 0 ⟨.frameTooLarge, BitVec.ofNat 32 tlen⟩)))

/-- A FRAME.DEC with no byte waiting ends with the error of the stream, an I/O error before an end of input, or holds;
while it holds, only a move of the RX transport, a stop request or the reset input lifts the hold (`44_framer.md`
section 3). -/
def Obligations.FrameDecHoldsOrEndsWithTheStream : Prop :=
  (∀ (s t : State) (p : RxProgress), s.rxq = [] →
    (s.rx = some p ∧ t = s ∨
      s.rx = none ∧ s.closed = false ∧ p = ⟨0, .len 0 0⟩ ∧ t = { s with tl := s.thresh, rx := some p }) →
    let failed := fun e : CmdError => ({ t with
      fvalid := false
      pay := []
      rpos := 0
      ftlen := match p.point with
        | .len _ _ => 0
        | .take tlen _ => BitVec.ofNat 32 tlen
        | .skip tlen _ => BitVec.ofNat 32 tlen
      fdlen := 0 } : State).completeErr ⟨e, BitVec.ofNat 32 p.taken⟩
    (s.rxerr = true → exec .frameDec s = .next (failed .rxIoError)) ∧
    (s.rxerr = false → s.rxend = true → exec .frameDec s = .next (failed .rxEnd)) ∧
    (s.rxerr = false → s.rxend = false → exec .frameDec s = .next t)) ∧
  ∀ s t : State, s.held = true → step s = .next t →
    t.held = true ∨ ∃ l, (∃ b, s.sched = .rxPush b :: l) ∨ s.sched = .rxEnd :: l ∨ s.sched = .rxFail :: l ∨
      s.sched = .rst true :: l ∨ ∃ v : W32, v.getLsbD 0 = true ∧ s.sched = .busWrite .word 0x0048 v :: l

/-- A FRAME.DEC that finds a whole frame in RXQ takes exactly that frame: the bytes of the total-length field and as
many more as it says, one a step, and completes in the step of the last one; what follows stays in RXQ
(`44_framer.md` section 3). -/
def Obligations.FrameDecTakesExactlyOneFrame : Prop :=
  ∀ (s : State) (field buf rest : Bytes) (v : W32), s.sched = [] → s.rst = false → s.busy = true →
    s.cur = 0x00000051 → s.rx = none → s.closed = false → s.rxq = field ++ buf ++ rest →
    decodeVarint field = .value v field.length → 0 < v.toInt → v.toNat ≤ s.params.payCap → buf.length = v.toNat →
    let t : State := { s with tl := s.thresh, rxq := rest, rx := none }
    (∀ n < field.length + buf.length,
      ∃ u : State, Host.Core.run Sys2Proof.core n s = .next u ∧ u.busy = true ∧
        u.rxq = s.rxq.drop n ∧ u.cmdcnt = s.cmdcnt) ∧
    (∀ f, parseFrame Config.zip s.params.payCap s.thresh buf = .ok f →
      Host.Core.run Sys2Proof.core (field.length + buf.length) s = .next ({ t with
        opc := f.opcode
        pay := f.payload
        rpos := 0
        ftlen := v
        fdlen := f.dlen
        fvalid := true
        fcomp := decide (0 ≤ s.thresh.toInt) } : State).completeOk) ∧
    ∀ e, parseFrame Config.zip s.params.payCap s.thresh buf = .error e →
      Host.Core.run Sys2Proof.core (field.length + buf.length) s = .next (({ t with
        fvalid := false
        pay := []
        rpos := 0
        ftlen := v
        fdlen := e.dlen } : State).completeErr e.raise)

/-- An oversized frame is discarded whole: FRAME.DEC takes and drops as many bytes as the frame's total length says,
then completes with FrameTooLarge, and the next frame follows in RXQ (`44_framer.md` section 3). -/
def Obligations.OversizedFrameIsDiscardedWhole : Prop :=
  ∀ (s : State) (field buf rest : Bytes) (v : W32), s.sched = [] → s.rst = false → s.busy = true →
    s.cur = 0x00000051 → s.rx = none → s.closed = false → s.rxq = field ++ buf ++ rest →
    decodeVarint field = .value v field.length → 0 < v.toInt → s.params.payCap < v.toNat → buf.length = v.toNat →
    Host.Core.run Sys2Proof.core (field.length + buf.length) s = .next (({ s with
      tl := s.thresh
      rxq := rest
      fvalid := false
      pay := []
      rpos := 0
      ftlen := v
      fdlen := 0 } : State).completeErr ⟨.frameTooLarge, v⟩)

/-- What FRAME.ENC emits, FRAME.DEC decodes: with the same threshold at both, the opcode and the payload come back,
and FDLEN is 0, or the length of opcode and payload when that reaches a threshold that is not negative. The rule's
premise that the frame fits is taken for the total length and for the data length, which another rule bounds too
(`44_framer.md` sections 3 and 4). -/
def Obligations.FrameRoundTrip : Prop :=
  ∀ (ra : Reg) (s t d : State) (rest : Bytes), s.closed = false → exec (.frameEnc ra) s = .next t → t.err = 0 →
    d.sched = [] → d.rst = false → d.busy = true → d.cur = 0x00000051 → d.rx = none → d.closed = false →
    d.thresh = s.thresh →
    let inner := encodeVarint (BitVec.ofNat 32 s.x[ra].toNat) ++ s.bld
    inner.length ≤ d.params.payCap → d.params.payCap < 2 ^ 31 →
    ∀ f : Bytes, t.txq = s.txq ++ f → d.rxq = f ++ rest →
      (∀ v k, decodeVarint f = .value v k → f.length ≤ d.params.payCap + k) →
      ∃ u : State, Host.Core.run Sys2Proof.core f.length d = .next u ∧ u.busy = false ∧ u.err = 0 ∧
        u.fvalid = true ∧ u.opc = BitVec.ofNat 32 s.x[ra].toNat ∧ u.pay = s.bld ∧ u.rxq = rest ∧
        (u.fcomp = true ↔ 0 ≤ s.thresh.toInt) ∧
        u.fdlen.toNat =
          (if 0 ≤ s.thresh.toInt ∧ s.thresh.toInt ≤ inner.length then inner.length else 0)
end

