-- ==== Sys2Proof/Laws/Decode.lean ====
section
/-! SUPPORT. The small lemmas of the encoding: the fields of a word that was put together, and the specifiers of
registers. -/

namespace Sys2Proof

@[simp] theorem opField_mkWord (op : BitVec 8) (ra rb : BitVec 4) (imm : BitVec 16) :
    opField (mkWord op ra rb imm) = op := by
  ext i h; simp [opField, mkWord]; grind

@[simp] theorem raField_mkWord (op : BitVec 8) (ra rb : BitVec 4) (imm : BitVec 16) :
    raField (mkWord op ra rb imm) = ra := by
  ext i h; simp [raField, mkWord]; grind

@[simp] theorem rbField_mkWord (op : BitVec 8) (ra rb : BitVec 4) (imm : BitVec 16) :
    rbField (mkWord op ra rb imm) = rb := by
  ext i h; simp [rbField, mkWord]; grind

@[simp] theorem immField_mkWord (op : BitVec 8) (ra rb : BitVec 4) (imm : BitVec 16) :
    immField (mkWord op ra rb imm) = imm := by
  ext i h; simp [immField, mkWord]; grind

/-- A word is its four fields put together. -/
theorem mkWord_fields (w : W32) : mkWord (opField w) (raField w) (rbField w) (immField w) = w := by
  ext i h; simp [opField, raField, rbField, immField, mkWord]; grind

/-- The low half of a word holds every field but the immediate. -/
theorem mkWord_low (op : BitVec 8) (ra rb : BitVec 4) (imm : BitVec 16) :
    mkWord op ra rb imm &&& 0x0000FFFF = mkWord op ra rb 0 := by
  have hm : ∀ i < 32, (0x0000FFFF : W32).getLsbD i = decide (i < 16) := by decide
  refine BitVec.eq_of_getLsbD_eq fun i h => ?_
  rw [BitVec.getLsbD_and, hm i h]
  simp [mkWord]
  grind

@[simp] theorem regOf_regField (r : Reg) : regOf (regField r) = some r := by
  revert r; decide

/-- The specifier of the register a specifier names. -/
theorem regField_of_regOf {f : BitVec 4} {r : Reg} (h : regOf f = some r) : regField r = f := by
  revert f r; decide

/-- The specifier of a pair. -/
theorem pairOf_regField {r : Reg} (h : r.Even) : pairOf (regField r) = some r := by
  revert r; decide

/-- A pair specifier names an even register, by its own specifier. -/
theorem even_of_pairOf {f : BitVec 4} {r : Reg} (h : pairOf f = some r) : r.Even ∧ regField r = f := by
  revert f r; decide

/-- The word of a command with one register. -/
theorem mkWord_register : ∀ (op : BitVec 8) (ra : Reg),
    mkWord op (regField ra) 0 0 = BitVec.ofNat 32 (op.toNat + 256 * ra.val) := by decide

/-- The word of a command with two registers, for the codes of R136 that have two. -/
theorem mkWord_registers : ∀ op ∈ [0x40#8, 0x41, 0x44, 0x45, 0x46, 0x47], ∀ (ra rb : Reg),
    mkWord op (regField ra) (regField rb) 0 = BitVec.ofNat 32 (op.toNat + 256 * ra.val + 4096 * rb.val) := by decide

/-- The word of a command with a register and an immediate. -/
theorem mkWord_immediate (op : BitVec 8) (ra : Reg) (imm : BitVec 16) :
    mkWord op (regField ra) 0 imm = BitVec.ofNat 32 (op.toNat + 256 * ra.val + 65536 * imm.toNat) := by
  have h := imm.isLt
  have h2 := op.isLt
  have h3 := ra.isLt
  have h1 : mkWord op (regField ra) 0 imm = mkWord op (regField ra) 0 0 ||| imm.setWidth 32 <<< 16 := by simp [mkWord]
  rw [h1, mkWord_register]
  apply BitVec.eq_of_toNat_eq
  simp only [BitVec.toNat_or, BitVec.toNat_shiftLeft, BitVec.toNat_ofNat, BitVec.toNat_setWidth, Nat.shiftLeft_eq]
  rw [Nat.mod_eq_of_lt (by omega : imm.toNat < 2 ^ 32), Nat.mod_eq_of_lt (by omega : op.toNat + 256 * ra.val < 2 ^ 32),
    Nat.mod_eq_of_lt (by omega : imm.toNat * 2 ^ 16 < 2 ^ 32), Nat.mod_eq_of_lt (by omega), Nat.lor_comm, Nat.mul_comm]
  exact ((Nat.two_pow_add_eq_or_of_lt (by omega : op.toNat + 256 * ra.val < 2 ^ 16) _).symm.trans (by omega))

/-- A word whose command code selects a row is read in that row's format. -/
theorem decode_of_op {w : W32} {op : BitVec 8} {sh : Shape} (h : opField w = op) (hm : commandMap op = some sh) :
    decode w = sh.read w := by simp [decode, h, hm]

/-- The fields of a masked word are the masked fields. -/
theorem fields_and {w mask m : W32} (h : w &&& mask = m) :
    opField w &&& opField mask = opField m ∧ raField w &&& raField mask = raField m ∧
    rbField w &&& rbField mask = rbField m ∧ immField w &&& immField mask = immField m := by
  subst h
  simp only [opField, raField, rbField, immField, BitVec.extractLsb'_and, and_self]

/-- A specifier with its top bit clear names a register. -/
theorem regOf_isSome : ∀ f : BitVec 4, f &&& 8 = 0 → ∃ r, regOf f = some r := by decide

/-- A specifier with its top and bottom bits clear names a pair. -/
theorem pairOf_isSome : ∀ f : BitVec 4, f &&& 9 = 0 → ∃ r, pairOf f = some r := by decide


end Sys2Proof
end

