-- ==== Sys2Proof/Laws/State.lean ====
section
/-! SUPPORT. What each named update of State leaves in each field, true by `rfl`, so that no proof unfolds a record
update. One section per update. -/

namespace Sys2Proof.Machine

variable (s : State)


/-! ### `State.completeOk` -/

@[simp] theorem State.completeOk_x : (s.completeOk).x = s.x := rfl
@[simp] theorem State.completeOk_busy : (s.completeOk).busy = false := rfl
@[simp] theorem State.completeOk_closed : (s.completeOk).closed = s.closed := rfl
@[simp] theorem State.completeOk_fvalid : (s.completeOk).fvalid = s.fvalid := rfl
@[simp] theorem State.completeOk_fcomp : (s.completeOk).fcomp = s.fcomp := rfl
@[simp] theorem State.completeOk_ovr : (s.completeOk).ovr = s.ovr := rfl
@[simp] theorem State.completeOk_err : (s.completeOk).err = 0 := rfl
@[simp] theorem State.completeOk_errinfo : (s.completeOk).errinfo = 0 := rfl
@[simp] theorem State.completeOk_esticky : (s.completeOk).esticky = s.esticky := rfl
@[simp] theorem State.completeOk_ie : (s.completeOk).ie = s.ie := rfl
@[simp] theorem State.completeOk_ip : (s.completeOk).ip = s.ip ||| 1 := rfl
@[simp] theorem State.completeOk_cmdcnt : (s.completeOk).cmdcnt = s.cmdcnt + 1 := rfl
@[simp] theorem State.completeOk_phase : (s.completeOk).phase = s.phase := rfl
@[simp] theorem State.completeOk_thresh : (s.completeOk).thresh = s.thresh := rfl
@[simp] theorem State.completeOk_opc : (s.completeOk).opc = s.opc := rfl
@[simp] theorem State.completeOk_route : (s.completeOk).route = s.route := rfl
@[simp] theorem State.completeOk_rpos : (s.completeOk).rpos = s.rpos := rfl
@[simp] theorem State.completeOk_lastn : (s.completeOk).lastn = s.lastn := rfl
@[simp] theorem State.completeOk_ftlen : (s.completeOk).ftlen = s.ftlen := rfl
@[simp] theorem State.completeOk_fdlen : (s.completeOk).fdlen = s.fdlen := rfl
@[simp] theorem State.completeOk_rxend : (s.completeOk).rxend = s.rxend := rfl
@[simp] theorem State.completeOk_rxerr : (s.completeOk).rxerr = s.rxerr := rfl
@[simp] theorem State.completeOk_txerr : (s.completeOk).txerr = s.txerr := rfl
@[simp] theorem State.completeOk_rt : (s.completeOk).rt = s.rt := rfl
@[simp] theorem State.completeOk_bld : (s.completeOk).bld = s.bld := rfl
@[simp] theorem State.completeOk_pay : (s.completeOk).pay = s.pay := rfl
@[simp] theorem State.completeOk_scr : (s.completeOk).scr = s.scr := rfl
@[simp] theorem State.completeOk_rxq : (s.completeOk).rxq = s.rxq := rfl
@[simp] theorem State.completeOk_txq : (s.completeOk).txq = s.txq := rfl
@[simp] theorem State.completeOk_cur : (s.completeOk).cur = s.cur := rfl
@[simp] theorem State.completeOk_tl : (s.completeOk).tl = s.tl := rfl
@[simp] theorem State.completeOk_rx : (s.completeOk).rx = none := rfl
@[simp] theorem State.completeOk_rst : (s.completeOk).rst = s.rst := rfl
@[simp] theorem State.completeOk_params : (s.completeOk).params = s.params := rfl
@[simp] theorem State.completeOk_resets : (s.completeOk).resets = s.resets := rfl
@[simp] theorem State.completeOk_bus : (s.completeOk).bus = s.bus := rfl
@[simp] theorem State.completeOk_wire : (s.completeOk).wire = s.wire := rfl
@[simp] theorem State.completeOk_sched : (s.completeOk).sched = s.sched := rfl

/-! ### `State.completeErr` -/

@[simp] theorem State.completeErr_x (e : Raise) : (s.completeErr e).x = s.x := rfl
@[simp] theorem State.completeErr_busy (e : Raise) : (s.completeErr e).busy = false := rfl
@[simp] theorem State.completeErr_closed (e : Raise) : (s.completeErr e).closed = (s.closed || e.error.cause == .transport) := rfl
@[simp] theorem State.completeErr_fvalid (e : Raise) : (s.completeErr e).fvalid = s.fvalid := rfl
@[simp] theorem State.completeErr_fcomp (e : Raise) : (s.completeErr e).fcomp = s.fcomp := rfl
@[simp] theorem State.completeErr_ovr (e : Raise) : (s.completeErr e).ovr = s.ovr := rfl
@[simp] theorem State.completeErr_err (e : Raise) : (s.completeErr e).err = e.error.errWord := rfl
@[simp] theorem State.completeErr_errinfo (e : Raise) : (s.completeErr e).errinfo = e.info := rfl
@[simp] theorem State.completeErr_esticky (e : Raise) : (s.completeErr e).esticky = s.esticky ||| e.error.stickyBit := rfl
@[simp] theorem State.completeErr_ie (e : Raise) : (s.completeErr e).ie = s.ie := rfl
@[simp] theorem State.completeErr_ip (e : Raise) : (s.completeErr e).ip = s.ip ||| 3 := rfl
@[simp] theorem State.completeErr_cmdcnt (e : Raise) : (s.completeErr e).cmdcnt = s.cmdcnt + 1 := rfl
@[simp] theorem State.completeErr_phase (e : Raise) : (s.completeErr e).phase = s.phase := rfl
@[simp] theorem State.completeErr_thresh (e : Raise) : (s.completeErr e).thresh = s.thresh := rfl
@[simp] theorem State.completeErr_opc (e : Raise) : (s.completeErr e).opc = s.opc := rfl
@[simp] theorem State.completeErr_route (e : Raise) : (s.completeErr e).route = s.route := rfl
@[simp] theorem State.completeErr_rpos (e : Raise) : (s.completeErr e).rpos = s.rpos := rfl
@[simp] theorem State.completeErr_lastn (e : Raise) : (s.completeErr e).lastn = s.lastn := rfl
@[simp] theorem State.completeErr_ftlen (e : Raise) : (s.completeErr e).ftlen = s.ftlen := rfl
@[simp] theorem State.completeErr_fdlen (e : Raise) : (s.completeErr e).fdlen = s.fdlen := rfl
@[simp] theorem State.completeErr_rxend (e : Raise) : (s.completeErr e).rxend = s.rxend := rfl
@[simp] theorem State.completeErr_rxerr (e : Raise) : (s.completeErr e).rxerr = s.rxerr := rfl
@[simp] theorem State.completeErr_txerr (e : Raise) : (s.completeErr e).txerr = s.txerr := rfl
@[simp] theorem State.completeErr_rt (e : Raise) : (s.completeErr e).rt = s.rt := rfl
@[simp] theorem State.completeErr_bld (e : Raise) : (s.completeErr e).bld = s.bld := rfl
@[simp] theorem State.completeErr_pay (e : Raise) : (s.completeErr e).pay = s.pay := rfl
@[simp] theorem State.completeErr_scr (e : Raise) : (s.completeErr e).scr = s.scr := rfl
@[simp] theorem State.completeErr_rxq (e : Raise) : (s.completeErr e).rxq = s.rxq := rfl
@[simp] theorem State.completeErr_txq (e : Raise) : (s.completeErr e).txq = s.txq := rfl
@[simp] theorem State.completeErr_cur (e : Raise) : (s.completeErr e).cur = s.cur := rfl
@[simp] theorem State.completeErr_tl (e : Raise) : (s.completeErr e).tl = s.tl := rfl
@[simp] theorem State.completeErr_rx (e : Raise) : (s.completeErr e).rx = none := rfl
@[simp] theorem State.completeErr_rst (e : Raise) : (s.completeErr e).rst = s.rst := rfl
@[simp] theorem State.completeErr_params (e : Raise) : (s.completeErr e).params = s.params := rfl
@[simp] theorem State.completeErr_resets (e : Raise) : (s.completeErr e).resets = s.resets := rfl
@[simp] theorem State.completeErr_bus (e : Raise) : (s.completeErr e).bus = s.bus := rfl
@[simp] theorem State.completeErr_wire (e : Raise) : (s.completeErr e).wire = s.wire := rfl
@[simp] theorem State.completeErr_sched (e : Raise) : (s.completeErr e).sched = s.sched := rfl

/-! ### `State.setReg` -/

@[simp] theorem State.setReg_x (r : Reg) (v : W64) : (s.setReg r v).x = s.x.set r.val v r.isLt := rfl
@[simp] theorem State.setReg_busy (r : Reg) (v : W64) : (s.setReg r v).busy = s.busy := rfl
@[simp] theorem State.setReg_closed (r : Reg) (v : W64) : (s.setReg r v).closed = s.closed := rfl
@[simp] theorem State.setReg_fvalid (r : Reg) (v : W64) : (s.setReg r v).fvalid = s.fvalid := rfl
@[simp] theorem State.setReg_fcomp (r : Reg) (v : W64) : (s.setReg r v).fcomp = s.fcomp := rfl
@[simp] theorem State.setReg_ovr (r : Reg) (v : W64) : (s.setReg r v).ovr = s.ovr := rfl
@[simp] theorem State.setReg_err (r : Reg) (v : W64) : (s.setReg r v).err = s.err := rfl
@[simp] theorem State.setReg_errinfo (r : Reg) (v : W64) : (s.setReg r v).errinfo = s.errinfo := rfl
@[simp] theorem State.setReg_esticky (r : Reg) (v : W64) : (s.setReg r v).esticky = s.esticky := rfl
@[simp] theorem State.setReg_ie (r : Reg) (v : W64) : (s.setReg r v).ie = s.ie := rfl
@[simp] theorem State.setReg_ip (r : Reg) (v : W64) : (s.setReg r v).ip = s.ip := rfl
@[simp] theorem State.setReg_cmdcnt (r : Reg) (v : W64) : (s.setReg r v).cmdcnt = s.cmdcnt := rfl
@[simp] theorem State.setReg_phase (r : Reg) (v : W64) : (s.setReg r v).phase = s.phase := rfl
@[simp] theorem State.setReg_thresh (r : Reg) (v : W64) : (s.setReg r v).thresh = s.thresh := rfl
@[simp] theorem State.setReg_opc (r : Reg) (v : W64) : (s.setReg r v).opc = s.opc := rfl
@[simp] theorem State.setReg_route (r : Reg) (v : W64) : (s.setReg r v).route = s.route := rfl
@[simp] theorem State.setReg_rpos (r : Reg) (v : W64) : (s.setReg r v).rpos = s.rpos := rfl
@[simp] theorem State.setReg_lastn (r : Reg) (v : W64) : (s.setReg r v).lastn = s.lastn := rfl
@[simp] theorem State.setReg_ftlen (r : Reg) (v : W64) : (s.setReg r v).ftlen = s.ftlen := rfl
@[simp] theorem State.setReg_fdlen (r : Reg) (v : W64) : (s.setReg r v).fdlen = s.fdlen := rfl
@[simp] theorem State.setReg_rxend (r : Reg) (v : W64) : (s.setReg r v).rxend = s.rxend := rfl
@[simp] theorem State.setReg_rxerr (r : Reg) (v : W64) : (s.setReg r v).rxerr = s.rxerr := rfl
@[simp] theorem State.setReg_txerr (r : Reg) (v : W64) : (s.setReg r v).txerr = s.txerr := rfl
@[simp] theorem State.setReg_rt (r : Reg) (v : W64) : (s.setReg r v).rt = s.rt := rfl
@[simp] theorem State.setReg_bld (r : Reg) (v : W64) : (s.setReg r v).bld = s.bld := rfl
@[simp] theorem State.setReg_pay (r : Reg) (v : W64) : (s.setReg r v).pay = s.pay := rfl
@[simp] theorem State.setReg_scr (r : Reg) (v : W64) : (s.setReg r v).scr = s.scr := rfl
@[simp] theorem State.setReg_rxq (r : Reg) (v : W64) : (s.setReg r v).rxq = s.rxq := rfl
@[simp] theorem State.setReg_txq (r : Reg) (v : W64) : (s.setReg r v).txq = s.txq := rfl
@[simp] theorem State.setReg_cur (r : Reg) (v : W64) : (s.setReg r v).cur = s.cur := rfl
@[simp] theorem State.setReg_tl (r : Reg) (v : W64) : (s.setReg r v).tl = s.tl := rfl
@[simp] theorem State.setReg_rx (r : Reg) (v : W64) : (s.setReg r v).rx = s.rx := rfl
@[simp] theorem State.setReg_rst (r : Reg) (v : W64) : (s.setReg r v).rst = s.rst := rfl
@[simp] theorem State.setReg_params (r : Reg) (v : W64) : (s.setReg r v).params = s.params := rfl
@[simp] theorem State.setReg_resets (r : Reg) (v : W64) : (s.setReg r v).resets = s.resets := rfl
@[simp] theorem State.setReg_bus (r : Reg) (v : W64) : (s.setReg r v).bus = s.bus := rfl
@[simp] theorem State.setReg_wire (r : Reg) (v : W64) : (s.setReg r v).wire = s.wire := rfl
@[simp] theorem State.setReg_sched (r : Reg) (v : W64) : (s.setReg r v).sched = s.sched := rfl

/-! ### `State.appendBld` -/

@[simp] theorem State.appendBld_x (b : Bytes) : (s.appendBld b).x = s.x := rfl
@[simp] theorem State.appendBld_busy (b : Bytes) : (s.appendBld b).busy = s.busy := rfl
@[simp] theorem State.appendBld_closed (b : Bytes) : (s.appendBld b).closed = s.closed := rfl
@[simp] theorem State.appendBld_fvalid (b : Bytes) : (s.appendBld b).fvalid = s.fvalid := rfl
@[simp] theorem State.appendBld_fcomp (b : Bytes) : (s.appendBld b).fcomp = s.fcomp := rfl
@[simp] theorem State.appendBld_ovr (b : Bytes) : (s.appendBld b).ovr = s.ovr := rfl
@[simp] theorem State.appendBld_err (b : Bytes) : (s.appendBld b).err = s.err := rfl
@[simp] theorem State.appendBld_errinfo (b : Bytes) : (s.appendBld b).errinfo = s.errinfo := rfl
@[simp] theorem State.appendBld_esticky (b : Bytes) : (s.appendBld b).esticky = s.esticky := rfl
@[simp] theorem State.appendBld_ie (b : Bytes) : (s.appendBld b).ie = s.ie := rfl
@[simp] theorem State.appendBld_ip (b : Bytes) : (s.appendBld b).ip = s.ip := rfl
@[simp] theorem State.appendBld_cmdcnt (b : Bytes) : (s.appendBld b).cmdcnt = s.cmdcnt := rfl
@[simp] theorem State.appendBld_phase (b : Bytes) : (s.appendBld b).phase = s.phase := rfl
@[simp] theorem State.appendBld_thresh (b : Bytes) : (s.appendBld b).thresh = s.thresh := rfl
@[simp] theorem State.appendBld_opc (b : Bytes) : (s.appendBld b).opc = s.opc := rfl
@[simp] theorem State.appendBld_route (b : Bytes) : (s.appendBld b).route = s.route := rfl
@[simp] theorem State.appendBld_rpos (b : Bytes) : (s.appendBld b).rpos = s.rpos := rfl
@[simp] theorem State.appendBld_lastn (b : Bytes) : (s.appendBld b).lastn = word32 b.length := rfl
@[simp] theorem State.appendBld_ftlen (b : Bytes) : (s.appendBld b).ftlen = s.ftlen := rfl
@[simp] theorem State.appendBld_fdlen (b : Bytes) : (s.appendBld b).fdlen = s.fdlen := rfl
@[simp] theorem State.appendBld_rxend (b : Bytes) : (s.appendBld b).rxend = s.rxend := rfl
@[simp] theorem State.appendBld_rxerr (b : Bytes) : (s.appendBld b).rxerr = s.rxerr := rfl
@[simp] theorem State.appendBld_txerr (b : Bytes) : (s.appendBld b).txerr = s.txerr := rfl
@[simp] theorem State.appendBld_rt (b : Bytes) : (s.appendBld b).rt = s.rt := rfl
@[simp] theorem State.appendBld_bld (b : Bytes) : (s.appendBld b).bld = s.bld ++ b := rfl
@[simp] theorem State.appendBld_pay (b : Bytes) : (s.appendBld b).pay = s.pay := rfl
@[simp] theorem State.appendBld_scr (b : Bytes) : (s.appendBld b).scr = s.scr := rfl
@[simp] theorem State.appendBld_rxq (b : Bytes) : (s.appendBld b).rxq = s.rxq := rfl
@[simp] theorem State.appendBld_txq (b : Bytes) : (s.appendBld b).txq = s.txq := rfl
@[simp] theorem State.appendBld_cur (b : Bytes) : (s.appendBld b).cur = s.cur := rfl
@[simp] theorem State.appendBld_tl (b : Bytes) : (s.appendBld b).tl = s.tl := rfl
@[simp] theorem State.appendBld_rx (b : Bytes) : (s.appendBld b).rx = s.rx := rfl
@[simp] theorem State.appendBld_rst (b : Bytes) : (s.appendBld b).rst = s.rst := rfl
@[simp] theorem State.appendBld_params (b : Bytes) : (s.appendBld b).params = s.params := rfl
@[simp] theorem State.appendBld_resets (b : Bytes) : (s.appendBld b).resets = s.resets := rfl
@[simp] theorem State.appendBld_bus (b : Bytes) : (s.appendBld b).bus = s.bus := rfl
@[simp] theorem State.appendBld_wire (b : Bytes) : (s.appendBld b).wire = s.wire := rfl
@[simp] theorem State.appendBld_sched (b : Bytes) : (s.appendBld b).sched = s.sched := rfl

/-! ### `State.advance` -/

@[simp] theorem State.advance_x (n : Nat) : (s.advance n).x = s.x := rfl
@[simp] theorem State.advance_busy (n : Nat) : (s.advance n).busy = s.busy := rfl
@[simp] theorem State.advance_closed (n : Nat) : (s.advance n).closed = s.closed := rfl
@[simp] theorem State.advance_fvalid (n : Nat) : (s.advance n).fvalid = s.fvalid := rfl
@[simp] theorem State.advance_fcomp (n : Nat) : (s.advance n).fcomp = s.fcomp := rfl
@[simp] theorem State.advance_ovr (n : Nat) : (s.advance n).ovr = s.ovr := rfl
@[simp] theorem State.advance_err (n : Nat) : (s.advance n).err = s.err := rfl
@[simp] theorem State.advance_errinfo (n : Nat) : (s.advance n).errinfo = s.errinfo := rfl
@[simp] theorem State.advance_esticky (n : Nat) : (s.advance n).esticky = s.esticky := rfl
@[simp] theorem State.advance_ie (n : Nat) : (s.advance n).ie = s.ie := rfl
@[simp] theorem State.advance_ip (n : Nat) : (s.advance n).ip = s.ip := rfl
@[simp] theorem State.advance_cmdcnt (n : Nat) : (s.advance n).cmdcnt = s.cmdcnt := rfl
@[simp] theorem State.advance_phase (n : Nat) : (s.advance n).phase = s.phase := rfl
@[simp] theorem State.advance_thresh (n : Nat) : (s.advance n).thresh = s.thresh := rfl
@[simp] theorem State.advance_opc (n : Nat) : (s.advance n).opc = s.opc := rfl
@[simp] theorem State.advance_route (n : Nat) : (s.advance n).route = s.route := rfl
@[simp] theorem State.advance_rpos (n : Nat) : (s.advance n).rpos = s.rpos + n := rfl
@[simp] theorem State.advance_lastn (n : Nat) : (s.advance n).lastn = word32 n := rfl
@[simp] theorem State.advance_ftlen (n : Nat) : (s.advance n).ftlen = s.ftlen := rfl
@[simp] theorem State.advance_fdlen (n : Nat) : (s.advance n).fdlen = s.fdlen := rfl
@[simp] theorem State.advance_rxend (n : Nat) : (s.advance n).rxend = s.rxend := rfl
@[simp] theorem State.advance_rxerr (n : Nat) : (s.advance n).rxerr = s.rxerr := rfl
@[simp] theorem State.advance_txerr (n : Nat) : (s.advance n).txerr = s.txerr := rfl
@[simp] theorem State.advance_rt (n : Nat) : (s.advance n).rt = s.rt := rfl
@[simp] theorem State.advance_bld (n : Nat) : (s.advance n).bld = s.bld := rfl
@[simp] theorem State.advance_pay (n : Nat) : (s.advance n).pay = s.pay := rfl
@[simp] theorem State.advance_scr (n : Nat) : (s.advance n).scr = s.scr := rfl
@[simp] theorem State.advance_rxq (n : Nat) : (s.advance n).rxq = s.rxq := rfl
@[simp] theorem State.advance_txq (n : Nat) : (s.advance n).txq = s.txq := rfl
@[simp] theorem State.advance_cur (n : Nat) : (s.advance n).cur = s.cur := rfl
@[simp] theorem State.advance_tl (n : Nat) : (s.advance n).tl = s.tl := rfl
@[simp] theorem State.advance_rx (n : Nat) : (s.advance n).rx = s.rx := rfl
@[simp] theorem State.advance_rst (n : Nat) : (s.advance n).rst = s.rst := rfl
@[simp] theorem State.advance_params (n : Nat) : (s.advance n).params = s.params := rfl
@[simp] theorem State.advance_resets (n : Nat) : (s.advance n).resets = s.resets := rfl
@[simp] theorem State.advance_bus (n : Nat) : (s.advance n).bus = s.bus := rfl
@[simp] theorem State.advance_wire (n : Nat) : (s.advance n).wire = s.wire := rfl
@[simp] theorem State.advance_sched (n : Nat) : (s.advance n).sched = s.sched := rfl

/-! ### `State.setScr` -/

@[simp] theorem State.setScr_x (m : Mem) : (s.setScr m).x = s.x := rfl
@[simp] theorem State.setScr_busy (m : Mem) : (s.setScr m).busy = s.busy := rfl
@[simp] theorem State.setScr_closed (m : Mem) : (s.setScr m).closed = s.closed := rfl
@[simp] theorem State.setScr_fvalid (m : Mem) : (s.setScr m).fvalid = s.fvalid := rfl
@[simp] theorem State.setScr_fcomp (m : Mem) : (s.setScr m).fcomp = s.fcomp := rfl
@[simp] theorem State.setScr_ovr (m : Mem) : (s.setScr m).ovr = s.ovr := rfl
@[simp] theorem State.setScr_err (m : Mem) : (s.setScr m).err = s.err := rfl
@[simp] theorem State.setScr_errinfo (m : Mem) : (s.setScr m).errinfo = s.errinfo := rfl
@[simp] theorem State.setScr_esticky (m : Mem) : (s.setScr m).esticky = s.esticky := rfl
@[simp] theorem State.setScr_ie (m : Mem) : (s.setScr m).ie = s.ie := rfl
@[simp] theorem State.setScr_ip (m : Mem) : (s.setScr m).ip = s.ip := rfl
@[simp] theorem State.setScr_cmdcnt (m : Mem) : (s.setScr m).cmdcnt = s.cmdcnt := rfl
@[simp] theorem State.setScr_phase (m : Mem) : (s.setScr m).phase = s.phase := rfl
@[simp] theorem State.setScr_thresh (m : Mem) : (s.setScr m).thresh = s.thresh := rfl
@[simp] theorem State.setScr_opc (m : Mem) : (s.setScr m).opc = s.opc := rfl
@[simp] theorem State.setScr_route (m : Mem) : (s.setScr m).route = s.route := rfl
@[simp] theorem State.setScr_rpos (m : Mem) : (s.setScr m).rpos = s.rpos := rfl
@[simp] theorem State.setScr_lastn (m : Mem) : (s.setScr m).lastn = s.lastn := rfl
@[simp] theorem State.setScr_ftlen (m : Mem) : (s.setScr m).ftlen = s.ftlen := rfl
@[simp] theorem State.setScr_fdlen (m : Mem) : (s.setScr m).fdlen = s.fdlen := rfl
@[simp] theorem State.setScr_rxend (m : Mem) : (s.setScr m).rxend = s.rxend := rfl
@[simp] theorem State.setScr_rxerr (m : Mem) : (s.setScr m).rxerr = s.rxerr := rfl
@[simp] theorem State.setScr_txerr (m : Mem) : (s.setScr m).txerr = s.txerr := rfl
@[simp] theorem State.setScr_rt (m : Mem) : (s.setScr m).rt = s.rt := rfl
@[simp] theorem State.setScr_bld (m : Mem) : (s.setScr m).bld = s.bld := rfl
@[simp] theorem State.setScr_pay (m : Mem) : (s.setScr m).pay = s.pay := rfl
@[simp] theorem State.setScr_scr (m : Mem) : (s.setScr m).scr = m := rfl
@[simp] theorem State.setScr_rxq (m : Mem) : (s.setScr m).rxq = s.rxq := rfl
@[simp] theorem State.setScr_txq (m : Mem) : (s.setScr m).txq = s.txq := rfl
@[simp] theorem State.setScr_cur (m : Mem) : (s.setScr m).cur = s.cur := rfl
@[simp] theorem State.setScr_tl (m : Mem) : (s.setScr m).tl = s.tl := rfl
@[simp] theorem State.setScr_rx (m : Mem) : (s.setScr m).rx = s.rx := rfl
@[simp] theorem State.setScr_rst (m : Mem) : (s.setScr m).rst = s.rst := rfl
@[simp] theorem State.setScr_params (m : Mem) : (s.setScr m).params = s.params := rfl
@[simp] theorem State.setScr_resets (m : Mem) : (s.setScr m).resets = s.resets := rfl
@[simp] theorem State.setScr_bus (m : Mem) : (s.setScr m).bus = s.bus := rfl
@[simp] theorem State.setScr_wire (m : Mem) : (s.setScr m).wire = s.wire := rfl
@[simp] theorem State.setScr_sched (m : Mem) : (s.setScr m).sched = s.sched := rfl

/-! ### `State.setPhase` -/

@[simp] theorem State.setPhase_x (p : Phase) : (s.setPhase p).x = s.x := rfl
@[simp] theorem State.setPhase_busy (p : Phase) : (s.setPhase p).busy = s.busy := rfl
@[simp] theorem State.setPhase_closed (p : Phase) : (s.setPhase p).closed = s.closed := rfl
@[simp] theorem State.setPhase_fvalid (p : Phase) : (s.setPhase p).fvalid = s.fvalid := rfl
@[simp] theorem State.setPhase_fcomp (p : Phase) : (s.setPhase p).fcomp = s.fcomp := rfl
@[simp] theorem State.setPhase_ovr (p : Phase) : (s.setPhase p).ovr = s.ovr := rfl
@[simp] theorem State.setPhase_err (p : Phase) : (s.setPhase p).err = s.err := rfl
@[simp] theorem State.setPhase_errinfo (p : Phase) : (s.setPhase p).errinfo = s.errinfo := rfl
@[simp] theorem State.setPhase_esticky (p : Phase) : (s.setPhase p).esticky = s.esticky := rfl
@[simp] theorem State.setPhase_ie (p : Phase) : (s.setPhase p).ie = s.ie := rfl
@[simp] theorem State.setPhase_ip (p : Phase) : (s.setPhase p).ip = s.ip := rfl
@[simp] theorem State.setPhase_cmdcnt (p : Phase) : (s.setPhase p).cmdcnt = s.cmdcnt := rfl
@[simp] theorem State.setPhase_phase (p : Phase) : (s.setPhase p).phase = p := rfl
@[simp] theorem State.setPhase_thresh (p : Phase) : (s.setPhase p).thresh = s.thresh := rfl
@[simp] theorem State.setPhase_opc (p : Phase) : (s.setPhase p).opc = s.opc := rfl
@[simp] theorem State.setPhase_route (p : Phase) : (s.setPhase p).route = s.route := rfl
@[simp] theorem State.setPhase_rpos (p : Phase) : (s.setPhase p).rpos = s.rpos := rfl
@[simp] theorem State.setPhase_lastn (p : Phase) : (s.setPhase p).lastn = s.lastn := rfl
@[simp] theorem State.setPhase_ftlen (p : Phase) : (s.setPhase p).ftlen = s.ftlen := rfl
@[simp] theorem State.setPhase_fdlen (p : Phase) : (s.setPhase p).fdlen = s.fdlen := rfl
@[simp] theorem State.setPhase_rxend (p : Phase) : (s.setPhase p).rxend = s.rxend := rfl
@[simp] theorem State.setPhase_rxerr (p : Phase) : (s.setPhase p).rxerr = s.rxerr := rfl
@[simp] theorem State.setPhase_txerr (p : Phase) : (s.setPhase p).txerr = s.txerr := rfl
@[simp] theorem State.setPhase_rt (p : Phase) : (s.setPhase p).rt = s.rt := rfl
@[simp] theorem State.setPhase_bld (p : Phase) : (s.setPhase p).bld = s.bld := rfl
@[simp] theorem State.setPhase_pay (p : Phase) : (s.setPhase p).pay = s.pay := rfl
@[simp] theorem State.setPhase_scr (p : Phase) : (s.setPhase p).scr = s.scr := rfl
@[simp] theorem State.setPhase_rxq (p : Phase) : (s.setPhase p).rxq = s.rxq := rfl
@[simp] theorem State.setPhase_txq (p : Phase) : (s.setPhase p).txq = s.txq := rfl
@[simp] theorem State.setPhase_cur (p : Phase) : (s.setPhase p).cur = s.cur := rfl
@[simp] theorem State.setPhase_tl (p : Phase) : (s.setPhase p).tl = s.tl := rfl
@[simp] theorem State.setPhase_rx (p : Phase) : (s.setPhase p).rx = s.rx := rfl
@[simp] theorem State.setPhase_rst (p : Phase) : (s.setPhase p).rst = s.rst := rfl
@[simp] theorem State.setPhase_params (p : Phase) : (s.setPhase p).params = s.params := rfl
@[simp] theorem State.setPhase_resets (p : Phase) : (s.setPhase p).resets = s.resets := rfl
@[simp] theorem State.setPhase_bus (p : Phase) : (s.setPhase p).bus = s.bus := rfl
@[simp] theorem State.setPhase_wire (p : Phase) : (s.setPhase p).wire = s.wire := rfl
@[simp] theorem State.setPhase_sched (p : Phase) : (s.setPhase p).sched = s.sched := rfl

/-! ### `State.setThresh` -/

@[simp] theorem State.setThresh_x (v : W32) : (s.setThresh v).x = s.x := rfl
@[simp] theorem State.setThresh_busy (v : W32) : (s.setThresh v).busy = s.busy := rfl
@[simp] theorem State.setThresh_closed (v : W32) : (s.setThresh v).closed = s.closed := rfl
@[simp] theorem State.setThresh_fvalid (v : W32) : (s.setThresh v).fvalid = s.fvalid := rfl
@[simp] theorem State.setThresh_fcomp (v : W32) : (s.setThresh v).fcomp = s.fcomp := rfl
@[simp] theorem State.setThresh_ovr (v : W32) : (s.setThresh v).ovr = s.ovr := rfl
@[simp] theorem State.setThresh_err (v : W32) : (s.setThresh v).err = s.err := rfl
@[simp] theorem State.setThresh_errinfo (v : W32) : (s.setThresh v).errinfo = s.errinfo := rfl
@[simp] theorem State.setThresh_esticky (v : W32) : (s.setThresh v).esticky = s.esticky := rfl
@[simp] theorem State.setThresh_ie (v : W32) : (s.setThresh v).ie = s.ie := rfl
@[simp] theorem State.setThresh_ip (v : W32) : (s.setThresh v).ip = s.ip := rfl
@[simp] theorem State.setThresh_cmdcnt (v : W32) : (s.setThresh v).cmdcnt = s.cmdcnt := rfl
@[simp] theorem State.setThresh_phase (v : W32) : (s.setThresh v).phase = s.phase := rfl
@[simp] theorem State.setThresh_thresh (v : W32) : (s.setThresh v).thresh = v := rfl
@[simp] theorem State.setThresh_opc (v : W32) : (s.setThresh v).opc = s.opc := rfl
@[simp] theorem State.setThresh_route (v : W32) : (s.setThresh v).route = s.route := rfl
@[simp] theorem State.setThresh_rpos (v : W32) : (s.setThresh v).rpos = s.rpos := rfl
@[simp] theorem State.setThresh_lastn (v : W32) : (s.setThresh v).lastn = s.lastn := rfl
@[simp] theorem State.setThresh_ftlen (v : W32) : (s.setThresh v).ftlen = s.ftlen := rfl
@[simp] theorem State.setThresh_fdlen (v : W32) : (s.setThresh v).fdlen = s.fdlen := rfl
@[simp] theorem State.setThresh_rxend (v : W32) : (s.setThresh v).rxend = s.rxend := rfl
@[simp] theorem State.setThresh_rxerr (v : W32) : (s.setThresh v).rxerr = s.rxerr := rfl
@[simp] theorem State.setThresh_txerr (v : W32) : (s.setThresh v).txerr = s.txerr := rfl
@[simp] theorem State.setThresh_rt (v : W32) : (s.setThresh v).rt = s.rt := rfl
@[simp] theorem State.setThresh_bld (v : W32) : (s.setThresh v).bld = s.bld := rfl
@[simp] theorem State.setThresh_pay (v : W32) : (s.setThresh v).pay = s.pay := rfl
@[simp] theorem State.setThresh_scr (v : W32) : (s.setThresh v).scr = s.scr := rfl
@[simp] theorem State.setThresh_rxq (v : W32) : (s.setThresh v).rxq = s.rxq := rfl
@[simp] theorem State.setThresh_txq (v : W32) : (s.setThresh v).txq = s.txq := rfl
@[simp] theorem State.setThresh_cur (v : W32) : (s.setThresh v).cur = s.cur := rfl
@[simp] theorem State.setThresh_tl (v : W32) : (s.setThresh v).tl = s.tl := rfl
@[simp] theorem State.setThresh_rx (v : W32) : (s.setThresh v).rx = s.rx := rfl
@[simp] theorem State.setThresh_rst (v : W32) : (s.setThresh v).rst = s.rst := rfl
@[simp] theorem State.setThresh_params (v : W32) : (s.setThresh v).params = s.params := rfl
@[simp] theorem State.setThresh_resets (v : W32) : (s.setThresh v).resets = s.resets := rfl
@[simp] theorem State.setThresh_bus (v : W32) : (s.setThresh v).bus = s.bus := rfl
@[simp] theorem State.setThresh_wire (v : W32) : (s.setThresh v).wire = s.wire := rfl
@[simp] theorem State.setThresh_sched (v : W32) : (s.setThresh v).sched = s.sched := rfl

/-! ### `State.setRoute` -/

@[simp] theorem State.setRoute_x (r : BitVec 8) : (s.setRoute r).x = s.x := rfl
@[simp] theorem State.setRoute_busy (r : BitVec 8) : (s.setRoute r).busy = s.busy := rfl
@[simp] theorem State.setRoute_closed (r : BitVec 8) : (s.setRoute r).closed = s.closed := rfl
@[simp] theorem State.setRoute_fvalid (r : BitVec 8) : (s.setRoute r).fvalid = s.fvalid := rfl
@[simp] theorem State.setRoute_fcomp (r : BitVec 8) : (s.setRoute r).fcomp = s.fcomp := rfl
@[simp] theorem State.setRoute_ovr (r : BitVec 8) : (s.setRoute r).ovr = s.ovr := rfl
@[simp] theorem State.setRoute_err (r : BitVec 8) : (s.setRoute r).err = s.err := rfl
@[simp] theorem State.setRoute_errinfo (r : BitVec 8) : (s.setRoute r).errinfo = s.errinfo := rfl
@[simp] theorem State.setRoute_esticky (r : BitVec 8) : (s.setRoute r).esticky = s.esticky := rfl
@[simp] theorem State.setRoute_ie (r : BitVec 8) : (s.setRoute r).ie = s.ie := rfl
@[simp] theorem State.setRoute_ip (r : BitVec 8) : (s.setRoute r).ip = s.ip := rfl
@[simp] theorem State.setRoute_cmdcnt (r : BitVec 8) : (s.setRoute r).cmdcnt = s.cmdcnt := rfl
@[simp] theorem State.setRoute_phase (r : BitVec 8) : (s.setRoute r).phase = s.phase := rfl
@[simp] theorem State.setRoute_thresh (r : BitVec 8) : (s.setRoute r).thresh = s.thresh := rfl
@[simp] theorem State.setRoute_opc (r : BitVec 8) : (s.setRoute r).opc = s.opc := rfl
@[simp] theorem State.setRoute_route (r : BitVec 8) : (s.setRoute r).route = r := rfl
@[simp] theorem State.setRoute_rpos (r : BitVec 8) : (s.setRoute r).rpos = s.rpos := rfl
@[simp] theorem State.setRoute_lastn (r : BitVec 8) : (s.setRoute r).lastn = s.lastn := rfl
@[simp] theorem State.setRoute_ftlen (r : BitVec 8) : (s.setRoute r).ftlen = s.ftlen := rfl
@[simp] theorem State.setRoute_fdlen (r : BitVec 8) : (s.setRoute r).fdlen = s.fdlen := rfl
@[simp] theorem State.setRoute_rxend (r : BitVec 8) : (s.setRoute r).rxend = s.rxend := rfl
@[simp] theorem State.setRoute_rxerr (r : BitVec 8) : (s.setRoute r).rxerr = s.rxerr := rfl
@[simp] theorem State.setRoute_txerr (r : BitVec 8) : (s.setRoute r).txerr = s.txerr := rfl
@[simp] theorem State.setRoute_rt (r : BitVec 8) : (s.setRoute r).rt = s.rt := rfl
@[simp] theorem State.setRoute_bld (r : BitVec 8) : (s.setRoute r).bld = s.bld := rfl
@[simp] theorem State.setRoute_pay (r : BitVec 8) : (s.setRoute r).pay = s.pay := rfl
@[simp] theorem State.setRoute_scr (r : BitVec 8) : (s.setRoute r).scr = s.scr := rfl
@[simp] theorem State.setRoute_rxq (r : BitVec 8) : (s.setRoute r).rxq = s.rxq := rfl
@[simp] theorem State.setRoute_txq (r : BitVec 8) : (s.setRoute r).txq = s.txq := rfl
@[simp] theorem State.setRoute_cur (r : BitVec 8) : (s.setRoute r).cur = s.cur := rfl
@[simp] theorem State.setRoute_tl (r : BitVec 8) : (s.setRoute r).tl = s.tl := rfl
@[simp] theorem State.setRoute_rx (r : BitVec 8) : (s.setRoute r).rx = s.rx := rfl
@[simp] theorem State.setRoute_rst (r : BitVec 8) : (s.setRoute r).rst = s.rst := rfl
@[simp] theorem State.setRoute_params (r : BitVec 8) : (s.setRoute r).params = s.params := rfl
@[simp] theorem State.setRoute_resets (r : BitVec 8) : (s.setRoute r).resets = s.resets := rfl
@[simp] theorem State.setRoute_bus (r : BitVec 8) : (s.setRoute r).bus = s.bus := rfl
@[simp] theorem State.setRoute_wire (r : BitVec 8) : (s.setRoute r).wire = s.wire := rfl
@[simp] theorem State.setRoute_sched (r : BitVec 8) : (s.setRoute r).sched = s.sched := rfl

/-! ### `State.setRpos` -/

@[simp] theorem State.setRpos_x (n : Nat) : (s.setRpos n).x = s.x := rfl
@[simp] theorem State.setRpos_busy (n : Nat) : (s.setRpos n).busy = s.busy := rfl
@[simp] theorem State.setRpos_closed (n : Nat) : (s.setRpos n).closed = s.closed := rfl
@[simp] theorem State.setRpos_fvalid (n : Nat) : (s.setRpos n).fvalid = s.fvalid := rfl
@[simp] theorem State.setRpos_fcomp (n : Nat) : (s.setRpos n).fcomp = s.fcomp := rfl
@[simp] theorem State.setRpos_ovr (n : Nat) : (s.setRpos n).ovr = s.ovr := rfl
@[simp] theorem State.setRpos_err (n : Nat) : (s.setRpos n).err = s.err := rfl
@[simp] theorem State.setRpos_errinfo (n : Nat) : (s.setRpos n).errinfo = s.errinfo := rfl
@[simp] theorem State.setRpos_esticky (n : Nat) : (s.setRpos n).esticky = s.esticky := rfl
@[simp] theorem State.setRpos_ie (n : Nat) : (s.setRpos n).ie = s.ie := rfl
@[simp] theorem State.setRpos_ip (n : Nat) : (s.setRpos n).ip = s.ip := rfl
@[simp] theorem State.setRpos_cmdcnt (n : Nat) : (s.setRpos n).cmdcnt = s.cmdcnt := rfl
@[simp] theorem State.setRpos_phase (n : Nat) : (s.setRpos n).phase = s.phase := rfl
@[simp] theorem State.setRpos_thresh (n : Nat) : (s.setRpos n).thresh = s.thresh := rfl
@[simp] theorem State.setRpos_opc (n : Nat) : (s.setRpos n).opc = s.opc := rfl
@[simp] theorem State.setRpos_route (n : Nat) : (s.setRpos n).route = s.route := rfl
@[simp] theorem State.setRpos_rpos (n : Nat) : (s.setRpos n).rpos = n := rfl
@[simp] theorem State.setRpos_lastn (n : Nat) : (s.setRpos n).lastn = s.lastn := rfl
@[simp] theorem State.setRpos_ftlen (n : Nat) : (s.setRpos n).ftlen = s.ftlen := rfl
@[simp] theorem State.setRpos_fdlen (n : Nat) : (s.setRpos n).fdlen = s.fdlen := rfl
@[simp] theorem State.setRpos_rxend (n : Nat) : (s.setRpos n).rxend = s.rxend := rfl
@[simp] theorem State.setRpos_rxerr (n : Nat) : (s.setRpos n).rxerr = s.rxerr := rfl
@[simp] theorem State.setRpos_txerr (n : Nat) : (s.setRpos n).txerr = s.txerr := rfl
@[simp] theorem State.setRpos_rt (n : Nat) : (s.setRpos n).rt = s.rt := rfl
@[simp] theorem State.setRpos_bld (n : Nat) : (s.setRpos n).bld = s.bld := rfl
@[simp] theorem State.setRpos_pay (n : Nat) : (s.setRpos n).pay = s.pay := rfl
@[simp] theorem State.setRpos_scr (n : Nat) : (s.setRpos n).scr = s.scr := rfl
@[simp] theorem State.setRpos_rxq (n : Nat) : (s.setRpos n).rxq = s.rxq := rfl
@[simp] theorem State.setRpos_txq (n : Nat) : (s.setRpos n).txq = s.txq := rfl
@[simp] theorem State.setRpos_cur (n : Nat) : (s.setRpos n).cur = s.cur := rfl
@[simp] theorem State.setRpos_tl (n : Nat) : (s.setRpos n).tl = s.tl := rfl
@[simp] theorem State.setRpos_rx (n : Nat) : (s.setRpos n).rx = s.rx := rfl
@[simp] theorem State.setRpos_rst (n : Nat) : (s.setRpos n).rst = s.rst := rfl
@[simp] theorem State.setRpos_params (n : Nat) : (s.setRpos n).params = s.params := rfl
@[simp] theorem State.setRpos_resets (n : Nat) : (s.setRpos n).resets = s.resets := rfl
@[simp] theorem State.setRpos_bus (n : Nat) : (s.setRpos n).bus = s.bus := rfl
@[simp] theorem State.setRpos_wire (n : Nat) : (s.setRpos n).wire = s.wire := rfl
@[simp] theorem State.setRpos_sched (n : Nat) : (s.setRpos n).sched = s.sched := rfl

/-! ### `State.clearBld` -/

@[simp] theorem State.clearBld_x : (s.clearBld).x = s.x := rfl
@[simp] theorem State.clearBld_busy : (s.clearBld).busy = s.busy := rfl
@[simp] theorem State.clearBld_closed : (s.clearBld).closed = s.closed := rfl
@[simp] theorem State.clearBld_fvalid : (s.clearBld).fvalid = s.fvalid := rfl
@[simp] theorem State.clearBld_fcomp : (s.clearBld).fcomp = s.fcomp := rfl
@[simp] theorem State.clearBld_ovr : (s.clearBld).ovr = s.ovr := rfl
@[simp] theorem State.clearBld_err : (s.clearBld).err = s.err := rfl
@[simp] theorem State.clearBld_errinfo : (s.clearBld).errinfo = s.errinfo := rfl
@[simp] theorem State.clearBld_esticky : (s.clearBld).esticky = s.esticky := rfl
@[simp] theorem State.clearBld_ie : (s.clearBld).ie = s.ie := rfl
@[simp] theorem State.clearBld_ip : (s.clearBld).ip = s.ip := rfl
@[simp] theorem State.clearBld_cmdcnt : (s.clearBld).cmdcnt = s.cmdcnt := rfl
@[simp] theorem State.clearBld_phase : (s.clearBld).phase = s.phase := rfl
@[simp] theorem State.clearBld_thresh : (s.clearBld).thresh = s.thresh := rfl
@[simp] theorem State.clearBld_opc : (s.clearBld).opc = s.opc := rfl
@[simp] theorem State.clearBld_route : (s.clearBld).route = s.route := rfl
@[simp] theorem State.clearBld_rpos : (s.clearBld).rpos = s.rpos := rfl
@[simp] theorem State.clearBld_lastn : (s.clearBld).lastn = s.lastn := rfl
@[simp] theorem State.clearBld_ftlen : (s.clearBld).ftlen = s.ftlen := rfl
@[simp] theorem State.clearBld_fdlen : (s.clearBld).fdlen = s.fdlen := rfl
@[simp] theorem State.clearBld_rxend : (s.clearBld).rxend = s.rxend := rfl
@[simp] theorem State.clearBld_rxerr : (s.clearBld).rxerr = s.rxerr := rfl
@[simp] theorem State.clearBld_txerr : (s.clearBld).txerr = s.txerr := rfl
@[simp] theorem State.clearBld_rt : (s.clearBld).rt = s.rt := rfl
@[simp] theorem State.clearBld_bld : (s.clearBld).bld = [] := rfl
@[simp] theorem State.clearBld_pay : (s.clearBld).pay = s.pay := rfl
@[simp] theorem State.clearBld_scr : (s.clearBld).scr = s.scr := rfl
@[simp] theorem State.clearBld_rxq : (s.clearBld).rxq = s.rxq := rfl
@[simp] theorem State.clearBld_txq : (s.clearBld).txq = s.txq := rfl
@[simp] theorem State.clearBld_cur : (s.clearBld).cur = s.cur := rfl
@[simp] theorem State.clearBld_tl : (s.clearBld).tl = s.tl := rfl
@[simp] theorem State.clearBld_rx : (s.clearBld).rx = s.rx := rfl
@[simp] theorem State.clearBld_rst : (s.clearBld).rst = s.rst := rfl
@[simp] theorem State.clearBld_params : (s.clearBld).params = s.params := rfl
@[simp] theorem State.clearBld_resets : (s.clearBld).resets = s.resets := rfl
@[simp] theorem State.clearBld_bus : (s.clearBld).bus = s.bus := rfl
@[simp] theorem State.clearBld_wire : (s.clearBld).wire = s.wire := rfl
@[simp] theorem State.clearBld_sched : (s.clearBld).sched = s.sched := rfl

/-! ### `State.loadPay` -/

@[simp] theorem State.loadPay_x : (s.loadPay).x = s.x := rfl
@[simp] theorem State.loadPay_busy : (s.loadPay).busy = s.busy := rfl
@[simp] theorem State.loadPay_closed : (s.loadPay).closed = s.closed := rfl
@[simp] theorem State.loadPay_fvalid : (s.loadPay).fvalid = false := rfl
@[simp] theorem State.loadPay_fcomp : (s.loadPay).fcomp = s.fcomp := rfl
@[simp] theorem State.loadPay_ovr : (s.loadPay).ovr = s.ovr := rfl
@[simp] theorem State.loadPay_err : (s.loadPay).err = s.err := rfl
@[simp] theorem State.loadPay_errinfo : (s.loadPay).errinfo = s.errinfo := rfl
@[simp] theorem State.loadPay_esticky : (s.loadPay).esticky = s.esticky := rfl
@[simp] theorem State.loadPay_ie : (s.loadPay).ie = s.ie := rfl
@[simp] theorem State.loadPay_ip : (s.loadPay).ip = s.ip := rfl
@[simp] theorem State.loadPay_cmdcnt : (s.loadPay).cmdcnt = s.cmdcnt := rfl
@[simp] theorem State.loadPay_phase : (s.loadPay).phase = s.phase := rfl
@[simp] theorem State.loadPay_thresh : (s.loadPay).thresh = s.thresh := rfl
@[simp] theorem State.loadPay_opc : (s.loadPay).opc = s.opc := rfl
@[simp] theorem State.loadPay_route : (s.loadPay).route = s.route := rfl
@[simp] theorem State.loadPay_rpos : (s.loadPay).rpos = 0 := rfl
@[simp] theorem State.loadPay_lastn : (s.loadPay).lastn = s.lastn := rfl
@[simp] theorem State.loadPay_ftlen : (s.loadPay).ftlen = s.ftlen := rfl
@[simp] theorem State.loadPay_fdlen : (s.loadPay).fdlen = s.fdlen := rfl
@[simp] theorem State.loadPay_rxend : (s.loadPay).rxend = s.rxend := rfl
@[simp] theorem State.loadPay_rxerr : (s.loadPay).rxerr = s.rxerr := rfl
@[simp] theorem State.loadPay_txerr : (s.loadPay).txerr = s.txerr := rfl
@[simp] theorem State.loadPay_rt : (s.loadPay).rt = s.rt := rfl
@[simp] theorem State.loadPay_bld : (s.loadPay).bld = s.bld := rfl
@[simp] theorem State.loadPay_pay : (s.loadPay).pay = s.bld := rfl
@[simp] theorem State.loadPay_scr : (s.loadPay).scr = s.scr := rfl
@[simp] theorem State.loadPay_rxq : (s.loadPay).rxq = s.rxq := rfl
@[simp] theorem State.loadPay_txq : (s.loadPay).txq = s.txq := rfl
@[simp] theorem State.loadPay_cur : (s.loadPay).cur = s.cur := rfl
@[simp] theorem State.loadPay_tl : (s.loadPay).tl = s.tl := rfl
@[simp] theorem State.loadPay_rx : (s.loadPay).rx = s.rx := rfl
@[simp] theorem State.loadPay_rst : (s.loadPay).rst = s.rst := rfl
@[simp] theorem State.loadPay_params : (s.loadPay).params = s.params := rfl
@[simp] theorem State.loadPay_resets : (s.loadPay).resets = s.resets := rfl
@[simp] theorem State.loadPay_bus : (s.loadPay).bus = s.bus := rfl
@[simp] theorem State.loadPay_wire : (s.loadPay).wire = s.wire := rfl
@[simp] theorem State.loadPay_sched : (s.loadPay).sched = s.sched := rfl

/-! ### `State.newConnection` -/

@[simp] theorem State.newConnection_x : (s.newConnection).x = s.x := rfl
@[simp] theorem State.newConnection_busy : (s.newConnection).busy = s.busy := rfl
@[simp] theorem State.newConnection_closed : (s.newConnection).closed = false := rfl
@[simp] theorem State.newConnection_fvalid : (s.newConnection).fvalid = false := rfl
@[simp] theorem State.newConnection_fcomp : (s.newConnection).fcomp = false := rfl
@[simp] theorem State.newConnection_ovr : (s.newConnection).ovr = s.ovr := rfl
@[simp] theorem State.newConnection_err : (s.newConnection).err = s.err := rfl
@[simp] theorem State.newConnection_errinfo : (s.newConnection).errinfo = s.errinfo := rfl
@[simp] theorem State.newConnection_esticky : (s.newConnection).esticky = s.esticky := rfl
@[simp] theorem State.newConnection_ie : (s.newConnection).ie = s.ie := rfl
@[simp] theorem State.newConnection_ip : (s.newConnection).ip = s.ip := rfl
@[simp] theorem State.newConnection_cmdcnt : (s.newConnection).cmdcnt = s.cmdcnt := rfl
@[simp] theorem State.newConnection_phase : (s.newConnection).phase = .handshake := rfl
@[simp] theorem State.newConnection_thresh : (s.newConnection).thresh = 0xFFFFFFFF := rfl
@[simp] theorem State.newConnection_opc : (s.newConnection).opc = s.opc := rfl
@[simp] theorem State.newConnection_route : (s.newConnection).route = 0 := rfl
@[simp] theorem State.newConnection_rpos : (s.newConnection).rpos = 0 := rfl
@[simp] theorem State.newConnection_lastn : (s.newConnection).lastn = 0 := rfl
@[simp] theorem State.newConnection_ftlen : (s.newConnection).ftlen = 0 := rfl
@[simp] theorem State.newConnection_fdlen : (s.newConnection).fdlen = 0 := rfl
@[simp] theorem State.newConnection_rxend : (s.newConnection).rxend = false := rfl
@[simp] theorem State.newConnection_rxerr : (s.newConnection).rxerr = false := rfl
@[simp] theorem State.newConnection_txerr : (s.newConnection).txerr = false := rfl
@[simp] theorem State.newConnection_rt : (s.newConnection).rt = s.rt := rfl
@[simp] theorem State.newConnection_bld : (s.newConnection).bld = [] := rfl
@[simp] theorem State.newConnection_pay : (s.newConnection).pay = [] := rfl
@[simp] theorem State.newConnection_scr : (s.newConnection).scr = s.scr := rfl
@[simp] theorem State.newConnection_rxq : (s.newConnection).rxq = [] := rfl
@[simp] theorem State.newConnection_txq : (s.newConnection).txq = [] := rfl
@[simp] theorem State.newConnection_cur : (s.newConnection).cur = s.cur := rfl
@[simp] theorem State.newConnection_tl : (s.newConnection).tl = s.tl := rfl
@[simp] theorem State.newConnection_rx : (s.newConnection).rx = s.rx := rfl
@[simp] theorem State.newConnection_rst : (s.newConnection).rst = s.rst := rfl
@[simp] theorem State.newConnection_params : (s.newConnection).params = s.params := rfl
@[simp] theorem State.newConnection_resets : (s.newConnection).resets = s.resets := rfl
@[simp] theorem State.newConnection_bus : (s.newConnection).bus = s.bus := rfl
@[simp] theorem State.newConnection_wire : (s.newConnection).wire = s.wire := rfl
@[simp] theorem State.newConnection_sched : (s.newConnection).sched = s.sched := rfl

/-! ### `State.emitFrame` -/

@[simp] theorem State.emitFrame_x (f : Bytes) : (s.emitFrame f).x = s.x := rfl
@[simp] theorem State.emitFrame_busy (f : Bytes) : (s.emitFrame f).busy = s.busy := rfl
@[simp] theorem State.emitFrame_closed (f : Bytes) : (s.emitFrame f).closed = s.closed := rfl
@[simp] theorem State.emitFrame_fvalid (f : Bytes) : (s.emitFrame f).fvalid = s.fvalid := rfl
@[simp] theorem State.emitFrame_fcomp (f : Bytes) : (s.emitFrame f).fcomp = s.fcomp := rfl
@[simp] theorem State.emitFrame_ovr (f : Bytes) : (s.emitFrame f).ovr = s.ovr := rfl
@[simp] theorem State.emitFrame_err (f : Bytes) : (s.emitFrame f).err = s.err := rfl
@[simp] theorem State.emitFrame_errinfo (f : Bytes) : (s.emitFrame f).errinfo = s.errinfo := rfl
@[simp] theorem State.emitFrame_esticky (f : Bytes) : (s.emitFrame f).esticky = s.esticky := rfl
@[simp] theorem State.emitFrame_ie (f : Bytes) : (s.emitFrame f).ie = s.ie := rfl
@[simp] theorem State.emitFrame_ip (f : Bytes) : (s.emitFrame f).ip = s.ip := rfl
@[simp] theorem State.emitFrame_cmdcnt (f : Bytes) : (s.emitFrame f).cmdcnt = s.cmdcnt := rfl
@[simp] theorem State.emitFrame_phase (f : Bytes) : (s.emitFrame f).phase = s.phase := rfl
@[simp] theorem State.emitFrame_thresh (f : Bytes) : (s.emitFrame f).thresh = s.thresh := rfl
@[simp] theorem State.emitFrame_opc (f : Bytes) : (s.emitFrame f).opc = s.opc := rfl
@[simp] theorem State.emitFrame_route (f : Bytes) : (s.emitFrame f).route = s.route := rfl
@[simp] theorem State.emitFrame_rpos (f : Bytes) : (s.emitFrame f).rpos = s.rpos := rfl
@[simp] theorem State.emitFrame_lastn (f : Bytes) : (s.emitFrame f).lastn = word32 f.length := rfl
@[simp] theorem State.emitFrame_ftlen (f : Bytes) : (s.emitFrame f).ftlen = s.ftlen := rfl
@[simp] theorem State.emitFrame_fdlen (f : Bytes) : (s.emitFrame f).fdlen = s.fdlen := rfl
@[simp] theorem State.emitFrame_rxend (f : Bytes) : (s.emitFrame f).rxend = s.rxend := rfl
@[simp] theorem State.emitFrame_rxerr (f : Bytes) : (s.emitFrame f).rxerr = s.rxerr := rfl
@[simp] theorem State.emitFrame_txerr (f : Bytes) : (s.emitFrame f).txerr = s.txerr := rfl
@[simp] theorem State.emitFrame_rt (f : Bytes) : (s.emitFrame f).rt = s.rt := rfl
@[simp] theorem State.emitFrame_bld (f : Bytes) : (s.emitFrame f).bld = [] := rfl
@[simp] theorem State.emitFrame_pay (f : Bytes) : (s.emitFrame f).pay = s.pay := rfl
@[simp] theorem State.emitFrame_scr (f : Bytes) : (s.emitFrame f).scr = s.scr := rfl
@[simp] theorem State.emitFrame_rxq (f : Bytes) : (s.emitFrame f).rxq = s.rxq := rfl
@[simp] theorem State.emitFrame_txq (f : Bytes) : (s.emitFrame f).txq = s.txq ++ f := rfl
@[simp] theorem State.emitFrame_cur (f : Bytes) : (s.emitFrame f).cur = s.cur := rfl
@[simp] theorem State.emitFrame_tl (f : Bytes) : (s.emitFrame f).tl = s.thresh := rfl
@[simp] theorem State.emitFrame_rx (f : Bytes) : (s.emitFrame f).rx = s.rx := rfl
@[simp] theorem State.emitFrame_rst (f : Bytes) : (s.emitFrame f).rst = s.rst := rfl
@[simp] theorem State.emitFrame_params (f : Bytes) : (s.emitFrame f).params = s.params := rfl
@[simp] theorem State.emitFrame_resets (f : Bytes) : (s.emitFrame f).resets = s.resets := rfl
@[simp] theorem State.emitFrame_bus (f : Bytes) : (s.emitFrame f).bus = s.bus := rfl
@[simp] theorem State.emitFrame_wire (f : Bytes) : (s.emitFrame f).wire = s.wire := rfl
@[simp] theorem State.emitFrame_sched (f : Bytes) : (s.emitFrame f).sched = s.sched := rfl

/-! ### `State.frameDone` -/

@[simp] theorem State.frameDone_x (n : W32) (f : FrameParts) : (s.frameDone n f).x = s.x := rfl
@[simp] theorem State.frameDone_busy (n : W32) (f : FrameParts) : (s.frameDone n f).busy = s.busy := rfl
@[simp] theorem State.frameDone_closed (n : W32) (f : FrameParts) : (s.frameDone n f).closed = s.closed := rfl
@[simp] theorem State.frameDone_fvalid (n : W32) (f : FrameParts) : (s.frameDone n f).fvalid = true := rfl
@[simp] theorem State.frameDone_fcomp (n : W32) (f : FrameParts) : (s.frameDone n f).fcomp = decide (0 ≤ s.tl.toInt) := rfl
@[simp] theorem State.frameDone_ovr (n : W32) (f : FrameParts) : (s.frameDone n f).ovr = s.ovr := rfl
@[simp] theorem State.frameDone_err (n : W32) (f : FrameParts) : (s.frameDone n f).err = s.err := rfl
@[simp] theorem State.frameDone_errinfo (n : W32) (f : FrameParts) : (s.frameDone n f).errinfo = s.errinfo := rfl
@[simp] theorem State.frameDone_esticky (n : W32) (f : FrameParts) : (s.frameDone n f).esticky = s.esticky := rfl
@[simp] theorem State.frameDone_ie (n : W32) (f : FrameParts) : (s.frameDone n f).ie = s.ie := rfl
@[simp] theorem State.frameDone_ip (n : W32) (f : FrameParts) : (s.frameDone n f).ip = s.ip := rfl
@[simp] theorem State.frameDone_cmdcnt (n : W32) (f : FrameParts) : (s.frameDone n f).cmdcnt = s.cmdcnt := rfl
@[simp] theorem State.frameDone_phase (n : W32) (f : FrameParts) : (s.frameDone n f).phase = s.phase := rfl
@[simp] theorem State.frameDone_thresh (n : W32) (f : FrameParts) : (s.frameDone n f).thresh = s.thresh := rfl
@[simp] theorem State.frameDone_opc (n : W32) (f : FrameParts) : (s.frameDone n f).opc = f.opcode := rfl
@[simp] theorem State.frameDone_route (n : W32) (f : FrameParts) : (s.frameDone n f).route = s.route := rfl
@[simp] theorem State.frameDone_rpos (n : W32) (f : FrameParts) : (s.frameDone n f).rpos = 0 := rfl
@[simp] theorem State.frameDone_lastn (n : W32) (f : FrameParts) : (s.frameDone n f).lastn = s.lastn := rfl
@[simp] theorem State.frameDone_ftlen (n : W32) (f : FrameParts) : (s.frameDone n f).ftlen = n := rfl
@[simp] theorem State.frameDone_fdlen (n : W32) (f : FrameParts) : (s.frameDone n f).fdlen = f.dlen := rfl
@[simp] theorem State.frameDone_rxend (n : W32) (f : FrameParts) : (s.frameDone n f).rxend = s.rxend := rfl
@[simp] theorem State.frameDone_rxerr (n : W32) (f : FrameParts) : (s.frameDone n f).rxerr = s.rxerr := rfl
@[simp] theorem State.frameDone_txerr (n : W32) (f : FrameParts) : (s.frameDone n f).txerr = s.txerr := rfl
@[simp] theorem State.frameDone_rt (n : W32) (f : FrameParts) : (s.frameDone n f).rt = s.rt := rfl
@[simp] theorem State.frameDone_bld (n : W32) (f : FrameParts) : (s.frameDone n f).bld = s.bld := rfl
@[simp] theorem State.frameDone_pay (n : W32) (f : FrameParts) : (s.frameDone n f).pay = f.payload := rfl
@[simp] theorem State.frameDone_scr (n : W32) (f : FrameParts) : (s.frameDone n f).scr = s.scr := rfl
@[simp] theorem State.frameDone_rxq (n : W32) (f : FrameParts) : (s.frameDone n f).rxq = s.rxq := rfl
@[simp] theorem State.frameDone_txq (n : W32) (f : FrameParts) : (s.frameDone n f).txq = s.txq := rfl
@[simp] theorem State.frameDone_cur (n : W32) (f : FrameParts) : (s.frameDone n f).cur = s.cur := rfl
@[simp] theorem State.frameDone_tl (n : W32) (f : FrameParts) : (s.frameDone n f).tl = s.tl := rfl
@[simp] theorem State.frameDone_rx (n : W32) (f : FrameParts) : (s.frameDone n f).rx = s.rx := rfl
@[simp] theorem State.frameDone_rst (n : W32) (f : FrameParts) : (s.frameDone n f).rst = s.rst := rfl
@[simp] theorem State.frameDone_params (n : W32) (f : FrameParts) : (s.frameDone n f).params = s.params := rfl
@[simp] theorem State.frameDone_resets (n : W32) (f : FrameParts) : (s.frameDone n f).resets = s.resets := rfl
@[simp] theorem State.frameDone_bus (n : W32) (f : FrameParts) : (s.frameDone n f).bus = s.bus := rfl
@[simp] theorem State.frameDone_wire (n : W32) (f : FrameParts) : (s.frameDone n f).wire = s.wire := rfl
@[simp] theorem State.frameDone_sched (n : W32) (f : FrameParts) : (s.frameDone n f).sched = s.sched := rfl

/-! ### `State.frameFailed` -/

@[simp] theorem State.frameFailed_x (n d : W32) : (s.frameFailed n d).x = s.x := rfl
@[simp] theorem State.frameFailed_busy (n d : W32) : (s.frameFailed n d).busy = s.busy := rfl
@[simp] theorem State.frameFailed_closed (n d : W32) : (s.frameFailed n d).closed = s.closed := rfl
@[simp] theorem State.frameFailed_fvalid (n d : W32) : (s.frameFailed n d).fvalid = false := rfl
@[simp] theorem State.frameFailed_fcomp (n d : W32) : (s.frameFailed n d).fcomp = s.fcomp := rfl
@[simp] theorem State.frameFailed_ovr (n d : W32) : (s.frameFailed n d).ovr = s.ovr := rfl
@[simp] theorem State.frameFailed_err (n d : W32) : (s.frameFailed n d).err = s.err := rfl
@[simp] theorem State.frameFailed_errinfo (n d : W32) : (s.frameFailed n d).errinfo = s.errinfo := rfl
@[simp] theorem State.frameFailed_esticky (n d : W32) : (s.frameFailed n d).esticky = s.esticky := rfl
@[simp] theorem State.frameFailed_ie (n d : W32) : (s.frameFailed n d).ie = s.ie := rfl
@[simp] theorem State.frameFailed_ip (n d : W32) : (s.frameFailed n d).ip = s.ip := rfl
@[simp] theorem State.frameFailed_cmdcnt (n d : W32) : (s.frameFailed n d).cmdcnt = s.cmdcnt := rfl
@[simp] theorem State.frameFailed_phase (n d : W32) : (s.frameFailed n d).phase = s.phase := rfl
@[simp] theorem State.frameFailed_thresh (n d : W32) : (s.frameFailed n d).thresh = s.thresh := rfl
@[simp] theorem State.frameFailed_opc (n d : W32) : (s.frameFailed n d).opc = s.opc := rfl
@[simp] theorem State.frameFailed_route (n d : W32) : (s.frameFailed n d).route = s.route := rfl
@[simp] theorem State.frameFailed_rpos (n d : W32) : (s.frameFailed n d).rpos = 0 := rfl
@[simp] theorem State.frameFailed_lastn (n d : W32) : (s.frameFailed n d).lastn = s.lastn := rfl
@[simp] theorem State.frameFailed_ftlen (n d : W32) : (s.frameFailed n d).ftlen = n := rfl
@[simp] theorem State.frameFailed_fdlen (n d : W32) : (s.frameFailed n d).fdlen = d := rfl
@[simp] theorem State.frameFailed_rxend (n d : W32) : (s.frameFailed n d).rxend = s.rxend := rfl
@[simp] theorem State.frameFailed_rxerr (n d : W32) : (s.frameFailed n d).rxerr = s.rxerr := rfl
@[simp] theorem State.frameFailed_txerr (n d : W32) : (s.frameFailed n d).txerr = s.txerr := rfl
@[simp] theorem State.frameFailed_rt (n d : W32) : (s.frameFailed n d).rt = s.rt := rfl
@[simp] theorem State.frameFailed_bld (n d : W32) : (s.frameFailed n d).bld = s.bld := rfl
@[simp] theorem State.frameFailed_pay (n d : W32) : (s.frameFailed n d).pay = [] := rfl
@[simp] theorem State.frameFailed_scr (n d : W32) : (s.frameFailed n d).scr = s.scr := rfl
@[simp] theorem State.frameFailed_rxq (n d : W32) : (s.frameFailed n d).rxq = s.rxq := rfl
@[simp] theorem State.frameFailed_txq (n d : W32) : (s.frameFailed n d).txq = s.txq := rfl
@[simp] theorem State.frameFailed_cur (n d : W32) : (s.frameFailed n d).cur = s.cur := rfl
@[simp] theorem State.frameFailed_tl (n d : W32) : (s.frameFailed n d).tl = s.tl := rfl
@[simp] theorem State.frameFailed_rx (n d : W32) : (s.frameFailed n d).rx = s.rx := rfl
@[simp] theorem State.frameFailed_rst (n d : W32) : (s.frameFailed n d).rst = s.rst := rfl
@[simp] theorem State.frameFailed_params (n d : W32) : (s.frameFailed n d).params = s.params := rfl
@[simp] theorem State.frameFailed_resets (n d : W32) : (s.frameFailed n d).resets = s.resets := rfl
@[simp] theorem State.frameFailed_bus (n d : W32) : (s.frameFailed n d).bus = s.bus := rfl
@[simp] theorem State.frameFailed_wire (n d : W32) : (s.frameFailed n d).wire = s.wire := rfl
@[simp] theorem State.frameFailed_sched (n d : W32) : (s.frameFailed n d).sched = s.sched := rfl

/-! ### `State.setRx` -/

@[simp] theorem State.setRx_x (p : RxProgress) : (s.setRx p).x = s.x := rfl
@[simp] theorem State.setRx_busy (p : RxProgress) : (s.setRx p).busy = s.busy := rfl
@[simp] theorem State.setRx_closed (p : RxProgress) : (s.setRx p).closed = s.closed := rfl
@[simp] theorem State.setRx_fvalid (p : RxProgress) : (s.setRx p).fvalid = s.fvalid := rfl
@[simp] theorem State.setRx_fcomp (p : RxProgress) : (s.setRx p).fcomp = s.fcomp := rfl
@[simp] theorem State.setRx_ovr (p : RxProgress) : (s.setRx p).ovr = s.ovr := rfl
@[simp] theorem State.setRx_err (p : RxProgress) : (s.setRx p).err = s.err := rfl
@[simp] theorem State.setRx_errinfo (p : RxProgress) : (s.setRx p).errinfo = s.errinfo := rfl
@[simp] theorem State.setRx_esticky (p : RxProgress) : (s.setRx p).esticky = s.esticky := rfl
@[simp] theorem State.setRx_ie (p : RxProgress) : (s.setRx p).ie = s.ie := rfl
@[simp] theorem State.setRx_ip (p : RxProgress) : (s.setRx p).ip = s.ip := rfl
@[simp] theorem State.setRx_cmdcnt (p : RxProgress) : (s.setRx p).cmdcnt = s.cmdcnt := rfl
@[simp] theorem State.setRx_phase (p : RxProgress) : (s.setRx p).phase = s.phase := rfl
@[simp] theorem State.setRx_thresh (p : RxProgress) : (s.setRx p).thresh = s.thresh := rfl
@[simp] theorem State.setRx_opc (p : RxProgress) : (s.setRx p).opc = s.opc := rfl
@[simp] theorem State.setRx_route (p : RxProgress) : (s.setRx p).route = s.route := rfl
@[simp] theorem State.setRx_rpos (p : RxProgress) : (s.setRx p).rpos = s.rpos := rfl
@[simp] theorem State.setRx_lastn (p : RxProgress) : (s.setRx p).lastn = s.lastn := rfl
@[simp] theorem State.setRx_ftlen (p : RxProgress) : (s.setRx p).ftlen = s.ftlen := rfl
@[simp] theorem State.setRx_fdlen (p : RxProgress) : (s.setRx p).fdlen = s.fdlen := rfl
@[simp] theorem State.setRx_rxend (p : RxProgress) : (s.setRx p).rxend = s.rxend := rfl
@[simp] theorem State.setRx_rxerr (p : RxProgress) : (s.setRx p).rxerr = s.rxerr := rfl
@[simp] theorem State.setRx_txerr (p : RxProgress) : (s.setRx p).txerr = s.txerr := rfl
@[simp] theorem State.setRx_rt (p : RxProgress) : (s.setRx p).rt = s.rt := rfl
@[simp] theorem State.setRx_bld (p : RxProgress) : (s.setRx p).bld = s.bld := rfl
@[simp] theorem State.setRx_pay (p : RxProgress) : (s.setRx p).pay = s.pay := rfl
@[simp] theorem State.setRx_scr (p : RxProgress) : (s.setRx p).scr = s.scr := rfl
@[simp] theorem State.setRx_rxq (p : RxProgress) : (s.setRx p).rxq = s.rxq := rfl
@[simp] theorem State.setRx_txq (p : RxProgress) : (s.setRx p).txq = s.txq := rfl
@[simp] theorem State.setRx_cur (p : RxProgress) : (s.setRx p).cur = s.cur := rfl
@[simp] theorem State.setRx_tl (p : RxProgress) : (s.setRx p).tl = s.tl := rfl
@[simp] theorem State.setRx_rx (p : RxProgress) : (s.setRx p).rx = some p := rfl
@[simp] theorem State.setRx_rst (p : RxProgress) : (s.setRx p).rst = s.rst := rfl
@[simp] theorem State.setRx_params (p : RxProgress) : (s.setRx p).params = s.params := rfl
@[simp] theorem State.setRx_resets (p : RxProgress) : (s.setRx p).resets = s.resets := rfl
@[simp] theorem State.setRx_bus (p : RxProgress) : (s.setRx p).bus = s.bus := rfl
@[simp] theorem State.setRx_wire (p : RxProgress) : (s.setRx p).wire = s.wire := rfl
@[simp] theorem State.setRx_sched (p : RxProgress) : (s.setRx p).sched = s.sched := rfl

/-! ### `State.startRx` -/

@[simp] theorem State.startRx_x : (s.startRx).x = s.x := rfl
@[simp] theorem State.startRx_busy : (s.startRx).busy = s.busy := rfl
@[simp] theorem State.startRx_closed : (s.startRx).closed = s.closed := rfl
@[simp] theorem State.startRx_fvalid : (s.startRx).fvalid = s.fvalid := rfl
@[simp] theorem State.startRx_fcomp : (s.startRx).fcomp = s.fcomp := rfl
@[simp] theorem State.startRx_ovr : (s.startRx).ovr = s.ovr := rfl
@[simp] theorem State.startRx_err : (s.startRx).err = s.err := rfl
@[simp] theorem State.startRx_errinfo : (s.startRx).errinfo = s.errinfo := rfl
@[simp] theorem State.startRx_esticky : (s.startRx).esticky = s.esticky := rfl
@[simp] theorem State.startRx_ie : (s.startRx).ie = s.ie := rfl
@[simp] theorem State.startRx_ip : (s.startRx).ip = s.ip := rfl
@[simp] theorem State.startRx_cmdcnt : (s.startRx).cmdcnt = s.cmdcnt := rfl
@[simp] theorem State.startRx_phase : (s.startRx).phase = s.phase := rfl
@[simp] theorem State.startRx_thresh : (s.startRx).thresh = s.thresh := rfl
@[simp] theorem State.startRx_opc : (s.startRx).opc = s.opc := rfl
@[simp] theorem State.startRx_route : (s.startRx).route = s.route := rfl
@[simp] theorem State.startRx_rpos : (s.startRx).rpos = s.rpos := rfl
@[simp] theorem State.startRx_lastn : (s.startRx).lastn = s.lastn := rfl
@[simp] theorem State.startRx_ftlen : (s.startRx).ftlen = s.ftlen := rfl
@[simp] theorem State.startRx_fdlen : (s.startRx).fdlen = s.fdlen := rfl
@[simp] theorem State.startRx_rxend : (s.startRx).rxend = s.rxend := rfl
@[simp] theorem State.startRx_rxerr : (s.startRx).rxerr = s.rxerr := rfl
@[simp] theorem State.startRx_txerr : (s.startRx).txerr = s.txerr := rfl
@[simp] theorem State.startRx_rt : (s.startRx).rt = s.rt := rfl
@[simp] theorem State.startRx_bld : (s.startRx).bld = s.bld := rfl
@[simp] theorem State.startRx_pay : (s.startRx).pay = s.pay := rfl
@[simp] theorem State.startRx_scr : (s.startRx).scr = s.scr := rfl
@[simp] theorem State.startRx_rxq : (s.startRx).rxq = s.rxq := rfl
@[simp] theorem State.startRx_txq : (s.startRx).txq = s.txq := rfl
@[simp] theorem State.startRx_cur : (s.startRx).cur = s.cur := rfl
@[simp] theorem State.startRx_tl : (s.startRx).tl = s.thresh := rfl
@[simp] theorem State.startRx_rx : (s.startRx).rx = some RxProgress.start := rfl
@[simp] theorem State.startRx_rst : (s.startRx).rst = s.rst := rfl
@[simp] theorem State.startRx_params : (s.startRx).params = s.params := rfl
@[simp] theorem State.startRx_resets : (s.startRx).resets = s.resets := rfl
@[simp] theorem State.startRx_bus : (s.startRx).bus = s.bus := rfl
@[simp] theorem State.startRx_wire : (s.startRx).wire = s.wire := rfl
@[simp] theorem State.startRx_sched : (s.startRx).sched = s.sched := rfl

/-! ### `State.setRxq` -/

@[simp] theorem State.setRxq_x (q : Bytes) : (s.setRxq q).x = s.x := rfl
@[simp] theorem State.setRxq_busy (q : Bytes) : (s.setRxq q).busy = s.busy := rfl
@[simp] theorem State.setRxq_closed (q : Bytes) : (s.setRxq q).closed = s.closed := rfl
@[simp] theorem State.setRxq_fvalid (q : Bytes) : (s.setRxq q).fvalid = s.fvalid := rfl
@[simp] theorem State.setRxq_fcomp (q : Bytes) : (s.setRxq q).fcomp = s.fcomp := rfl
@[simp] theorem State.setRxq_ovr (q : Bytes) : (s.setRxq q).ovr = s.ovr := rfl
@[simp] theorem State.setRxq_err (q : Bytes) : (s.setRxq q).err = s.err := rfl
@[simp] theorem State.setRxq_errinfo (q : Bytes) : (s.setRxq q).errinfo = s.errinfo := rfl
@[simp] theorem State.setRxq_esticky (q : Bytes) : (s.setRxq q).esticky = s.esticky := rfl
@[simp] theorem State.setRxq_ie (q : Bytes) : (s.setRxq q).ie = s.ie := rfl
@[simp] theorem State.setRxq_ip (q : Bytes) : (s.setRxq q).ip = s.ip := rfl
@[simp] theorem State.setRxq_cmdcnt (q : Bytes) : (s.setRxq q).cmdcnt = s.cmdcnt := rfl
@[simp] theorem State.setRxq_phase (q : Bytes) : (s.setRxq q).phase = s.phase := rfl
@[simp] theorem State.setRxq_thresh (q : Bytes) : (s.setRxq q).thresh = s.thresh := rfl
@[simp] theorem State.setRxq_opc (q : Bytes) : (s.setRxq q).opc = s.opc := rfl
@[simp] theorem State.setRxq_route (q : Bytes) : (s.setRxq q).route = s.route := rfl
@[simp] theorem State.setRxq_rpos (q : Bytes) : (s.setRxq q).rpos = s.rpos := rfl
@[simp] theorem State.setRxq_lastn (q : Bytes) : (s.setRxq q).lastn = s.lastn := rfl
@[simp] theorem State.setRxq_ftlen (q : Bytes) : (s.setRxq q).ftlen = s.ftlen := rfl
@[simp] theorem State.setRxq_fdlen (q : Bytes) : (s.setRxq q).fdlen = s.fdlen := rfl
@[simp] theorem State.setRxq_rxend (q : Bytes) : (s.setRxq q).rxend = s.rxend := rfl
@[simp] theorem State.setRxq_rxerr (q : Bytes) : (s.setRxq q).rxerr = s.rxerr := rfl
@[simp] theorem State.setRxq_txerr (q : Bytes) : (s.setRxq q).txerr = s.txerr := rfl
@[simp] theorem State.setRxq_rt (q : Bytes) : (s.setRxq q).rt = s.rt := rfl
@[simp] theorem State.setRxq_bld (q : Bytes) : (s.setRxq q).bld = s.bld := rfl
@[simp] theorem State.setRxq_pay (q : Bytes) : (s.setRxq q).pay = s.pay := rfl
@[simp] theorem State.setRxq_scr (q : Bytes) : (s.setRxq q).scr = s.scr := rfl
@[simp] theorem State.setRxq_rxq (q : Bytes) : (s.setRxq q).rxq = q := rfl
@[simp] theorem State.setRxq_txq (q : Bytes) : (s.setRxq q).txq = s.txq := rfl
@[simp] theorem State.setRxq_cur (q : Bytes) : (s.setRxq q).cur = s.cur := rfl
@[simp] theorem State.setRxq_tl (q : Bytes) : (s.setRxq q).tl = s.tl := rfl
@[simp] theorem State.setRxq_rx (q : Bytes) : (s.setRxq q).rx = s.rx := rfl
@[simp] theorem State.setRxq_rst (q : Bytes) : (s.setRxq q).rst = s.rst := rfl
@[simp] theorem State.setRxq_params (q : Bytes) : (s.setRxq q).params = s.params := rfl
@[simp] theorem State.setRxq_resets (q : Bytes) : (s.setRxq q).resets = s.resets := rfl
@[simp] theorem State.setRxq_bus (q : Bytes) : (s.setRxq q).bus = s.bus := rfl
@[simp] theorem State.setRxq_wire (q : Bytes) : (s.setRxq q).wire = s.wire := rfl
@[simp] theorem State.setRxq_sched (q : Bytes) : (s.setRxq q).sched = s.sched := rfl

/-! ### `State.setOvr` -/

@[simp] theorem State.setOvr_x : (s.setOvr).x = s.x := rfl
@[simp] theorem State.setOvr_busy : (s.setOvr).busy = s.busy := rfl
@[simp] theorem State.setOvr_closed : (s.setOvr).closed = s.closed := rfl
@[simp] theorem State.setOvr_fvalid : (s.setOvr).fvalid = s.fvalid := rfl
@[simp] theorem State.setOvr_fcomp : (s.setOvr).fcomp = s.fcomp := rfl
@[simp] theorem State.setOvr_ovr : (s.setOvr).ovr = true := rfl
@[simp] theorem State.setOvr_err : (s.setOvr).err = s.err := rfl
@[simp] theorem State.setOvr_errinfo : (s.setOvr).errinfo = s.errinfo := rfl
@[simp] theorem State.setOvr_esticky : (s.setOvr).esticky = s.esticky := rfl
@[simp] theorem State.setOvr_ie : (s.setOvr).ie = s.ie := rfl
@[simp] theorem State.setOvr_ip : (s.setOvr).ip = s.ip := rfl
@[simp] theorem State.setOvr_cmdcnt : (s.setOvr).cmdcnt = s.cmdcnt := rfl
@[simp] theorem State.setOvr_phase : (s.setOvr).phase = s.phase := rfl
@[simp] theorem State.setOvr_thresh : (s.setOvr).thresh = s.thresh := rfl
@[simp] theorem State.setOvr_opc : (s.setOvr).opc = s.opc := rfl
@[simp] theorem State.setOvr_route : (s.setOvr).route = s.route := rfl
@[simp] theorem State.setOvr_rpos : (s.setOvr).rpos = s.rpos := rfl
@[simp] theorem State.setOvr_lastn : (s.setOvr).lastn = s.lastn := rfl
@[simp] theorem State.setOvr_ftlen : (s.setOvr).ftlen = s.ftlen := rfl
@[simp] theorem State.setOvr_fdlen : (s.setOvr).fdlen = s.fdlen := rfl
@[simp] theorem State.setOvr_rxend : (s.setOvr).rxend = s.rxend := rfl
@[simp] theorem State.setOvr_rxerr : (s.setOvr).rxerr = s.rxerr := rfl
@[simp] theorem State.setOvr_txerr : (s.setOvr).txerr = s.txerr := rfl
@[simp] theorem State.setOvr_rt : (s.setOvr).rt = s.rt := rfl
@[simp] theorem State.setOvr_bld : (s.setOvr).bld = s.bld := rfl
@[simp] theorem State.setOvr_pay : (s.setOvr).pay = s.pay := rfl
@[simp] theorem State.setOvr_scr : (s.setOvr).scr = s.scr := rfl
@[simp] theorem State.setOvr_rxq : (s.setOvr).rxq = s.rxq := rfl
@[simp] theorem State.setOvr_txq : (s.setOvr).txq = s.txq := rfl
@[simp] theorem State.setOvr_cur : (s.setOvr).cur = s.cur := rfl
@[simp] theorem State.setOvr_tl : (s.setOvr).tl = s.tl := rfl
@[simp] theorem State.setOvr_rx : (s.setOvr).rx = s.rx := rfl
@[simp] theorem State.setOvr_rst : (s.setOvr).rst = s.rst := rfl
@[simp] theorem State.setOvr_params : (s.setOvr).params = s.params := rfl
@[simp] theorem State.setOvr_resets : (s.setOvr).resets = s.resets := rfl
@[simp] theorem State.setOvr_bus : (s.setOvr).bus = s.bus := rfl
@[simp] theorem State.setOvr_wire : (s.setOvr).wire = s.wire := rfl
@[simp] theorem State.setOvr_sched : (s.setOvr).sched = s.sched := rfl

/-! ### `State.issue` -/

@[simp] theorem State.issue_x (w : W32) : (s.issue w).x = s.x := rfl
@[simp] theorem State.issue_busy (w : W32) : (s.issue w).busy = true := rfl
@[simp] theorem State.issue_closed (w : W32) : (s.issue w).closed = s.closed := rfl
@[simp] theorem State.issue_fvalid (w : W32) : (s.issue w).fvalid = s.fvalid := rfl
@[simp] theorem State.issue_fcomp (w : W32) : (s.issue w).fcomp = s.fcomp := rfl
@[simp] theorem State.issue_ovr (w : W32) : (s.issue w).ovr = s.ovr := rfl
@[simp] theorem State.issue_err (w : W32) : (s.issue w).err = s.err := rfl
@[simp] theorem State.issue_errinfo (w : W32) : (s.issue w).errinfo = s.errinfo := rfl
@[simp] theorem State.issue_esticky (w : W32) : (s.issue w).esticky = s.esticky := rfl
@[simp] theorem State.issue_ie (w : W32) : (s.issue w).ie = s.ie := rfl
@[simp] theorem State.issue_ip (w : W32) : (s.issue w).ip = s.ip := rfl
@[simp] theorem State.issue_cmdcnt (w : W32) : (s.issue w).cmdcnt = s.cmdcnt := rfl
@[simp] theorem State.issue_phase (w : W32) : (s.issue w).phase = s.phase := rfl
@[simp] theorem State.issue_thresh (w : W32) : (s.issue w).thresh = s.thresh := rfl
@[simp] theorem State.issue_opc (w : W32) : (s.issue w).opc = s.opc := rfl
@[simp] theorem State.issue_route (w : W32) : (s.issue w).route = s.route := rfl
@[simp] theorem State.issue_rpos (w : W32) : (s.issue w).rpos = s.rpos := rfl
@[simp] theorem State.issue_lastn (w : W32) : (s.issue w).lastn = s.lastn := rfl
@[simp] theorem State.issue_ftlen (w : W32) : (s.issue w).ftlen = s.ftlen := rfl
@[simp] theorem State.issue_fdlen (w : W32) : (s.issue w).fdlen = s.fdlen := rfl
@[simp] theorem State.issue_rxend (w : W32) : (s.issue w).rxend = s.rxend := rfl
@[simp] theorem State.issue_rxerr (w : W32) : (s.issue w).rxerr = s.rxerr := rfl
@[simp] theorem State.issue_txerr (w : W32) : (s.issue w).txerr = s.txerr := rfl
@[simp] theorem State.issue_rt (w : W32) : (s.issue w).rt = s.rt := rfl
@[simp] theorem State.issue_bld (w : W32) : (s.issue w).bld = s.bld := rfl
@[simp] theorem State.issue_pay (w : W32) : (s.issue w).pay = s.pay := rfl
@[simp] theorem State.issue_scr (w : W32) : (s.issue w).scr = s.scr := rfl
@[simp] theorem State.issue_rxq (w : W32) : (s.issue w).rxq = s.rxq := rfl
@[simp] theorem State.issue_txq (w : W32) : (s.issue w).txq = s.txq := rfl
@[simp] theorem State.issue_cur (w : W32) : (s.issue w).cur = w := rfl
@[simp] theorem State.issue_tl (w : W32) : (s.issue w).tl = s.tl := rfl
@[simp] theorem State.issue_rx (w : W32) : (s.issue w).rx = none := rfl
@[simp] theorem State.issue_rst (w : W32) : (s.issue w).rst = s.rst := rfl
@[simp] theorem State.issue_params (w : W32) : (s.issue w).params = s.params := rfl
@[simp] theorem State.issue_resets (w : W32) : (s.issue w).resets = s.resets := rfl
@[simp] theorem State.issue_bus (w : W32) : (s.issue w).bus = s.bus := rfl
@[simp] theorem State.issue_wire (w : W32) : (s.issue w).wire = s.wire := rfl
@[simp] theorem State.issue_sched (w : W32) : (s.issue w).sched = s.sched := rfl

/-! ### `State.setIe` -/

@[simp] theorem State.setIe_x (v : W32) : (s.setIe v).x = s.x := rfl
@[simp] theorem State.setIe_busy (v : W32) : (s.setIe v).busy = s.busy := rfl
@[simp] theorem State.setIe_closed (v : W32) : (s.setIe v).closed = s.closed := rfl
@[simp] theorem State.setIe_fvalid (v : W32) : (s.setIe v).fvalid = s.fvalid := rfl
@[simp] theorem State.setIe_fcomp (v : W32) : (s.setIe v).fcomp = s.fcomp := rfl
@[simp] theorem State.setIe_ovr (v : W32) : (s.setIe v).ovr = s.ovr := rfl
@[simp] theorem State.setIe_err (v : W32) : (s.setIe v).err = s.err := rfl
@[simp] theorem State.setIe_errinfo (v : W32) : (s.setIe v).errinfo = s.errinfo := rfl
@[simp] theorem State.setIe_esticky (v : W32) : (s.setIe v).esticky = s.esticky := rfl
@[simp] theorem State.setIe_ie (v : W32) : (s.setIe v).ie = trunc 2 v := rfl
@[simp] theorem State.setIe_ip (v : W32) : (s.setIe v).ip = s.ip := rfl
@[simp] theorem State.setIe_cmdcnt (v : W32) : (s.setIe v).cmdcnt = s.cmdcnt := rfl
@[simp] theorem State.setIe_phase (v : W32) : (s.setIe v).phase = s.phase := rfl
@[simp] theorem State.setIe_thresh (v : W32) : (s.setIe v).thresh = s.thresh := rfl
@[simp] theorem State.setIe_opc (v : W32) : (s.setIe v).opc = s.opc := rfl
@[simp] theorem State.setIe_route (v : W32) : (s.setIe v).route = s.route := rfl
@[simp] theorem State.setIe_rpos (v : W32) : (s.setIe v).rpos = s.rpos := rfl
@[simp] theorem State.setIe_lastn (v : W32) : (s.setIe v).lastn = s.lastn := rfl
@[simp] theorem State.setIe_ftlen (v : W32) : (s.setIe v).ftlen = s.ftlen := rfl
@[simp] theorem State.setIe_fdlen (v : W32) : (s.setIe v).fdlen = s.fdlen := rfl
@[simp] theorem State.setIe_rxend (v : W32) : (s.setIe v).rxend = s.rxend := rfl
@[simp] theorem State.setIe_rxerr (v : W32) : (s.setIe v).rxerr = s.rxerr := rfl
@[simp] theorem State.setIe_txerr (v : W32) : (s.setIe v).txerr = s.txerr := rfl
@[simp] theorem State.setIe_rt (v : W32) : (s.setIe v).rt = s.rt := rfl
@[simp] theorem State.setIe_bld (v : W32) : (s.setIe v).bld = s.bld := rfl
@[simp] theorem State.setIe_pay (v : W32) : (s.setIe v).pay = s.pay := rfl
@[simp] theorem State.setIe_scr (v : W32) : (s.setIe v).scr = s.scr := rfl
@[simp] theorem State.setIe_rxq (v : W32) : (s.setIe v).rxq = s.rxq := rfl
@[simp] theorem State.setIe_txq (v : W32) : (s.setIe v).txq = s.txq := rfl
@[simp] theorem State.setIe_cur (v : W32) : (s.setIe v).cur = s.cur := rfl
@[simp] theorem State.setIe_tl (v : W32) : (s.setIe v).tl = s.tl := rfl
@[simp] theorem State.setIe_rx (v : W32) : (s.setIe v).rx = s.rx := rfl
@[simp] theorem State.setIe_rst (v : W32) : (s.setIe v).rst = s.rst := rfl
@[simp] theorem State.setIe_params (v : W32) : (s.setIe v).params = s.params := rfl
@[simp] theorem State.setIe_resets (v : W32) : (s.setIe v).resets = s.resets := rfl
@[simp] theorem State.setIe_bus (v : W32) : (s.setIe v).bus = s.bus := rfl
@[simp] theorem State.setIe_wire (v : W32) : (s.setIe v).wire = s.wire := rfl
@[simp] theorem State.setIe_sched (v : W32) : (s.setIe v).sched = s.sched := rfl

/-! ### `State.clearIp` -/

@[simp] theorem State.clearIp_x (v : W32) : (s.clearIp v).x = s.x := rfl
@[simp] theorem State.clearIp_busy (v : W32) : (s.clearIp v).busy = s.busy := rfl
@[simp] theorem State.clearIp_closed (v : W32) : (s.clearIp v).closed = s.closed := rfl
@[simp] theorem State.clearIp_fvalid (v : W32) : (s.clearIp v).fvalid = s.fvalid := rfl
@[simp] theorem State.clearIp_fcomp (v : W32) : (s.clearIp v).fcomp = s.fcomp := rfl
@[simp] theorem State.clearIp_ovr (v : W32) : (s.clearIp v).ovr = s.ovr := rfl
@[simp] theorem State.clearIp_err (v : W32) : (s.clearIp v).err = s.err := rfl
@[simp] theorem State.clearIp_errinfo (v : W32) : (s.clearIp v).errinfo = s.errinfo := rfl
@[simp] theorem State.clearIp_esticky (v : W32) : (s.clearIp v).esticky = s.esticky := rfl
@[simp] theorem State.clearIp_ie (v : W32) : (s.clearIp v).ie = s.ie := rfl
@[simp] theorem State.clearIp_ip (v : W32) : (s.clearIp v).ip = s.ip &&& ~~~(trunc 2 v) := rfl
@[simp] theorem State.clearIp_cmdcnt (v : W32) : (s.clearIp v).cmdcnt = s.cmdcnt := rfl
@[simp] theorem State.clearIp_phase (v : W32) : (s.clearIp v).phase = s.phase := rfl
@[simp] theorem State.clearIp_thresh (v : W32) : (s.clearIp v).thresh = s.thresh := rfl
@[simp] theorem State.clearIp_opc (v : W32) : (s.clearIp v).opc = s.opc := rfl
@[simp] theorem State.clearIp_route (v : W32) : (s.clearIp v).route = s.route := rfl
@[simp] theorem State.clearIp_rpos (v : W32) : (s.clearIp v).rpos = s.rpos := rfl
@[simp] theorem State.clearIp_lastn (v : W32) : (s.clearIp v).lastn = s.lastn := rfl
@[simp] theorem State.clearIp_ftlen (v : W32) : (s.clearIp v).ftlen = s.ftlen := rfl
@[simp] theorem State.clearIp_fdlen (v : W32) : (s.clearIp v).fdlen = s.fdlen := rfl
@[simp] theorem State.clearIp_rxend (v : W32) : (s.clearIp v).rxend = s.rxend := rfl
@[simp] theorem State.clearIp_rxerr (v : W32) : (s.clearIp v).rxerr = s.rxerr := rfl
@[simp] theorem State.clearIp_txerr (v : W32) : (s.clearIp v).txerr = s.txerr := rfl
@[simp] theorem State.clearIp_rt (v : W32) : (s.clearIp v).rt = s.rt := rfl
@[simp] theorem State.clearIp_bld (v : W32) : (s.clearIp v).bld = s.bld := rfl
@[simp] theorem State.clearIp_pay (v : W32) : (s.clearIp v).pay = s.pay := rfl
@[simp] theorem State.clearIp_scr (v : W32) : (s.clearIp v).scr = s.scr := rfl
@[simp] theorem State.clearIp_rxq (v : W32) : (s.clearIp v).rxq = s.rxq := rfl
@[simp] theorem State.clearIp_txq (v : W32) : (s.clearIp v).txq = s.txq := rfl
@[simp] theorem State.clearIp_cur (v : W32) : (s.clearIp v).cur = s.cur := rfl
@[simp] theorem State.clearIp_tl (v : W32) : (s.clearIp v).tl = s.tl := rfl
@[simp] theorem State.clearIp_rx (v : W32) : (s.clearIp v).rx = s.rx := rfl
@[simp] theorem State.clearIp_rst (v : W32) : (s.clearIp v).rst = s.rst := rfl
@[simp] theorem State.clearIp_params (v : W32) : (s.clearIp v).params = s.params := rfl
@[simp] theorem State.clearIp_resets (v : W32) : (s.clearIp v).resets = s.resets := rfl
@[simp] theorem State.clearIp_bus (v : W32) : (s.clearIp v).bus = s.bus := rfl
@[simp] theorem State.clearIp_wire (v : W32) : (s.clearIp v).wire = s.wire := rfl
@[simp] theorem State.clearIp_sched (v : W32) : (s.clearIp v).sched = s.sched := rfl

/-! ### `State.setRt` -/

@[simp] theorem State.setRt_x (l : List RtEntry) : (s.setRt l).x = s.x := rfl
@[simp] theorem State.setRt_busy (l : List RtEntry) : (s.setRt l).busy = s.busy := rfl
@[simp] theorem State.setRt_closed (l : List RtEntry) : (s.setRt l).closed = s.closed := rfl
@[simp] theorem State.setRt_fvalid (l : List RtEntry) : (s.setRt l).fvalid = s.fvalid := rfl
@[simp] theorem State.setRt_fcomp (l : List RtEntry) : (s.setRt l).fcomp = s.fcomp := rfl
@[simp] theorem State.setRt_ovr (l : List RtEntry) : (s.setRt l).ovr = s.ovr := rfl
@[simp] theorem State.setRt_err (l : List RtEntry) : (s.setRt l).err = s.err := rfl
@[simp] theorem State.setRt_errinfo (l : List RtEntry) : (s.setRt l).errinfo = s.errinfo := rfl
@[simp] theorem State.setRt_esticky (l : List RtEntry) : (s.setRt l).esticky = s.esticky := rfl
@[simp] theorem State.setRt_ie (l : List RtEntry) : (s.setRt l).ie = s.ie := rfl
@[simp] theorem State.setRt_ip (l : List RtEntry) : (s.setRt l).ip = s.ip := rfl
@[simp] theorem State.setRt_cmdcnt (l : List RtEntry) : (s.setRt l).cmdcnt = s.cmdcnt := rfl
@[simp] theorem State.setRt_phase (l : List RtEntry) : (s.setRt l).phase = s.phase := rfl
@[simp] theorem State.setRt_thresh (l : List RtEntry) : (s.setRt l).thresh = s.thresh := rfl
@[simp] theorem State.setRt_opc (l : List RtEntry) : (s.setRt l).opc = s.opc := rfl
@[simp] theorem State.setRt_route (l : List RtEntry) : (s.setRt l).route = s.route := rfl
@[simp] theorem State.setRt_rpos (l : List RtEntry) : (s.setRt l).rpos = s.rpos := rfl
@[simp] theorem State.setRt_lastn (l : List RtEntry) : (s.setRt l).lastn = s.lastn := rfl
@[simp] theorem State.setRt_ftlen (l : List RtEntry) : (s.setRt l).ftlen = s.ftlen := rfl
@[simp] theorem State.setRt_fdlen (l : List RtEntry) : (s.setRt l).fdlen = s.fdlen := rfl
@[simp] theorem State.setRt_rxend (l : List RtEntry) : (s.setRt l).rxend = s.rxend := rfl
@[simp] theorem State.setRt_rxerr (l : List RtEntry) : (s.setRt l).rxerr = s.rxerr := rfl
@[simp] theorem State.setRt_txerr (l : List RtEntry) : (s.setRt l).txerr = s.txerr := rfl
@[simp] theorem State.setRt_rt (l : List RtEntry) : (s.setRt l).rt = l := rfl
@[simp] theorem State.setRt_bld (l : List RtEntry) : (s.setRt l).bld = s.bld := rfl
@[simp] theorem State.setRt_pay (l : List RtEntry) : (s.setRt l).pay = s.pay := rfl
@[simp] theorem State.setRt_scr (l : List RtEntry) : (s.setRt l).scr = s.scr := rfl
@[simp] theorem State.setRt_rxq (l : List RtEntry) : (s.setRt l).rxq = s.rxq := rfl
@[simp] theorem State.setRt_txq (l : List RtEntry) : (s.setRt l).txq = s.txq := rfl
@[simp] theorem State.setRt_cur (l : List RtEntry) : (s.setRt l).cur = s.cur := rfl
@[simp] theorem State.setRt_tl (l : List RtEntry) : (s.setRt l).tl = s.tl := rfl
@[simp] theorem State.setRt_rx (l : List RtEntry) : (s.setRt l).rx = s.rx := rfl
@[simp] theorem State.setRt_rst (l : List RtEntry) : (s.setRt l).rst = s.rst := rfl
@[simp] theorem State.setRt_params (l : List RtEntry) : (s.setRt l).params = s.params := rfl
@[simp] theorem State.setRt_resets (l : List RtEntry) : (s.setRt l).resets = s.resets := rfl
@[simp] theorem State.setRt_bus (l : List RtEntry) : (s.setRt l).bus = s.bus := rfl
@[simp] theorem State.setRt_wire (l : List RtEntry) : (s.setRt l).wire = s.wire := rfl
@[simp] theorem State.setRt_sched (l : List RtEntry) : (s.setRt l).sched = s.sched := rfl

/-! ### `State.answer` -/

@[simp] theorem State.answer_x (a : BusAnswer) : (s.answer a).x = s.x := rfl
@[simp] theorem State.answer_busy (a : BusAnswer) : (s.answer a).busy = s.busy := rfl
@[simp] theorem State.answer_closed (a : BusAnswer) : (s.answer a).closed = s.closed := rfl
@[simp] theorem State.answer_fvalid (a : BusAnswer) : (s.answer a).fvalid = s.fvalid := rfl
@[simp] theorem State.answer_fcomp (a : BusAnswer) : (s.answer a).fcomp = s.fcomp := rfl
@[simp] theorem State.answer_ovr (a : BusAnswer) : (s.answer a).ovr = s.ovr := rfl
@[simp] theorem State.answer_err (a : BusAnswer) : (s.answer a).err = s.err := rfl
@[simp] theorem State.answer_errinfo (a : BusAnswer) : (s.answer a).errinfo = s.errinfo := rfl
@[simp] theorem State.answer_esticky (a : BusAnswer) : (s.answer a).esticky = s.esticky := rfl
@[simp] theorem State.answer_ie (a : BusAnswer) : (s.answer a).ie = s.ie := rfl
@[simp] theorem State.answer_ip (a : BusAnswer) : (s.answer a).ip = s.ip := rfl
@[simp] theorem State.answer_cmdcnt (a : BusAnswer) : (s.answer a).cmdcnt = s.cmdcnt := rfl
@[simp] theorem State.answer_phase (a : BusAnswer) : (s.answer a).phase = s.phase := rfl
@[simp] theorem State.answer_thresh (a : BusAnswer) : (s.answer a).thresh = s.thresh := rfl
@[simp] theorem State.answer_opc (a : BusAnswer) : (s.answer a).opc = s.opc := rfl
@[simp] theorem State.answer_route (a : BusAnswer) : (s.answer a).route = s.route := rfl
@[simp] theorem State.answer_rpos (a : BusAnswer) : (s.answer a).rpos = s.rpos := rfl
@[simp] theorem State.answer_lastn (a : BusAnswer) : (s.answer a).lastn = s.lastn := rfl
@[simp] theorem State.answer_ftlen (a : BusAnswer) : (s.answer a).ftlen = s.ftlen := rfl
@[simp] theorem State.answer_fdlen (a : BusAnswer) : (s.answer a).fdlen = s.fdlen := rfl
@[simp] theorem State.answer_rxend (a : BusAnswer) : (s.answer a).rxend = s.rxend := rfl
@[simp] theorem State.answer_rxerr (a : BusAnswer) : (s.answer a).rxerr = s.rxerr := rfl
@[simp] theorem State.answer_txerr (a : BusAnswer) : (s.answer a).txerr = s.txerr := rfl
@[simp] theorem State.answer_rt (a : BusAnswer) : (s.answer a).rt = s.rt := rfl
@[simp] theorem State.answer_bld (a : BusAnswer) : (s.answer a).bld = s.bld := rfl
@[simp] theorem State.answer_pay (a : BusAnswer) : (s.answer a).pay = s.pay := rfl
@[simp] theorem State.answer_scr (a : BusAnswer) : (s.answer a).scr = s.scr := rfl
@[simp] theorem State.answer_rxq (a : BusAnswer) : (s.answer a).rxq = s.rxq := rfl
@[simp] theorem State.answer_txq (a : BusAnswer) : (s.answer a).txq = s.txq := rfl
@[simp] theorem State.answer_cur (a : BusAnswer) : (s.answer a).cur = s.cur := rfl
@[simp] theorem State.answer_tl (a : BusAnswer) : (s.answer a).tl = s.tl := rfl
@[simp] theorem State.answer_rx (a : BusAnswer) : (s.answer a).rx = s.rx := rfl
@[simp] theorem State.answer_rst (a : BusAnswer) : (s.answer a).rst = s.rst := rfl
@[simp] theorem State.answer_params (a : BusAnswer) : (s.answer a).params = s.params := rfl
@[simp] theorem State.answer_resets (a : BusAnswer) : (s.answer a).resets = s.resets := rfl
@[simp] theorem State.answer_bus (a : BusAnswer) : (s.answer a).bus = a := rfl
@[simp] theorem State.answer_wire (a : BusAnswer) : (s.answer a).wire = s.wire := rfl
@[simp] theorem State.answer_sched (a : BusAnswer) : (s.answer a).sched = s.sched := rfl

/-! ### `State.pushRx` -/

@[simp] theorem State.pushRx_x (b : Byte) : (s.pushRx b).x = s.x := rfl
@[simp] theorem State.pushRx_busy (b : Byte) : (s.pushRx b).busy = s.busy := rfl
@[simp] theorem State.pushRx_closed (b : Byte) : (s.pushRx b).closed = s.closed := rfl
@[simp] theorem State.pushRx_fvalid (b : Byte) : (s.pushRx b).fvalid = s.fvalid := rfl
@[simp] theorem State.pushRx_fcomp (b : Byte) : (s.pushRx b).fcomp = s.fcomp := rfl
@[simp] theorem State.pushRx_ovr (b : Byte) : (s.pushRx b).ovr = s.ovr := rfl
@[simp] theorem State.pushRx_err (b : Byte) : (s.pushRx b).err = s.err := rfl
@[simp] theorem State.pushRx_errinfo (b : Byte) : (s.pushRx b).errinfo = s.errinfo := rfl
@[simp] theorem State.pushRx_esticky (b : Byte) : (s.pushRx b).esticky = s.esticky := rfl
@[simp] theorem State.pushRx_ie (b : Byte) : (s.pushRx b).ie = s.ie := rfl
@[simp] theorem State.pushRx_ip (b : Byte) : (s.pushRx b).ip = s.ip := rfl
@[simp] theorem State.pushRx_cmdcnt (b : Byte) : (s.pushRx b).cmdcnt = s.cmdcnt := rfl
@[simp] theorem State.pushRx_phase (b : Byte) : (s.pushRx b).phase = s.phase := rfl
@[simp] theorem State.pushRx_thresh (b : Byte) : (s.pushRx b).thresh = s.thresh := rfl
@[simp] theorem State.pushRx_opc (b : Byte) : (s.pushRx b).opc = s.opc := rfl
@[simp] theorem State.pushRx_route (b : Byte) : (s.pushRx b).route = s.route := rfl
@[simp] theorem State.pushRx_rpos (b : Byte) : (s.pushRx b).rpos = s.rpos := rfl
@[simp] theorem State.pushRx_lastn (b : Byte) : (s.pushRx b).lastn = s.lastn := rfl
@[simp] theorem State.pushRx_ftlen (b : Byte) : (s.pushRx b).ftlen = s.ftlen := rfl
@[simp] theorem State.pushRx_fdlen (b : Byte) : (s.pushRx b).fdlen = s.fdlen := rfl
@[simp] theorem State.pushRx_rxend (b : Byte) : (s.pushRx b).rxend = s.rxend := rfl
@[simp] theorem State.pushRx_rxerr (b : Byte) : (s.pushRx b).rxerr = s.rxerr := rfl
@[simp] theorem State.pushRx_txerr (b : Byte) : (s.pushRx b).txerr = s.txerr := rfl
@[simp] theorem State.pushRx_rt (b : Byte) : (s.pushRx b).rt = s.rt := rfl
@[simp] theorem State.pushRx_bld (b : Byte) : (s.pushRx b).bld = s.bld := rfl
@[simp] theorem State.pushRx_pay (b : Byte) : (s.pushRx b).pay = s.pay := rfl
@[simp] theorem State.pushRx_scr (b : Byte) : (s.pushRx b).scr = s.scr := rfl
@[simp] theorem State.pushRx_rxq (b : Byte) : (s.pushRx b).rxq = s.rxq ++ [b] := rfl
@[simp] theorem State.pushRx_txq (b : Byte) : (s.pushRx b).txq = s.txq := rfl
@[simp] theorem State.pushRx_cur (b : Byte) : (s.pushRx b).cur = s.cur := rfl
@[simp] theorem State.pushRx_tl (b : Byte) : (s.pushRx b).tl = s.tl := rfl
@[simp] theorem State.pushRx_rx (b : Byte) : (s.pushRx b).rx = s.rx := rfl
@[simp] theorem State.pushRx_rst (b : Byte) : (s.pushRx b).rst = s.rst := rfl
@[simp] theorem State.pushRx_params (b : Byte) : (s.pushRx b).params = s.params := rfl
@[simp] theorem State.pushRx_resets (b : Byte) : (s.pushRx b).resets = s.resets := rfl
@[simp] theorem State.pushRx_bus (b : Byte) : (s.pushRx b).bus = s.bus := rfl
@[simp] theorem State.pushRx_wire (b : Byte) : (s.pushRx b).wire = s.wire := rfl
@[simp] theorem State.pushRx_sched (b : Byte) : (s.pushRx b).sched = s.sched := rfl

/-! ### `State.setRxend` -/

@[simp] theorem State.setRxend_x : (s.setRxend).x = s.x := rfl
@[simp] theorem State.setRxend_busy : (s.setRxend).busy = s.busy := rfl
@[simp] theorem State.setRxend_closed : (s.setRxend).closed = s.closed := rfl
@[simp] theorem State.setRxend_fvalid : (s.setRxend).fvalid = s.fvalid := rfl
@[simp] theorem State.setRxend_fcomp : (s.setRxend).fcomp = s.fcomp := rfl
@[simp] theorem State.setRxend_ovr : (s.setRxend).ovr = s.ovr := rfl
@[simp] theorem State.setRxend_err : (s.setRxend).err = s.err := rfl
@[simp] theorem State.setRxend_errinfo : (s.setRxend).errinfo = s.errinfo := rfl
@[simp] theorem State.setRxend_esticky : (s.setRxend).esticky = s.esticky := rfl
@[simp] theorem State.setRxend_ie : (s.setRxend).ie = s.ie := rfl
@[simp] theorem State.setRxend_ip : (s.setRxend).ip = s.ip := rfl
@[simp] theorem State.setRxend_cmdcnt : (s.setRxend).cmdcnt = s.cmdcnt := rfl
@[simp] theorem State.setRxend_phase : (s.setRxend).phase = s.phase := rfl
@[simp] theorem State.setRxend_thresh : (s.setRxend).thresh = s.thresh := rfl
@[simp] theorem State.setRxend_opc : (s.setRxend).opc = s.opc := rfl
@[simp] theorem State.setRxend_route : (s.setRxend).route = s.route := rfl
@[simp] theorem State.setRxend_rpos : (s.setRxend).rpos = s.rpos := rfl
@[simp] theorem State.setRxend_lastn : (s.setRxend).lastn = s.lastn := rfl
@[simp] theorem State.setRxend_ftlen : (s.setRxend).ftlen = s.ftlen := rfl
@[simp] theorem State.setRxend_fdlen : (s.setRxend).fdlen = s.fdlen := rfl
@[simp] theorem State.setRxend_rxend : (s.setRxend).rxend = true := rfl
@[simp] theorem State.setRxend_rxerr : (s.setRxend).rxerr = s.rxerr := rfl
@[simp] theorem State.setRxend_txerr : (s.setRxend).txerr = s.txerr := rfl
@[simp] theorem State.setRxend_rt : (s.setRxend).rt = s.rt := rfl
@[simp] theorem State.setRxend_bld : (s.setRxend).bld = s.bld := rfl
@[simp] theorem State.setRxend_pay : (s.setRxend).pay = s.pay := rfl
@[simp] theorem State.setRxend_scr : (s.setRxend).scr = s.scr := rfl
@[simp] theorem State.setRxend_rxq : (s.setRxend).rxq = s.rxq := rfl
@[simp] theorem State.setRxend_txq : (s.setRxend).txq = s.txq := rfl
@[simp] theorem State.setRxend_cur : (s.setRxend).cur = s.cur := rfl
@[simp] theorem State.setRxend_tl : (s.setRxend).tl = s.tl := rfl
@[simp] theorem State.setRxend_rx : (s.setRxend).rx = s.rx := rfl
@[simp] theorem State.setRxend_rst : (s.setRxend).rst = s.rst := rfl
@[simp] theorem State.setRxend_params : (s.setRxend).params = s.params := rfl
@[simp] theorem State.setRxend_resets : (s.setRxend).resets = s.resets := rfl
@[simp] theorem State.setRxend_bus : (s.setRxend).bus = s.bus := rfl
@[simp] theorem State.setRxend_wire : (s.setRxend).wire = s.wire := rfl
@[simp] theorem State.setRxend_sched : (s.setRxend).sched = s.sched := rfl

/-! ### `State.setRxerr` -/

@[simp] theorem State.setRxerr_x : (s.setRxerr).x = s.x := rfl
@[simp] theorem State.setRxerr_busy : (s.setRxerr).busy = s.busy := rfl
@[simp] theorem State.setRxerr_closed : (s.setRxerr).closed = s.closed := rfl
@[simp] theorem State.setRxerr_fvalid : (s.setRxerr).fvalid = s.fvalid := rfl
@[simp] theorem State.setRxerr_fcomp : (s.setRxerr).fcomp = s.fcomp := rfl
@[simp] theorem State.setRxerr_ovr : (s.setRxerr).ovr = s.ovr := rfl
@[simp] theorem State.setRxerr_err : (s.setRxerr).err = s.err := rfl
@[simp] theorem State.setRxerr_errinfo : (s.setRxerr).errinfo = s.errinfo := rfl
@[simp] theorem State.setRxerr_esticky : (s.setRxerr).esticky = s.esticky := rfl
@[simp] theorem State.setRxerr_ie : (s.setRxerr).ie = s.ie := rfl
@[simp] theorem State.setRxerr_ip : (s.setRxerr).ip = s.ip := rfl
@[simp] theorem State.setRxerr_cmdcnt : (s.setRxerr).cmdcnt = s.cmdcnt := rfl
@[simp] theorem State.setRxerr_phase : (s.setRxerr).phase = s.phase := rfl
@[simp] theorem State.setRxerr_thresh : (s.setRxerr).thresh = s.thresh := rfl
@[simp] theorem State.setRxerr_opc : (s.setRxerr).opc = s.opc := rfl
@[simp] theorem State.setRxerr_route : (s.setRxerr).route = s.route := rfl
@[simp] theorem State.setRxerr_rpos : (s.setRxerr).rpos = s.rpos := rfl
@[simp] theorem State.setRxerr_lastn : (s.setRxerr).lastn = s.lastn := rfl
@[simp] theorem State.setRxerr_ftlen : (s.setRxerr).ftlen = s.ftlen := rfl
@[simp] theorem State.setRxerr_fdlen : (s.setRxerr).fdlen = s.fdlen := rfl
@[simp] theorem State.setRxerr_rxend : (s.setRxerr).rxend = s.rxend := rfl
@[simp] theorem State.setRxerr_rxerr : (s.setRxerr).rxerr = true := rfl
@[simp] theorem State.setRxerr_txerr : (s.setRxerr).txerr = s.txerr := rfl
@[simp] theorem State.setRxerr_rt : (s.setRxerr).rt = s.rt := rfl
@[simp] theorem State.setRxerr_bld : (s.setRxerr).bld = s.bld := rfl
@[simp] theorem State.setRxerr_pay : (s.setRxerr).pay = s.pay := rfl
@[simp] theorem State.setRxerr_scr : (s.setRxerr).scr = s.scr := rfl
@[simp] theorem State.setRxerr_rxq : (s.setRxerr).rxq = s.rxq := rfl
@[simp] theorem State.setRxerr_txq : (s.setRxerr).txq = s.txq := rfl
@[simp] theorem State.setRxerr_cur : (s.setRxerr).cur = s.cur := rfl
@[simp] theorem State.setRxerr_tl : (s.setRxerr).tl = s.tl := rfl
@[simp] theorem State.setRxerr_rx : (s.setRxerr).rx = s.rx := rfl
@[simp] theorem State.setRxerr_rst : (s.setRxerr).rst = s.rst := rfl
@[simp] theorem State.setRxerr_params : (s.setRxerr).params = s.params := rfl
@[simp] theorem State.setRxerr_resets : (s.setRxerr).resets = s.resets := rfl
@[simp] theorem State.setRxerr_bus : (s.setRxerr).bus = s.bus := rfl
@[simp] theorem State.setRxerr_wire : (s.setRxerr).wire = s.wire := rfl
@[simp] theorem State.setRxerr_sched : (s.setRxerr).sched = s.sched := rfl

/-! ### `State.popTx` -/

@[simp] theorem State.popTx_x (b : Byte) (q : Bytes) : (s.popTx b q).x = s.x := rfl
@[simp] theorem State.popTx_busy (b : Byte) (q : Bytes) : (s.popTx b q).busy = s.busy := rfl
@[simp] theorem State.popTx_closed (b : Byte) (q : Bytes) : (s.popTx b q).closed = s.closed := rfl
@[simp] theorem State.popTx_fvalid (b : Byte) (q : Bytes) : (s.popTx b q).fvalid = s.fvalid := rfl
@[simp] theorem State.popTx_fcomp (b : Byte) (q : Bytes) : (s.popTx b q).fcomp = s.fcomp := rfl
@[simp] theorem State.popTx_ovr (b : Byte) (q : Bytes) : (s.popTx b q).ovr = s.ovr := rfl
@[simp] theorem State.popTx_err (b : Byte) (q : Bytes) : (s.popTx b q).err = s.err := rfl
@[simp] theorem State.popTx_errinfo (b : Byte) (q : Bytes) : (s.popTx b q).errinfo = s.errinfo := rfl
@[simp] theorem State.popTx_esticky (b : Byte) (q : Bytes) : (s.popTx b q).esticky = s.esticky := rfl
@[simp] theorem State.popTx_ie (b : Byte) (q : Bytes) : (s.popTx b q).ie = s.ie := rfl
@[simp] theorem State.popTx_ip (b : Byte) (q : Bytes) : (s.popTx b q).ip = s.ip := rfl
@[simp] theorem State.popTx_cmdcnt (b : Byte) (q : Bytes) : (s.popTx b q).cmdcnt = s.cmdcnt := rfl
@[simp] theorem State.popTx_phase (b : Byte) (q : Bytes) : (s.popTx b q).phase = s.phase := rfl
@[simp] theorem State.popTx_thresh (b : Byte) (q : Bytes) : (s.popTx b q).thresh = s.thresh := rfl
@[simp] theorem State.popTx_opc (b : Byte) (q : Bytes) : (s.popTx b q).opc = s.opc := rfl
@[simp] theorem State.popTx_route (b : Byte) (q : Bytes) : (s.popTx b q).route = s.route := rfl
@[simp] theorem State.popTx_rpos (b : Byte) (q : Bytes) : (s.popTx b q).rpos = s.rpos := rfl
@[simp] theorem State.popTx_lastn (b : Byte) (q : Bytes) : (s.popTx b q).lastn = s.lastn := rfl
@[simp] theorem State.popTx_ftlen (b : Byte) (q : Bytes) : (s.popTx b q).ftlen = s.ftlen := rfl
@[simp] theorem State.popTx_fdlen (b : Byte) (q : Bytes) : (s.popTx b q).fdlen = s.fdlen := rfl
@[simp] theorem State.popTx_rxend (b : Byte) (q : Bytes) : (s.popTx b q).rxend = s.rxend := rfl
@[simp] theorem State.popTx_rxerr (b : Byte) (q : Bytes) : (s.popTx b q).rxerr = s.rxerr := rfl
@[simp] theorem State.popTx_txerr (b : Byte) (q : Bytes) : (s.popTx b q).txerr = s.txerr := rfl
@[simp] theorem State.popTx_rt (b : Byte) (q : Bytes) : (s.popTx b q).rt = s.rt := rfl
@[simp] theorem State.popTx_bld (b : Byte) (q : Bytes) : (s.popTx b q).bld = s.bld := rfl
@[simp] theorem State.popTx_pay (b : Byte) (q : Bytes) : (s.popTx b q).pay = s.pay := rfl
@[simp] theorem State.popTx_scr (b : Byte) (q : Bytes) : (s.popTx b q).scr = s.scr := rfl
@[simp] theorem State.popTx_rxq (b : Byte) (q : Bytes) : (s.popTx b q).rxq = s.rxq := rfl
@[simp] theorem State.popTx_txq (b : Byte) (q : Bytes) : (s.popTx b q).txq = q := rfl
@[simp] theorem State.popTx_cur (b : Byte) (q : Bytes) : (s.popTx b q).cur = s.cur := rfl
@[simp] theorem State.popTx_tl (b : Byte) (q : Bytes) : (s.popTx b q).tl = s.tl := rfl
@[simp] theorem State.popTx_rx (b : Byte) (q : Bytes) : (s.popTx b q).rx = s.rx := rfl
@[simp] theorem State.popTx_rst (b : Byte) (q : Bytes) : (s.popTx b q).rst = s.rst := rfl
@[simp] theorem State.popTx_params (b : Byte) (q : Bytes) : (s.popTx b q).params = s.params := rfl
@[simp] theorem State.popTx_resets (b : Byte) (q : Bytes) : (s.popTx b q).resets = s.resets := rfl
@[simp] theorem State.popTx_bus (b : Byte) (q : Bytes) : (s.popTx b q).bus = s.bus := rfl
@[simp] theorem State.popTx_wire (b : Byte) (q : Bytes) : (s.popTx b q).wire = s.wire ++ [b] := rfl
@[simp] theorem State.popTx_sched (b : Byte) (q : Bytes) : (s.popTx b q).sched = s.sched := rfl

/-! ### `State.failTx` -/

@[simp] theorem State.failTx_x : (s.failTx).x = s.x := rfl
@[simp] theorem State.failTx_busy : (s.failTx).busy = s.busy := rfl
@[simp] theorem State.failTx_closed : (s.failTx).closed = s.closed := rfl
@[simp] theorem State.failTx_fvalid : (s.failTx).fvalid = s.fvalid := rfl
@[simp] theorem State.failTx_fcomp : (s.failTx).fcomp = s.fcomp := rfl
@[simp] theorem State.failTx_ovr : (s.failTx).ovr = s.ovr := rfl
@[simp] theorem State.failTx_err : (s.failTx).err = s.err := rfl
@[simp] theorem State.failTx_errinfo : (s.failTx).errinfo = s.errinfo := rfl
@[simp] theorem State.failTx_esticky : (s.failTx).esticky = s.esticky := rfl
@[simp] theorem State.failTx_ie : (s.failTx).ie = s.ie := rfl
@[simp] theorem State.failTx_ip : (s.failTx).ip = s.ip := rfl
@[simp] theorem State.failTx_cmdcnt : (s.failTx).cmdcnt = s.cmdcnt := rfl
@[simp] theorem State.failTx_phase : (s.failTx).phase = s.phase := rfl
@[simp] theorem State.failTx_thresh : (s.failTx).thresh = s.thresh := rfl
@[simp] theorem State.failTx_opc : (s.failTx).opc = s.opc := rfl
@[simp] theorem State.failTx_route : (s.failTx).route = s.route := rfl
@[simp] theorem State.failTx_rpos : (s.failTx).rpos = s.rpos := rfl
@[simp] theorem State.failTx_lastn : (s.failTx).lastn = s.lastn := rfl
@[simp] theorem State.failTx_ftlen : (s.failTx).ftlen = s.ftlen := rfl
@[simp] theorem State.failTx_fdlen : (s.failTx).fdlen = s.fdlen := rfl
@[simp] theorem State.failTx_rxend : (s.failTx).rxend = s.rxend := rfl
@[simp] theorem State.failTx_rxerr : (s.failTx).rxerr = s.rxerr := rfl
@[simp] theorem State.failTx_txerr : (s.failTx).txerr = true := rfl
@[simp] theorem State.failTx_rt : (s.failTx).rt = s.rt := rfl
@[simp] theorem State.failTx_bld : (s.failTx).bld = s.bld := rfl
@[simp] theorem State.failTx_pay : (s.failTx).pay = s.pay := rfl
@[simp] theorem State.failTx_scr : (s.failTx).scr = s.scr := rfl
@[simp] theorem State.failTx_rxq : (s.failTx).rxq = s.rxq := rfl
@[simp] theorem State.failTx_txq : (s.failTx).txq = [] := rfl
@[simp] theorem State.failTx_cur : (s.failTx).cur = s.cur := rfl
@[simp] theorem State.failTx_tl : (s.failTx).tl = s.tl := rfl
@[simp] theorem State.failTx_rx : (s.failTx).rx = s.rx := rfl
@[simp] theorem State.failTx_rst : (s.failTx).rst = s.rst := rfl
@[simp] theorem State.failTx_params : (s.failTx).params = s.params := rfl
@[simp] theorem State.failTx_resets : (s.failTx).resets = s.resets := rfl
@[simp] theorem State.failTx_bus : (s.failTx).bus = s.bus := rfl
@[simp] theorem State.failTx_wire : (s.failTx).wire = s.wire := rfl
@[simp] theorem State.failTx_sched : (s.failTx).sched = s.sched := rfl

/-! ### `State.leaveReset` -/

@[simp] theorem State.leaveReset_x : (s.leaveReset).x = s.x := rfl
@[simp] theorem State.leaveReset_busy : (s.leaveReset).busy = s.busy := rfl
@[simp] theorem State.leaveReset_closed : (s.leaveReset).closed = s.closed := rfl
@[simp] theorem State.leaveReset_fvalid : (s.leaveReset).fvalid = s.fvalid := rfl
@[simp] theorem State.leaveReset_fcomp : (s.leaveReset).fcomp = s.fcomp := rfl
@[simp] theorem State.leaveReset_ovr : (s.leaveReset).ovr = s.ovr := rfl
@[simp] theorem State.leaveReset_err : (s.leaveReset).err = s.err := rfl
@[simp] theorem State.leaveReset_errinfo : (s.leaveReset).errinfo = s.errinfo := rfl
@[simp] theorem State.leaveReset_esticky : (s.leaveReset).esticky = s.esticky := rfl
@[simp] theorem State.leaveReset_ie : (s.leaveReset).ie = s.ie := rfl
@[simp] theorem State.leaveReset_ip : (s.leaveReset).ip = s.ip := rfl
@[simp] theorem State.leaveReset_cmdcnt : (s.leaveReset).cmdcnt = s.cmdcnt := rfl
@[simp] theorem State.leaveReset_phase : (s.leaveReset).phase = s.phase := rfl
@[simp] theorem State.leaveReset_thresh : (s.leaveReset).thresh = s.thresh := rfl
@[simp] theorem State.leaveReset_opc : (s.leaveReset).opc = s.opc := rfl
@[simp] theorem State.leaveReset_route : (s.leaveReset).route = s.route := rfl
@[simp] theorem State.leaveReset_rpos : (s.leaveReset).rpos = s.rpos := rfl
@[simp] theorem State.leaveReset_lastn : (s.leaveReset).lastn = s.lastn := rfl
@[simp] theorem State.leaveReset_ftlen : (s.leaveReset).ftlen = s.ftlen := rfl
@[simp] theorem State.leaveReset_fdlen : (s.leaveReset).fdlen = s.fdlen := rfl
@[simp] theorem State.leaveReset_rxend : (s.leaveReset).rxend = s.rxend := rfl
@[simp] theorem State.leaveReset_rxerr : (s.leaveReset).rxerr = s.rxerr := rfl
@[simp] theorem State.leaveReset_txerr : (s.leaveReset).txerr = s.txerr := rfl
@[simp] theorem State.leaveReset_rt : (s.leaveReset).rt = s.rt := rfl
@[simp] theorem State.leaveReset_bld : (s.leaveReset).bld = s.bld := rfl
@[simp] theorem State.leaveReset_pay : (s.leaveReset).pay = s.pay := rfl
@[simp] theorem State.leaveReset_scr : (s.leaveReset).scr = s.scr := rfl
@[simp] theorem State.leaveReset_rxq : (s.leaveReset).rxq = s.rxq := rfl
@[simp] theorem State.leaveReset_txq : (s.leaveReset).txq = s.txq := rfl
@[simp] theorem State.leaveReset_cur : (s.leaveReset).cur = s.cur := rfl
@[simp] theorem State.leaveReset_tl : (s.leaveReset).tl = s.tl := rfl
@[simp] theorem State.leaveReset_rx : (s.leaveReset).rx = s.rx := rfl
@[simp] theorem State.leaveReset_rst : (s.leaveReset).rst = false := rfl
@[simp] theorem State.leaveReset_params : (s.leaveReset).params = s.params := rfl
@[simp] theorem State.leaveReset_resets : (s.leaveReset).resets = s.resets := rfl
@[simp] theorem State.leaveReset_bus : (s.leaveReset).bus = s.bus := rfl
@[simp] theorem State.leaveReset_wire : (s.leaveReset).wire = s.wire := rfl
@[simp] theorem State.leaveReset_sched : (s.leaveReset).sched = s.sched := rfl

/-! ### `State.setSched` -/

@[simp] theorem State.setSched_x (l : List Move) : (s.setSched l).x = s.x := rfl
@[simp] theorem State.setSched_busy (l : List Move) : (s.setSched l).busy = s.busy := rfl
@[simp] theorem State.setSched_closed (l : List Move) : (s.setSched l).closed = s.closed := rfl
@[simp] theorem State.setSched_fvalid (l : List Move) : (s.setSched l).fvalid = s.fvalid := rfl
@[simp] theorem State.setSched_fcomp (l : List Move) : (s.setSched l).fcomp = s.fcomp := rfl
@[simp] theorem State.setSched_ovr (l : List Move) : (s.setSched l).ovr = s.ovr := rfl
@[simp] theorem State.setSched_err (l : List Move) : (s.setSched l).err = s.err := rfl
@[simp] theorem State.setSched_errinfo (l : List Move) : (s.setSched l).errinfo = s.errinfo := rfl
@[simp] theorem State.setSched_esticky (l : List Move) : (s.setSched l).esticky = s.esticky := rfl
@[simp] theorem State.setSched_ie (l : List Move) : (s.setSched l).ie = s.ie := rfl
@[simp] theorem State.setSched_ip (l : List Move) : (s.setSched l).ip = s.ip := rfl
@[simp] theorem State.setSched_cmdcnt (l : List Move) : (s.setSched l).cmdcnt = s.cmdcnt := rfl
@[simp] theorem State.setSched_phase (l : List Move) : (s.setSched l).phase = s.phase := rfl
@[simp] theorem State.setSched_thresh (l : List Move) : (s.setSched l).thresh = s.thresh := rfl
@[simp] theorem State.setSched_opc (l : List Move) : (s.setSched l).opc = s.opc := rfl
@[simp] theorem State.setSched_route (l : List Move) : (s.setSched l).route = s.route := rfl
@[simp] theorem State.setSched_rpos (l : List Move) : (s.setSched l).rpos = s.rpos := rfl
@[simp] theorem State.setSched_lastn (l : List Move) : (s.setSched l).lastn = s.lastn := rfl
@[simp] theorem State.setSched_ftlen (l : List Move) : (s.setSched l).ftlen = s.ftlen := rfl
@[simp] theorem State.setSched_fdlen (l : List Move) : (s.setSched l).fdlen = s.fdlen := rfl
@[simp] theorem State.setSched_rxend (l : List Move) : (s.setSched l).rxend = s.rxend := rfl
@[simp] theorem State.setSched_rxerr (l : List Move) : (s.setSched l).rxerr = s.rxerr := rfl
@[simp] theorem State.setSched_txerr (l : List Move) : (s.setSched l).txerr = s.txerr := rfl
@[simp] theorem State.setSched_rt (l : List Move) : (s.setSched l).rt = s.rt := rfl
@[simp] theorem State.setSched_bld (l : List Move) : (s.setSched l).bld = s.bld := rfl
@[simp] theorem State.setSched_pay (l : List Move) : (s.setSched l).pay = s.pay := rfl
@[simp] theorem State.setSched_scr (l : List Move) : (s.setSched l).scr = s.scr := rfl
@[simp] theorem State.setSched_rxq (l : List Move) : (s.setSched l).rxq = s.rxq := rfl
@[simp] theorem State.setSched_txq (l : List Move) : (s.setSched l).txq = s.txq := rfl
@[simp] theorem State.setSched_cur (l : List Move) : (s.setSched l).cur = s.cur := rfl
@[simp] theorem State.setSched_tl (l : List Move) : (s.setSched l).tl = s.tl := rfl
@[simp] theorem State.setSched_rx (l : List Move) : (s.setSched l).rx = s.rx := rfl
@[simp] theorem State.setSched_rst (l : List Move) : (s.setSched l).rst = s.rst := rfl
@[simp] theorem State.setSched_params (l : List Move) : (s.setSched l).params = s.params := rfl
@[simp] theorem State.setSched_resets (l : List Move) : (s.setSched l).resets = s.resets := rfl
@[simp] theorem State.setSched_bus (l : List Move) : (s.setSched l).bus = s.bus := rfl
@[simp] theorem State.setSched_wire (l : List Move) : (s.setSched l).wire = s.wire := rfl
@[simp] theorem State.setSched_sched (l : List Move) : (s.setSched l).sched = l := rfl

end Sys2Proof.Machine
end

