-- ==== Sys2Proof/Laws/Memory.lean ====
section
/-! SUPPORT. The laws of SCR: reading after a write, the canonical form, and that canonical memories with the same bytes
are the same list. -/

namespace Sys2Proof.Machine

namespace Memory

@[simp] theorem lookup_nil (a : Nat) : lookup [] a = none := rfl

/-- A write is read back at its offset and changes no other. -/
theorem lookup_insert (m : Mem) (a c : Nat) (b : Byte) :
    lookup (insert m a b) c = if c = a then some b else lookup m c := by
  induction m with
  | nil => simp [insert, lookup]
  | cons d m ih =>
    obtain ⟨k, v⟩ := d
    rcases lt_trichotomy a k with h | h | h
    · simp only [insert, if_pos h]; rfl
    · subst h
      simp only [insert, lt_irrefl, if_false, if_true, lookup]; split_ifs <;> rfl
    · simp only [insert, if_neg (show ¬a < k by omega), if_neg (show ¬a = k by omega), lookup, ih]
      grind

/-- Inserting puts no other offset into the list. -/
theorem mem_insert {m : Mem} {a : Nat} {b : Byte} {c : Host.Cell} (h : c ∈ insert m a b) : c = (a, b) ∨ c ∈ m := by
  induction m with
  | nil => simpa [insert] using h
  | cons d m ih =>
    obtain ⟨k, v⟩ := d
    simp only [insert] at h
    split_ifs at h with h1 h2
    · simpa using h
    · rcases List.mem_cons.1 h with h | h
      · exact .inl h
      · exact .inr (List.mem_cons_of_mem _ h)
    · rcases List.mem_cons.1 h with h | h
      · exact .inr (h ▸ List.mem_cons_self)
      · exact (ih h).imp id (List.mem_cons_of_mem _)

/-- A write keeps the canonical form. -/
theorem insert_wf {m : Mem} (h : wf m) (a : Nat) (b : Byte) : wf (insert m a b) := by
  induction m with
  | nil => simp [insert]
  | cons d m ih =>
    obtain ⟨k, v⟩ := d
    obtain ⟨hk, hm⟩ := List.pairwise_cons.1 h
    simp only [insert]
    split_ifs with h1 h2
    · exact List.pairwise_cons.2 ⟨fun c hc => by
        rcases List.mem_cons.1 hc with rfl | hc
        · exact h1
        · exact lt_trans h1 (hk c hc), h⟩
    · subst h2; exact List.pairwise_cons.2 ⟨hk, hm⟩
    · refine List.pairwise_cons.2 ⟨fun c hc => ?_, ih hm⟩
      rcases mem_insert hc with rfl | hc
      · show k < a; omega
      · exact hk c hc

/-- What a byte sequence written from an offset on leaves at every offset. -/
theorem lookup_insertAll (s : Bytes) : ∀ (m : Mem) (a c : Nat),
    lookup (insertAll m a s) c = if a ≤ c ∧ c < a + s.length then s[c - a]? else lookup m c := by
  induction s with
  | nil => intro m a c; simp only [insertAll, List.length_nil]; rw [if_neg (by omega)]
  | cons b s ih =>
    intro m a c
    simp only [insertAll, ih, lookup_insert, List.length_cons]
    grind

/-- Writing a byte sequence keeps the canonical form. -/
theorem insertAll_wf (s : Bytes) : ∀ {m : Mem}, wf m → ∀ a, wf (insertAll m a s) := by
  induction s with
  | nil => intro m h a; exact h
  | cons b s ih => intro m h a; exact ih (insert_wf h a b) (a + 1)

/-- Writing within a bound keeps every offset within it. -/
theorem insertAll_bound (s : Bytes) : ∀ {m : Mem} {a n : Nat}, (∀ c ∈ m, c.1 < n) → a + s.length ≤ n →
    ∀ c ∈ insertAll m a s, c.1 < n := by
  induction s with
  | nil => intro m a n h _; exact h
  | cons b s ih =>
    intro m a n h hn
    simp only [List.length_cons] at hn
    refine ih (fun c hc => ?_) (by omega)
    rcases mem_insert hc with rfl | hc
    · show a < n; omega
    · exact h c hc

/-- An offset below every listed one has no value. -/
theorem lookup_below {m : Mem} {a : Nat} (h : ∀ c ∈ m, a < c.1) : lookup m a = none := by
  induction m with
  | nil => rfl
  | cons d m ih =>
    obtain ⟨k, v⟩ := d
    have hk : a < k := h (k, v) List.mem_cons_self
    simp only [lookup]
    rw [if_neg (Nat.ne_of_lt hk)]
    exact ih fun c hc => h c (List.mem_cons_of_mem _ hc)

/-- Canonical memories with the same bytes are the same data. -/
theorem wf_ext : ∀ {m n : Mem}, wf m → wf n → (∀ a, lookup m a = lookup n a) → m = n
  | [], [], _, _, _ => rfl
  | [], (k, v) :: n, _, _, h => by have := h k; simp [lookup] at this
  | (k, v) :: m, [], _, _, h => by have := h k; simp [lookup] at this
  | (k, v) :: m, (l, u) :: n, hm, hn, h => by
    obtain ⟨hk, hm'⟩ := List.pairwise_cons.1 hm
    obtain ⟨hl, hn'⟩ := List.pairwise_cons.1 hn
    have hkl : k = l := by
      rcases lt_trichotomy k l with hlt | heq | hgt
      · have := h k
        rw [lookup_below (m := (l, u) :: n)] at this
        · simp [lookup] at this
        · intro c hc
          rcases List.mem_cons.1 hc with rfl | hc
          · exact hlt
          · exact lt_trans hlt (hl c hc)
      · exact heq
      · have := h l
        rw [lookup_below (m := (k, v) :: m)] at this
        · simp [lookup] at this
        · intro c hc
          rcases List.mem_cons.1 hc with rfl | hc
          · exact hgt
          · exact lt_trans hgt (hk c hc)
    subst hkl
    have hv : v = u := by have := h k; simpa [lookup] using this
    subst hv
    have hmn : m = n := by
      refine wf_ext hm' hn' fun a => ?_
      by_cases ha : a = k
      · subst ha; rw [lookup_below hk, lookup_below hl]
      · have := h a; simpa [lookup, ha] using this
    rw [hmn]

end Memory

/-- What a byte sequence written to SCR leaves at every offset. -/
theorem scrByte_setScr_insertAll (s : State) (a c : Nat) (d : Bytes) :
    (s.setScr (Memory.insertAll s.scr a d)).scrByte c =
      if a ≤ c ∧ c < a + d.length then d.getD (c - a) 0 else s.scrByte c := by
  simp only [State.scrByte, State.setScr_scr, State.setScr_resets, Memory.lookup_insertAll]
  split_ifs with h
  · have : c - a < d.length := by omega
    simp [this]
  · rfl

@[simp] theorem scrBytes_length (s : State) : ∀ (n a : Nat), (s.scrBytes a n).length = n
  | 0, _ => rfl
  | n + 1, a => by simp [State.scrBytes, scrBytes_length s n]

/-- SCR is read byte by byte. -/
theorem scrBytes_getElem (s : State) : ∀ (n a k : Nat) (h : k < (s.scrBytes a n).length),
    (s.scrBytes a n)[k] = s.scrByte (a + k)
  | 0, _, k, h => by simp [State.scrBytes] at h
  | n + 1, a, 0, _ => by simp [State.scrBytes]
  | n + 1, a, k + 1, h => by
    simp only [State.scrBytes, List.getElem_cons_succ]
    rw [scrBytes_getElem s n (a + 1) k]
    congr 1; omega

/-- The bytes of SCR from an offset on, as a list over the offsets. -/
theorem scrBytes_eq_map (s : State) (a n : Nat) : s.scrBytes a n = (List.range n).map fun k => s.scrByte (a + k) := by
  apply List.ext_getElem
  · simp
  · intro k h1 h2; rw [scrBytes_getElem]; simp


end Sys2Proof.Machine
end

