-- ==== Sys2Proof/Laws/Ops.lean ====
section
/-! SUPPORT. What each shared operation can do, said once: when it answers, what it answers; when it raises, what. -/

namespace Sys2Proof.Machine

/-! ### Completion -/

/-- A closed block turns the command away (R344). -/
theorem performOr_closed {s : State} (h : s.closed = true) (b : State) (r : Effect) :
    s.performOr b r = s.completeErr ⟨.closed, 0⟩ := by simp [State.performOr, h]

/-- An open block completes a rule that raised nothing without error (R341). -/
theorem performOr_ok {s : State} (h : s.closed = false) (b t : State) :
    s.performOr b (.ok t) = t.completeOk := by simp [State.performOr, h, completeEffect]

/-- An open block completes a rule that raised an error with it (R340). -/
theorem performOr_error {s : State} (h : s.closed = false) (b : State) (e : Raise) :
    s.performOr b (.error e) = b.completeErr e := by simp [State.performOr, h, completeEffect]

/-- The three ways a command of one engine step can end. -/
theorem performOr_cases (s b : State) (r : Effect) :
    (s.closed = true ∧ s.performOr b r = s.completeErr ⟨.closed, 0⟩) ∨
    (s.closed = false ∧ ∃ t, r = .ok t ∧ s.performOr b r = t.completeOk) ∨
    (s.closed = false ∧ ∃ e, r = .error e ∧ s.performOr b r = b.completeErr e) := by
  cases h : s.closed with
  | true => exact .inl ⟨rfl, performOr_closed h b r⟩
  | false =>
    cases r with
    | ok t => exact .inr (.inl ⟨rfl, t, rfl, performOr_ok h b t⟩)
    | error e => exact .inr (.inr ⟨rfl, e, rfl, performOr_error h b e⟩)

@[simp] theorem perform_eq (s : State) (r : Effect) : s.perform r = s.performOr s r := rfl

/-! ### BLD and PAY -/

/-- `BldAppend` when the bytes fit. -/
theorem bldAppend_ok {b : Bytes} {s : State} (h : s.bld.length + b.length ≤ s.params.bldCap) :
    bldAppend b s = .ok (s.appendBld b) := by simp [bldAppend, State.blen, h]

/-- `BldAppend` when they do not. -/
theorem bldAppend_error {b : Bytes} {s : State} (h : s.params.bldCap < s.bld.length + b.length) :
    bldAppend b s = .error ⟨.bldFull, word32 (s.bld.length + b.length)⟩ := by
  simp [bldAppend, State.blen, Nat.not_le.2 h]

/-- Everything `BldAppend` can do. -/
theorem bldAppend_eq_ok {b : Bytes} {s t : State} :
    bldAppend b s = .ok t ↔ s.bld.length + b.length ≤ s.params.bldCap ∧ t = s.appendBld b := by
  by_cases h : s.bld.length + b.length ≤ s.params.bldCap
  · simp [bldAppend_ok h, h, eq_comm]
  · simp [bldAppend_error (Nat.lt_of_not_le h), h]

@[simp] theorem payRest_length (s : State) : s.payRest.length = s.pay.length - s.rpos := by simp [State.payRest]

/-- `PayPeek` when there are enough bytes. -/
theorem payPeek_ok {n : Nat} {s : State} (h : s.rpos + n ≤ s.pay.length) :
    payPeek n s = .ok ((s.pay.drop s.rpos).take n) := by simp [payPeek, State.plen, State.payRest, h]

/-- `PayPeek` when there are not. -/
theorem payPeek_error {n : Nat} {s : State} (h : s.pay.length < s.rpos + n) :
    payPeek n s = .error ⟨.insufficientBytes, word32 (s.pay.length - s.rpos)⟩ := by
  simp [payPeek, State.plen, State.payShort, Nat.not_le.2 h]

/-- Everything `PayPeek` can answer. -/
theorem payPeek_eq_ok {n : Nat} {s : State} {b : Bytes} :
    payPeek n s = .ok b ↔ s.rpos + n ≤ s.pay.length ∧ b = (s.pay.drop s.rpos).take n := by
  by_cases h : s.rpos + n ≤ s.pay.length
  · simp [payPeek_ok h, h, eq_comm]
  · simp [payPeek_error (Nat.lt_of_not_le h), h]

/-- What `PayPeek` answers has the length asked for. -/
theorem payPeek_length {n : Nat} {s : State} {b : Bytes} (h : payPeek n s = .ok b) : b.length = n := by
  obtain ⟨h1, rfl⟩ := payPeek_eq_ok.1 h
  simp; omega

/-! ### SCR -/

/-- `MemRead` of a legal access. -/
theorem memRead_ok {a : W64} {n : Nat} {s : State} (h : a.toNat + n ≤ s.params.scrSize) :
    memRead a n s = .ok (s.scrBytes a.toNat n) := by simp [memRead, State.scrLegal, h]

/-- `MemRead` of an illegal access. -/
theorem memRead_error {a : W64} {n : Nat} {s : State} (h : s.params.scrSize < a.toNat + n) :
    memRead a n s = .error ⟨.scrBounds, trunc 32 a⟩ := by
  simp [memRead, State.scrLegal, scrRaise, Nat.not_le.2 h]

/-- Everything `MemRead` can answer. -/
theorem memRead_eq_ok {a : W64} {n : Nat} {s : State} {b : Bytes} :
    memRead a n s = .ok b ↔ a.toNat + n ≤ s.params.scrSize ∧ b = s.scrBytes a.toNat n := by
  by_cases h : a.toNat + n ≤ s.params.scrSize
  · simp [memRead_ok h, h, eq_comm]
  · simp [memRead_error (Nat.lt_of_not_le h), h]

/-- `MemWrite` of a legal access. -/
theorem memWrite_ok {a : W64} {b : Bytes} {s : State} (h : a.toNat + b.length ≤ s.params.scrSize) :
    memWrite a b s = .ok (s.setScr (Memory.insertAll s.scr a.toNat b)) := by simp [memWrite, State.scrLegal, h]

/-- `MemWrite` of an illegal access. -/
theorem memWrite_error {a : W64} {b : Bytes} {s : State} (h : s.params.scrSize < a.toNat + b.length) :
    memWrite a b s = .error ⟨.scrBounds, trunc 32 a⟩ := by
  simp [memWrite, State.scrLegal, scrRaise, Nat.not_le.2 h]

/-- Everything `MemWrite` can do. -/
theorem memWrite_eq_ok {a : W64} {b : Bytes} {s t : State} :
    memWrite a b s = .ok t ↔
      a.toNat + b.length ≤ s.params.scrSize ∧ t = s.setScr (Memory.insertAll s.scr a.toNat b) := by
  by_cases h : a.toNat + b.length ≤ s.params.scrSize
  · simp [memWrite_ok h, h, eq_comm]
  · simp [memWrite_error (Nat.lt_of_not_le h), h]

/-! ### Registers -/

@[simp] theorem reg_setReg_self (s : State) (r : Reg) (v : W64) : (s.setReg r v).reg r = v := by
  simp [State.reg]

/-- A register write leaves the other registers. -/
theorem reg_setReg_ne (s : State) {r q : Reg} (v : W64) (h : r ≠ q) : (s.setReg r v).reg q = s.reg q := by
  have : r.val ≠ q.val := fun e => h (Fin.ext e)
  simp [State.reg, this]

theorem perform_ok {s t : State} (hc : s.closed = false) {r : Effect} (h : r = .ok t) :
    s.perform r = t.completeOk := by
  subst h; exact performOr_ok hc _ _

theorem perform_error {s : State} (hc : s.closed = false) {r : Effect} {e : Raise} (h : r = .error e) :
    s.perform r = s.completeErr e := by
  subst h; exact performOr_error hc _ _


end Sys2Proof.Machine
end

