-- ==== Sys2Proof/Laws/VarInt.lean ====
section
/-! SUPPORT. What `decode_varint` can answer, and how long a VarInt is. -/

namespace Sys2Proof.Machine

/-- A VarInt that decodes takes at least one byte and at most the bytes allowed and there. -/
theorem decodeGroups_value : ∀ {n i : Nat} {acc v : W32} {s : Bytes} {k : Nat},
    decodeGroups n i acc s = .value v k → i < k ∧ k ≤ i + n ∧ k ≤ i + s.length
  | 0, _, _, _, _, _, h => by simp [decodeGroups] at h
  | _ + 1, _, _, _, [], _, h => by simp [decodeGroups] at h
  | n + 1, i, acc, v, b :: s, k, h => by
    simp only [decodeGroups] at h
    split at h
    · have := decodeGroups_value h
      simp only [List.length_cons]; omega
    · injection h with _ h
      simp only [List.length_cons]; omega

/-- `decode_varint` consumes 1 to 5 bytes, no more than there are (R163). -/
theorem decodeVarint_value {s : Bytes} {v : W32} {k : Nat} (h : decodeVarint s = .value v k) :
    0 < k ∧ k ≤ 5 ∧ k ≤ s.length := by
  have := decodeGroups_value h; omega

/-- The three results of `decode_varint`, as its users see them. -/
theorem takeVarint_cases (s : Bytes) :
    (∃ v k, takeVarint s = .ok (v, k) ∧ decodeVarint s = .value v k ∧ 0 < k ∧ k ≤ 5 ∧ k ≤ s.length) ∨
    (takeVarint s = .error ⟨.insufficientBytes, word32 s.length⟩ ∧ decodeVarint s = .insufficient) ∨
    (takeVarint s = .error ⟨.varIntTooLarge, 0⟩ ∧ decodeVarint s = .tooLarge) := by
  cases h : decodeVarint s with
  | value v k => exact .inl ⟨v, k, by simp [takeVarint, h], rfl, decodeVarint_value h⟩
  | insufficient => exact .inr (.inl ⟨by simp [takeVarint, h], rfl⟩)
  | tooLarge => exact .inr (.inr ⟨by simp [takeVarint, h], rfl⟩)

/-- The encoding of a VarInt has at most as many bytes as the loop allows, and at least one. -/
theorem encodeGroups_length : ∀ (n : Nat) (u : W32), (encodeGroups (n + 1) u).length ∈ Finset.Icc 1 (n + 1)
  | 0, u => by simp only [encodeGroups]; split_ifs <;> simp
  | n + 1, u => by
    rw [encodeGroups]
    split_ifs
    · simp
    · have := encodeGroups_length n (u >>> 7)
      simp only [Finset.mem_Icc, List.length_cons] at this ⊢; omega

/-- A VarInt is 1 to 5 bytes (R162). -/
theorem encodeVarint_length (v : W32) : 0 < (encodeVarint v).length ∧ (encodeVarint v).length ≤ 5 := by
  have := encodeGroups_length 4 v
  simp only [Finset.mem_Icc] at this
  exact this

/-- The continuation bit says whether the byte is 128 or more. -/
theorem continues_iff (b : Byte) : continues b = true ↔ 128 ≤ b.toNat := by revert b; decide

/-- The group of a byte as a number. -/
theorem addGroup_eq (acc : W32) (i : Nat) (b : Byte) :
    addGroup acc i b = acc ||| BitVec.ofNat 32 (b.toNat % 128 * 2 ^ (7 * i)) := by
  rw [addGroup]
  congr 1
  have hb : ((b &&& 0x7F).setWidth 32 : W32).toNat = b.toNat % 128 := by
    have : (b &&& 0x7F).toNat = b.toNat % 128 := by
      rw [BitVec.toNat_and]; exact Nat.and_two_pow_sub_one_eq_mod b.toNat 7
    rw [BitVec.toNat_setWidth, this]; omega
  apply BitVec.eq_of_toNat_eq
  rw [BitVec.toNat_shiftLeft, hb, Nat.shiftLeft_eq, BitVec.toNat_ofNat]


end Sys2Proof.Machine
end

