-- ==== Sys2Proof/Laws/Exec.lean ====
section
/-! SUPPORT. Everything a command can do, said once: what a command of one engine step writes when its rule raises
nothing, the ways a command can end, and the ways one engine step of FRAME.DEC can. -/

namespace Sys2Proof.Machine

/-- What a command of one engine step has written when its rule raised nothing, before the completion. NOP and
CONN.RESET, which skip the closed check, and FRAME.DEC, which takes many steps, are not among these. -/
def Wrote (i : Instr) (s t : State) : Prop :=
  match i with
  | .nop | .connReset | .frameDec => False
  | .ldi ra imm => t = s.setReg ra (immValue imm)
  | .phaseSet _ => s.phase = .handshake ∧ (t = s.setPhase .status ∨ t = s.setPhase .login)
  | .threshSet ra => t = s.setThresh (trunc 32 (s.reg ra))
  | .dispatch => s.fvalid = true ∧ ∃ r, t = s.setRoute r ∨ (∃ v, t = (s.setThresh v).setRoute r) ∨
      s.phase = .login ∧ t = (s.setPhase .play).setRoute r
  | .bldClr => t = s.clearBld
  | .paySeek ra => (s.reg ra).toNat ≤ s.pay.length ∧ t = s.setRpos (s.reg ra).toNat
  | .payLoad => t = s.loadPay
  | .encVarint _ | .encByte _ | .encUbyte _ | .encShort _ | .encUshort _ | .encInt _ | .encLong _ | .encBool _
  | .encFloat _ | .encDouble _ | .encString _ _ | .encUuid _ | .encRaw _ _ =>
    ∃ b, s.bld.length + b.length ≤ s.params.bldCap ∧ t = s.appendBld b
  | .decVarint ra | .decByte ra | .decUbyte ra | .decShort ra | .decUshort ra | .decInt ra | .decLong ra | .decBool ra
  | .decFloat ra | .decDouble ra => ∃ v n, 0 < n ∧ s.rpos + n ≤ s.pay.length ∧ t = (s.setReg ra v).advance n
  | .decUuid ra => ∃ v w, s.rpos + 16 ≤ s.pay.length ∧
      t = ((s.setReg ra v).setReg (pairLow ra) w).advance 16
  | .decString ra rb => ∃ v n b, s.rpos + n ≤ s.pay.length ∧ (s.reg rb).toNat + b.length ≤ s.params.scrSize ∧
      t = ((s.setScr (Memory.insertAll s.scr (s.reg rb).toNat b)).setReg ra v).advance n
  | .decRaw _ rb => ∃ n b, s.rpos + n ≤ s.pay.length ∧ (s.reg rb).toNat + b.length ≤ s.params.scrSize ∧
      t = (s.setScr (Memory.insertAll s.scr (s.reg rb).toNat b)).advance n
  | .uuidFmt _ rb => ∃ b, (s.reg rb).toNat + b.length ≤ s.params.scrSize ∧
      t = s.setScr (Memory.insertAll s.scr (s.reg rb).toNat b)
  | .uuidParse ra _ => ∃ v w, t = (s.setReg ra v).setReg (pairLow ra) w
  | .frameEnc ra => s.txerr = false ∧ ∃ f,
      frameBytes Config.zip s.thresh (trunc 32 (s.reg ra)) s.bld = .ok f ∧ t = s.emitFrame f

/-- A rule that goes on after a part of it raised nothing. -/
theorem bind_eq_ok {α β : Type} {x : Except Raise α} {f : α → Except Raise β} {r : β} :
    (x >>= f) = .ok r ↔ ∃ a, x = .ok a ∧ f a = .ok r := by
  cases x with
  | ok a => exact ⟨fun h => ⟨a, rfl, h⟩, fun ⟨_, h, h2⟩ => by cases h; exact h2⟩
  | error e => exact ⟨nofun, nofun⟩

/-- What a rule that ends in `BldAppend` writes. -/
theorem bldAppend_wrote {b : Bytes} {s t : State} (h : bldAppend b s = .ok t) :
    ∃ b : Bytes, s.bld.length + b.length ≤ s.params.bldCap ∧ t = s.appendBld b := ⟨b, bldAppend_eq_ok.1 h⟩

/-- What the DEC of a fixed width writes. -/
theorem decFixed_wrote {n : Nat} {ext : BitVec (8 * n) → W64} {ra : Reg} {s t : State} (hn : 0 < n)
    (h : decFixed n ext ra s = .ok t) :
    ∃ v n, 0 < n ∧ s.rpos + n ≤ s.pay.length ∧ t = (s.setReg ra v).advance n := by
  obtain ⟨b, hb, h⟩ := bind_eq_ok.1 h
  cases h
  exact ⟨_, n, hn, (payPeek_eq_ok.1 hb).1, rfl⟩

/-- A command of one engine step runs its rule between the closed check and the completion, and `Wrote` says what the
rule can have written. -/
theorem exec_oneStep (i : Instr) (s : State) (h1 : i ≠ .nop) (h2 : i ≠ .connReset) (h3 : i ≠ .frameDec) :
    ∃ r : Effect, exec i s = .next (s.performOr (if i = .dispatch then s.setRoute 0 else s) r) ∧
      ∀ t, r = .ok t → Wrote i s t := by
  cases i <;> first | contradiction | refine ⟨_, rfl, fun t h => ?_⟩
  case ldi ra imm => cases h; rfl
  case phaseSet imm =>
    obtain ⟨p, hp, h⟩ := bind_eq_ok.1 h
    simp only [targetPhase] at hp
    split_ifs at hp h <;> cases hp <;> cases h <;> simp_all [Wrote]
  case threshSet ra => cases h; rfl
  case dispatch =>
    change dispatchRule s = .ok t at h
    rw [dispatchRule] at h
    cases hv : s.fvalid with
    | false => simp [hv, bind, Except.bind] at h
    | true =>
      refine ⟨hv, ?_⟩
      simp only [hv, Bool.not_true, Bool.false_eq_true, if_false] at h
      split at h
      · split at h
        · cases h
        · cases h; exact ⟨0, .inl rfl⟩
      · rename_i e _
        obtain ⟨u, hu, h⟩ := bind_eq_ok.1 h
        cases h
        refine ⟨e.route, ?_⟩
        simp only [routeAction, setCompressionAction, loginSuccessAction] at hu
        split_ifs at hu
        · obtain ⟨⟨v, _⟩, -, hu⟩ := bind_eq_ok.1 hu
          cases hu; exact .inr (.inl ⟨v, rfl⟩)
        · cases hu; exact .inr (.inr ⟨‹_›, rfl⟩)
        · cases hu; exact .inl rfl
        · cases hu; exact .inl rfl
  case bldClr => cases h; rfl
  case paySeek ra =>
    split_ifs at h with hl
    cases h
    exact ⟨Nat.not_lt.1 hl, rfl⟩
  case payLoad => cases h; rfl
  case decVarint ra =>
    obtain ⟨⟨v, n⟩, hv, h⟩ := bind_eq_ok.1 h
    cases h
    obtain ⟨_, _, h1, -, h2, -, h3⟩ | ⟨h1, -⟩ | ⟨h1, -⟩ := takeVarint_cases s.payRest <;> rw [h1] at hv <;> cases hv
    exact ⟨_, n, h2, by simp at h3; omega, rfl⟩
  case decBool ra =>
    obtain ⟨b, hb, h⟩ := bind_eq_ok.1 h
    obtain ⟨v, -, h⟩ := bind_eq_ok.1 h
    cases h
    exact ⟨_, 1, by omega, (payPeek_eq_ok.1 hb).1, rfl⟩
  case decString ra rb =>
    obtain ⟨⟨v, k⟩, -, h⟩ := bind_eq_ok.1 h
    obtain ⟨n, -, h⟩ := bind_eq_ok.1 h
    obtain ⟨b, hb, h⟩ := bind_eq_ok.1 h
    obtain ⟨u, hu, h⟩ := bind_eq_ok.1 h
    cases h
    obtain ⟨hl, rfl⟩ := memWrite_eq_ok.1 hu
    exact ⟨_, _, _, (payPeek_eq_ok.1 hb).1, hl, rfl⟩
  case decRaw ra rb =>
    obtain ⟨n, -, h⟩ := bind_eq_ok.1 h
    obtain ⟨b, hb, h⟩ := bind_eq_ok.1 h
    obtain ⟨u, hu, h⟩ := bind_eq_ok.1 h
    cases h
    obtain ⟨hl, rfl⟩ := memWrite_eq_ok.1 hu
    exact ⟨_, _, (payPeek_eq_ok.1 hb).1, hl, rfl⟩
  case decUuid ra =>
    obtain ⟨b, hb, h⟩ := bind_eq_ok.1 h
    cases h
    exact ⟨_, _, (payPeek_eq_ok.1 hb).1, rfl⟩
  case uuidFmt ra rb => exact ⟨_, memWrite_eq_ok.1 h⟩
  case uuidParse ra rb =>
    obtain ⟨_, -, h⟩ := bind_eq_ok.1 h
    obtain ⟨⟨hi, lo⟩, -, h⟩ := bind_eq_ok.1 h
    cases h
    exact ⟨_, _, rfl⟩
  case frameEnc ra =>
    cases ht : s.txerr with
    | true => simp [ht, bind, Except.bind] at h
    | false =>
      simp only [ht, Bool.false_eq_true, if_false] at h
      obtain ⟨f, hf, h⟩ := bind_eq_ok.1 h
      cases h
      exact ⟨ht, f, hf, rfl⟩
  case encString =>
    obtain ⟨_, -, h⟩ := bind_eq_ok.1 h
    obtain ⟨_, -, h⟩ := bind_eq_ok.1 h
    exact bldAppend_wrote h
  case encRaw =>
    obtain ⟨_, -, h⟩ := bind_eq_ok.1 h
    obtain ⟨_, -, h⟩ := bind_eq_ok.1 h
    exact bldAppend_wrote h
  all_goals first
    | exact bldAppend_wrote h
    | exact decFixed_wrote (by decide) h

/-- No command of one engine step writes another field than these. -/
theorem wrote_frame {i : Instr} {s t : State} (h : Wrote i s t) :
    t = { s with
      x := t.x
      fvalid := t.fvalid
      phase := t.phase
      thresh := t.thresh
      route := t.route
      rpos := t.rpos
      lastn := t.lastn
      bld := t.bld
      pay := t.pay
      scr := t.scr
      txq := t.txq
      tl := t.tl } := by
  cases i <;> simp only [Wrote] at h
  case dispatch => obtain ⟨-, r, rfl | ⟨v, rfl⟩ | ⟨-, rfl⟩⟩ := h <;> rfl
  case phaseSet => obtain ⟨-, rfl | rfl⟩ := h <;> rfl
  case decString => obtain ⟨_, _, _, -, -, rfl⟩ := h; rfl
  case decRaw => obtain ⟨_, _, -, -, rfl⟩ := h; rfl
  all_goals first
    | (subst h; rfl)
    | (obtain ⟨-, rfl⟩ := h; rfl)
    | (obtain ⟨_, -, rfl⟩ := h; rfl)
    | (obtain ⟨-, _, -, rfl⟩ := h; rfl)
    | (obtain ⟨_, _, -, -, rfl⟩ := h; rfl)

/-- The ways a command of one engine step can end: turned away, with an error, or with what `Wrote` says. -/
theorem exec_oneStep_cases {i : Instr} {s t : State} (h1 : i ≠ .nop) (h2 : i ≠ .connReset) (h3 : i ≠ .frameDec)
    (h : exec i s = .next t) :
    (s.closed = true ∧ t = s.completeErr ⟨.closed, 0⟩) ∨
    (s.closed = false ∧ ∃ e, t = (if i = .dispatch then s.setRoute 0 else s).completeErr e) ∨
    (s.closed = false ∧ ∃ u, Wrote i s u ∧ t = u.completeOk) := by
  obtain ⟨r, hr, hw⟩ := exec_oneStep i s h1 h2 h3
  rw [hr] at h
  injection h with h
  subst h
  obtain ⟨hc, h⟩ | ⟨hc, u, rfl, h⟩ | ⟨hc, e, rfl, h⟩ := performOr_cases s (if i = .dispatch then s.setRoute 0 else s) r
  · exact .inl ⟨hc, h⟩
  · exact .inr (.inr ⟨hc, u, hw u rfl, h⟩)
  · exact .inr (.inl ⟨hc, e, h⟩)

/-! ### FRAME.DEC -/

/-- The state in which a FRAME.DEC asks for a byte, and its control point there: where it stood, or the start with
THRESH latched. -/
def AsksAt (s u : State) (p : RxProgress) : Prop :=
  s.rx = some p ∧ u = s ∨ s.rx = none ∧ s.closed = false ∧ p = RxProgress.start ∧ u = s.startRx

/-- One engine step of FRAME.DEC: the command is turned away, asks for a byte and holds, ends with the stream, or takes
a byte. -/
theorem execFrameDec_cases {s t : State} (h : exec .frameDec s = .next t) :
    (s.rx = none ∧ s.closed = true ∧ t = s.completeErr ⟨.closed, 0⟩) ∨
    ∃ u p, AsksAt s u p ∧
      ((s.rxq = [] ∧ s.rxerr = false ∧ s.rxend = false ∧ t = u) ∨
       (s.rxq = [] ∧ s.rxerr = true ∧ t = u.frameFail p.point.ftlen 0 ⟨.rxIoError, word32 p.taken⟩) ∨
       (s.rxq = [] ∧ s.rxerr = false ∧ s.rxend = true ∧
         t = u.frameFail p.point.ftlen 0 ⟨.rxEnd, word32 p.taken⟩) ∨
       ∃ b q, s.rxq = b :: q ∧ t = rxByte p b (u.setRxq q)) := by
  have key : ∀ u p, u.rxq = s.rxq → u.rxerr = s.rxerr → u.rxend = s.rxend → t = rxStep p u →
      (s.rxq = [] ∧ s.rxerr = false ∧ s.rxend = false ∧ t = u) ∨
       (s.rxq = [] ∧ s.rxerr = true ∧ t = u.frameFail p.point.ftlen 0 ⟨.rxIoError, word32 p.taken⟩) ∨
       (s.rxq = [] ∧ s.rxerr = false ∧ s.rxend = true ∧
         t = u.frameFail p.point.ftlen 0 ⟨.rxEnd, word32 p.taken⟩) ∨
       ∃ b q, s.rxq = b :: q ∧ t = rxByte p b (u.setRxq q) := by
    intro u p h1 h2 h3 ht
    rw [← h1, ← h2, ← h3, ht, rxStep]
    cases u.rxq <;> cases u.rxerr <;> cases u.rxend <;> simp
  simp only [exec, execFrameDec] at h
  injection h with h
  split at h
  · rename_i p hp
    exact .inr ⟨s, p, .inl ⟨hp, rfl⟩, key s p rfl rfl rfl h.symm⟩
  · rename_i hp
    split at h
    · exact .inl ⟨hp, ‹_›, h.symm⟩
    · rename_i hc
      exact .inr ⟨s.startRx, _, .inr ⟨hp, by simpa using hc, rfl, rfl⟩, key _ _ rfl rfl rfl h.symm⟩

/-- What a frame whose bytes parse holds: no more payload than bytes allowed, and the data length 0 in the plain
format. -/
theorem parseFrame_ok {zip : ZipUnit} {payCap : Nat} {tl : W32} {buf : Bytes} {f : FrameParts}
    (h : parseFrame zip payCap tl buf = .ok f) (hb : buf.length ≤ payCap) :
    f.payload.length ≤ payCap ∧ (tl.toInt < 0 → f.dlen = 0) := by
  have key : ∀ d inner, frameOpcode d inner = .ok f → inner.length ≤ payCap → f.payload.length ≤ payCap ∧ f.dlen = d := by
    intro d inner h hl
    simp only [frameOpcode] at h
    split at h
    · cases h
    · cases h; simp; omega
  simp only [parseFrame] at h
  split_ifs at h with ht
  · have := key _ _ h hb
    exact ⟨this.1, fun _ => this.2⟩
  · split at h
    · cases h
    · rename_i d inner hi
      refine ⟨(key _ _ h ?_).1, fun h => absurd h ht⟩
      simp only [frameBody] at hi
      split at hi
      · cases hi
      · split_ifs at hi
        · cases hi; simp; omega
        · split at hi
          · cases hi
          · split_ifs at hi
            cases hi; omega

/-- No error of a VarInt closes the block. -/
theorem takeVarint_open {s : Bytes} {e : Raise} (h : takeVarint s = .error e) :
    (e.error.cause == Cause.transport) = false := by
  simp only [takeVarint] at h
  split at h <;> cases h <;> rfl

/-- No error inside a frame closes the block. -/
theorem parseFrame_open {zip : ZipUnit} {payCap : Nat} {tl : W32} {buf : Bytes} {e : FrameError}
    (h : parseFrame zip payCap tl buf = .error e) : (e.raise.error.cause == Cause.transport) = false := by
  have key : ∀ d inner, frameOpcode d inner = .error e → (e.raise.error.cause == Cause.transport) = false := by
    intro d inner h
    simp only [frameOpcode] at h
    split at h
    · cases h; exact takeVarint_open ‹_›
    · cases h
  simp only [parseFrame] at h
  split_ifs at h
  · exact key _ _ h
  · split at h
    · rename_i hi
      cases h
      simp only [frameBody] at hi
      split at hi
      · cases hi; exact takeVarint_open ‹_›
      · split_ifs at hi
        · cases hi; rfl
        · split at hi
          · cases hi; rfl
          · split_ifs at hi
            cases hi; rfl
    · exact key _ _ h

/-- What a FRAME.DEC does with a byte: it goes on to a next control point, fails with an error that does not close the
block, or completes with the frame it has taken. -/
theorem rxByte_cases (p : RxProgress) (b : Byte) (s : State) :
    (∃ q, rxByte p b s = s.setRx q ∧ (p.Wf s.params.payCap → q.Wf s.params.payCap)) ∨
    (∃ ftlen fdlen e, rxByte p b s = s.frameFail ftlen fdlen e ∧ (e.error.cause == Cause.transport) = false) ∨
    ∃ tlen f buf, rxByte p b s = (s.frameDone (word32 tlen) f).completeOk ∧
      parseFrame Config.zip s.params.payCap s.tl (buf ++ [b]) = .ok f ∧ p.point = .take tlen buf ∧
      tlen ≤ buf.length + 1 := by
  obtain ⟨taken, point⟩ := p
  cases point with
  | len i acc =>
    simp only [rxByte]
    split_ifs with hc hi
    · exact .inl ⟨_, rfl, by simp only [RxProgress.Wf]; omega⟩
    · exact .inr (.inl ⟨_, _, _, rfl, rfl⟩)
    · simp only [gotLength]
      split_ifs with h1 h2
      · exact .inr (.inl ⟨_, _, _, rfl, rfl⟩)
      · refine .inl ⟨_, rfl, ?_⟩
        simp only [RxProgress.Wf]
        rw [BitVec.toInt_eq_toNat_cond] at h1
        split at h1 <;> omega
      · refine .inl ⟨_, rfl, ?_⟩
        simp only [RxProgress.Wf, List.length_nil]
        rw [BitVec.toInt_eq_toNat_cond] at h1
        split at h1 <;> omega
  | take tlen buf =>
    simp only [rxByte]
    split_ifs with hl
    · exact .inl ⟨_, rfl, by simp only [RxProgress.Wf, List.length_append, List.length_singleton]; omega⟩
    · simp only [finishFrame]
      split
      · exact .inr (.inr ⟨tlen, _, buf, rfl, ‹_›, rfl, by omega⟩)
      · exact .inr (.inl ⟨_, _, _, rfl, parseFrame_open ‹_›⟩)
  | skip tlen j =>
    simp only [rxByte]
    split_ifs with hl
    · exact .inl ⟨_, rfl, by simp only [RxProgress.Wf]; omega⟩
    · exact .inr (.inl ⟨_, _, _, rfl, rfl⟩)

end Sys2Proof.Machine
end

