-- ==== Sys2Proof/Laws/Operands.lean ====
section
/-! SUPPORT. The extensions, truncations and byte orders as arithmetic on numbers, and the byte orders there and
back. -/

namespace Sys2Proof.Machine

/-- A truncation keeps the number modulo a power of 2. -/
theorem trunc_eq (n : Nat) {w : Nat} (v : BitVec w) : trunc n v = BitVec.ofNat n v.toNat := by
  apply BitVec.eq_of_toNat_eq; simp [trunc]

/-- A zero extension keeps the number. -/
theorem zext64_eq {n : Nat} (v : BitVec n) : zext64 v = BitVec.ofNat 64 v.toNat := by
  apply BitVec.eq_of_toNat_eq; simp [zext64]

/-- A sign extension keeps the signed number. -/
theorem sext64_eq {n : Nat} (v : BitVec n) : sext64 v = BitVec.ofInt 64 v.toInt := rfl

@[simp] theorem beBytes_length {w : Nat} (n : Nat) (v : BitVec w) : (beBytes n v).length = n := by
  induction n with
  | zero => rfl
  | succ n ih => simp [beBytes, ih]

@[simp] theorem leBytes_length {w : Nat} (n : Nat) (v : BitVec w) : (leBytes n v).length = n := by
  induction n generalizing v with
  | zero => rfl
  | succ n ih => simp [leBytes, ih]

@[simp] theorem bytesBE_length (n v : Nat) : (bytesBE n v).length = n := by simp [bytesBE]

@[simp] theorem bytesLE_length (n v : Nat) : (bytesLE n v).length = n := by simp [bytesLE]

/-- Putting the most significant byte first. -/
theorem bytesBE_succ (n v : Nat) : bytesBE (n + 1) v = BitVec.ofNat 8 (v / 256 ^ n) :: bytesBE n v := by
  simp only [bytesBE, List.range_succ_eq_map, List.map_cons, List.map_map, Nat.sub_zero, Nat.add_sub_cancel]
  refine congrArg _ (List.map_congr_left fun k _ => ?_)
  simp only [Function.comp_apply]
  congr 3
  omega

/-- Putting the least significant byte first. -/
theorem bytesLE_succ (n v : Nat) : bytesLE (n + 1) v = BitVec.ofNat 8 v :: bytesLE n (v / 256) := by
  simp only [bytesLE, List.range_succ_eq_map, List.map_cons, List.map_map, pow_zero, Nat.div_one]
  refine congrArg _ (List.map_congr_left fun k _ => ?_)
  simp only [Function.comp_apply, Nat.div_div_eq_div_mul, Nat.succ_eq_add_one, pow_succ, Nat.mul_comm]

/-- `BE` is the big-endian form of the number. -/
theorem beBytes_eq {w : Nat} (n : Nat) (v : BitVec w) : beBytes n v = bytesBE n v.toNat := by
  induction n with
  | zero => rfl
  | succ n ih =>
    rw [bytesBE_succ, beBytes, ih, trunc_eq, BitVec.toNat_ushiftRight, Nat.shiftRight_eq_div_pow, pow_mul,
      show (2 : Nat) ^ 8 = 256 from rfl]

/-- `LE` is the little-endian form of the number. -/
theorem leBytes_eq {w : Nat} (n : Nat) (v : BitVec w) : leBytes n v = bytesLE n v.toNat := by
  induction n generalizing v with
  | zero => rfl
  | succ n ih =>
    rw [bytesLE_succ, leBytes, ih, trunc_eq, BitVec.toNat_ushiftRight, Nat.shiftRight_eq_div_pow]

/-- The number of a longer big-endian form. -/
theorem natBE_cons (c : Byte) (b : Bytes) : natBE (c :: b) = c.toNat * 256 ^ b.length + natBE b := by
  have key : ∀ (b : Bytes) (m : Nat),
      b.foldl (fun acc c => 256 * acc + c.toNat) m = m * 256 ^ b.length + natBE b := by
    intro b
    induction b with
    | nil => simp [natBE]
    | cons d b ih =>
      intro m
      have hd : natBE (d :: b) = (256 * 0 + d.toNat) * 256 ^ b.length + natBE b := ih _
      rw [List.foldl_cons, ih, List.length_cons, hd]
      ring
  have := key b c.toNat
  simpa only [natBE, List.foldl_cons, Nat.mul_zero, Nat.zero_add] using this

/-- A big-endian number is below the power of its length. -/
theorem natBE_lt (b : Bytes) : natBE b < 256 ^ b.length := by
  induction b with
  | nil => simp [natBE]
  | cons c b ih =>
    rw [natBE_cons, List.length_cons, pow_succ]
    have := c.isLt
    nlinarith [Nat.mul_le_mul_right (256 ^ b.length) (Nat.le_of_lt_succ this)]

/-- A little-endian number is below the power of its length. -/
theorem natLE_lt (b : Bytes) : natLE b < 256 ^ b.length := by
  induction b with
  | nil => simp [natLE]
  | cons c b ih =>
    have := c.isLt
    simp only [natLE, List.foldr_cons, List.length_cons, pow_succ] at ih ⊢
    omega

/-- `FromBE` is the number of the big-endian form. -/
theorem fromBE_eq (w : Nat) (b : Bytes) (h : 8 * b.length ≤ w) : fromBE w b = BitVec.ofNat w (natBE b) := by
  have key : ∀ (b : Bytes) (m : Nat), (m + 1) * 256 ^ b.length ≤ 2 ^ w →
      b.foldl (fun (acc : BitVec w) c => acc <<< 8 ||| c.setWidth w) (BitVec.ofNat w m) =
        BitVec.ofNat w (b.foldl (fun acc c => 256 * acc + c.toNat) m) := by
    intro b
    induction b with
    | nil => intro m _; rfl
    | cons d b ih =>
      intro m hm
      have hd := d.isLt
      have hstep : (256 * m + d.toNat + 1) * 256 ^ b.length ≤ 2 ^ w := by
        refine Nat.le_trans ?_ hm
        rw [List.length_cons, pow_succ, Nat.mul_comm (256 ^ b.length), ← Nat.mul_assoc]
        exact Nat.mul_le_mul_right _ (by omega)
      have hlt : 256 * m + d.toNat < 2 ^ w := by
        have : 0 < 256 ^ b.length := by positivity
        nlinarith
      simp only [List.foldl_cons]
      rw [← ih _ hstep]
      congr 1
      apply BitVec.eq_of_toNat_eq
      have hm' : m < 2 ^ w := by omega
      simp only [BitVec.toNat_or, BitVec.toNat_shiftLeft, BitVec.toNat_ofNat, BitVec.toNat_setWidth,
        Nat.mod_eq_of_lt hm', Nat.mod_eq_of_lt hlt]
      have h1 : m <<< 8 = 256 * m := by rw [Nat.shiftLeft_eq]; omega
      have h2 : 256 * m < 2 ^ w := by omega
      have h3 : d.toNat < 2 ^ w := by omega
      rw [h1, Nat.mod_eq_of_lt h2, Nat.mod_eq_of_lt h3, show (256 : Nat) = 2 ^ 8 from rfl]
      exact (Nat.two_pow_add_eq_or_of_lt hd m).symm
  refine key b 0 ?_
  rw [show (256 : Nat) = 2 ^ 8 from rfl, ← pow_mul, Nat.zero_add, Nat.one_mul]
  exact Nat.pow_le_pow_right (by omega) h

/-- `FromLE` is the number of the little-endian form. -/
theorem fromLE_eq (w : Nat) (b : Bytes) (h : 8 * b.length ≤ w) : fromLE w b = BitVec.ofNat w (natLE b) := by
  induction b with
  | nil => rfl
  | cons d b ih =>
    have hd := d.isLt
    have hb := natLE_lt b
    simp only [List.length_cons] at h
    have hw : 256 * 256 ^ b.length ≤ 2 ^ w := by
      rw [show (256 : Nat) = 2 ^ 8 from rfl, ← pow_mul, ← pow_add]
      exact Nat.pow_le_pow_right (by omega) (by omega)
    rw [fromLE, ih (by omega)]
    simp only [natLE, List.foldr_cons] at hb ⊢
    generalize List.foldr (fun c acc => BitVec.toNat c + 256 * acc) 0 b = m at hb ⊢
    apply BitVec.eq_of_toNat_eq
    simp only [BitVec.toNat_or, BitVec.toNat_shiftLeft, BitVec.toNat_ofNat, BitVec.toNat_setWidth]
    have h1 : m < 2 ^ w := by omega
    have h2 : m <<< 8 = 256 * m := by rw [Nat.shiftLeft_eq]; omega
    have h3 : 256 * m < 2 ^ w := by omega
    have h4 : d.toNat < 2 ^ w := by omega
    have h5 : d.toNat + 256 * m < 2 ^ w := by omega
    rw [Nat.mod_eq_of_lt h1, h2, Nat.mod_eq_of_lt h3, Nat.mod_eq_of_lt h4, Nat.mod_eq_of_lt h5, Nat.add_comm,
      show (256 : Nat) = 2 ^ 8 from rfl, Nat.lor_comm]
    exact (Nat.two_pow_add_eq_or_of_lt hd m).symm

/-- The big-endian form there and back. -/
theorem natBE_bytesBE (n v : Nat) : natBE (bytesBE n v) = v % 256 ^ n := by
  induction n with
  | zero => simp [bytesBE, natBE, Nat.mod_one]
  | succ n ih =>
    rw [bytesBE_succ, natBE_cons, ih, bytesBE_length, BitVec.toNat_ofNat, show (2 : Nat) ^ 8 = 256 from rfl,
      pow_succ, Nat.mod_mul, Nat.mul_comm, Nat.add_comm]

/-- The little-endian form there and back. -/
theorem natLE_bytesLE (n v : Nat) : natLE (bytesLE n v) = v % 256 ^ n := by
  induction n generalizing v with
  | zero => simp [bytesLE, natLE, Nat.mod_one]
  | succ n ih =>
    have := ih (v / 256)
    rw [bytesLE_succ]
    simp only [natLE, List.foldr_cons, BitVec.toNat_ofNat, Nat.reducePow] at this ⊢
    rw [this, pow_succ, Nat.mul_comm (256 ^ n), Nat.mod_mul]

/-- A byte sequence is the big-endian form of its number. -/
theorem bytesBE_natBE (b : Bytes) : bytesBE b.length (natBE b) = b := by
  induction b with
  | nil => rfl
  | cons c b ih =>
    have hb := natBE_lt b
    have hp : 0 < 256 ^ b.length := by positivity
    rw [List.length_cons, bytesBE_succ, natBE_cons]
    refine congrArg₂ _ ?_ ?_
    · apply BitVec.eq_of_toNat_eq
      rw [BitVec.toNat_ofNat, Nat.add_comm, Nat.add_mul_div_right _ _ hp, Nat.div_eq_of_lt hb, Nat.zero_add]
      exact Nat.mod_eq_of_lt c.isLt
    · refine Eq.trans ?_ ih
      refine List.map_congr_left fun k hk => ?_
      have hk := List.mem_range.1 hk
      apply BitVec.eq_of_toNat_eq
      simp only [BitVec.toNat_ofNat]
      have : 256 ^ b.length = 256 ^ (b.length - 1 - k) * (256 * 256 ^ k) := by
        rw [← Nat.pow_succ', ← pow_add]; congr 1; omega
      have h8 : ∀ m p : Nat, 0 < p → (c.toNat * (p * (256 * 256 ^ k)) + m) / p % 2 ^ 8 = m / p % 2 ^ 8 := by
        intro m p hp
        rw [show c.toNat * (p * (256 * 256 ^ k)) + m = m + p * (256 * (c.toNat * 256 ^ k)) by ring,
          Nat.add_mul_div_left _ _ hp]
        simp
      rw [this]
      exact h8 _ _ (by positivity)

/-- An `i32` that is not negative is the number of its pattern. -/
theorem toInt_of_nonneg {v : W32} (h : 0 ≤ v.toInt) : v.toInt = v.toNat := by
  rw [BitVec.toInt_eq_toNat_cond] at h ⊢; have := v.isLt; split at h <;> split <;> omega

/-- The low register of a pair, as a number. -/
theorem pairLow_eq (ra : Reg) (h : ra.val + 1 < 8) : pairLow ra = ⟨ra.val + 1, h⟩ := by
  revert ra; decide


end Sys2Proof.Machine
end

