-- ==== Sys2Proof/Laws/PerInstr.lean ====
section
/-! SUPPORT. One statement about every command as syntax: its word lies in its row of the opcode table. -/

namespace Sys2Proof.Laws.EncodesRow

/-- The word of a well-formed command matches the row of the opcode table that has its mnemonic. -/
def Statement (i : Instr) : Prop :=
  ∃ r ∈ opcodeRows, r.mnemonic = i.mnemonic ∧ (i.WellFormed → encode i &&& r.mask = r.matchWord)

/-- The immediate of LDI lies outside its row's mask. -/
theorem ldi_word (ra : Reg) (imm : BitVec 16) : encode (.ldi ra imm) &&& 0x0000F8FF = 0x00000001 := by
  have h : (0x0000F8FF : W32) = 0x0000FFFF &&& 0x0000F8FF := by decide
  rw [h, ← BitVec.and_assoc, encode, mkWord_low]
  revert ra; decide

/-- The immediate of PHASE.SET lies outside its row's mask. -/
theorem phaseSet_word (imm : BitVec 16) : encode (.phaseSet imm) &&& 0x0000FFFF = 0x00000003 := by
  rw [encode, mkWord_low]; decide

theorem nop : Statement (.nop) :=
  ⟨⟨"NOP", 0x00000000, 0xFFFFFFFF⟩, by decide, rfl, fun _ => by decide⟩

theorem ldi (ra : Reg) (imm : BitVec 16) : Statement (.ldi ra imm) :=
  ⟨⟨"LDI", 0x00000001, 0x0000F8FF⟩, by decide, rfl, fun _ => ldi_word ra imm⟩

theorem connReset : Statement (.connReset) :=
  ⟨⟨"CONN.RESET", 0x00000002, 0xFFFFFFFF⟩, by decide, rfl, fun _ => by decide⟩

theorem phaseSet (imm : BitVec 16) : Statement (.phaseSet imm) :=
  ⟨⟨"PHASE.SET", 0x00000003, 0x0000FFFF⟩, by decide, rfl, fun _ => phaseSet_word imm⟩

theorem threshSet (ra : Reg) : Statement (.threshSet ra) :=
  ⟨⟨"THRESH.SET", 0x00000004, 0xFFFFF8FF⟩, by decide, rfl, by revert ra; decide⟩

theorem dispatch : Statement (.dispatch) :=
  ⟨⟨"DISPATCH", 0x00000005, 0xFFFFFFFF⟩, by decide, rfl, fun _ => by decide⟩

theorem bldClr : Statement (.bldClr) :=
  ⟨⟨"BLD.CLR", 0x00000006, 0xFFFFFFFF⟩, by decide, rfl, fun _ => by decide⟩

theorem paySeek (ra : Reg) : Statement (.paySeek ra) :=
  ⟨⟨"PAY.SEEK", 0x00000007, 0xFFFFF8FF⟩, by decide, rfl, by revert ra; decide⟩

theorem payLoad : Statement (.payLoad) :=
  ⟨⟨"PAY.LOAD", 0x00000008, 0xFFFFFFFF⟩, by decide, rfl, fun _ => by decide⟩

theorem encVarint (ra : Reg) : Statement (.encVarint ra) :=
  ⟨⟨"ENC.VARINT", 0x00000010, 0xFFFFF8FF⟩, by decide, rfl, by revert ra; decide⟩

theorem decVarint (ra : Reg) : Statement (.decVarint ra) :=
  ⟨⟨"DEC.VARINT", 0x00000011, 0xFFFFF8FF⟩, by decide, rfl, by revert ra; decide⟩

theorem encByte (ra : Reg) : Statement (.encByte ra) :=
  ⟨⟨"ENC.BYTE", 0x00000020, 0xFFFFF8FF⟩, by decide, rfl, by revert ra; decide⟩

theorem decByte (ra : Reg) : Statement (.decByte ra) :=
  ⟨⟨"DEC.BYTE", 0x00000021, 0xFFFFF8FF⟩, by decide, rfl, by revert ra; decide⟩

theorem encUbyte (ra : Reg) : Statement (.encUbyte ra) :=
  ⟨⟨"ENC.UBYTE", 0x00000022, 0xFFFFF8FF⟩, by decide, rfl, by revert ra; decide⟩

theorem decUbyte (ra : Reg) : Statement (.decUbyte ra) :=
  ⟨⟨"DEC.UBYTE", 0x00000023, 0xFFFFF8FF⟩, by decide, rfl, by revert ra; decide⟩

theorem encShort (ra : Reg) : Statement (.encShort ra) :=
  ⟨⟨"ENC.SHORT", 0x00000024, 0xFFFFF8FF⟩, by decide, rfl, by revert ra; decide⟩

theorem decShort (ra : Reg) : Statement (.decShort ra) :=
  ⟨⟨"DEC.SHORT", 0x00000025, 0xFFFFF8FF⟩, by decide, rfl, by revert ra; decide⟩

theorem encUshort (ra : Reg) : Statement (.encUshort ra) :=
  ⟨⟨"ENC.USHORT", 0x00000026, 0xFFFFF8FF⟩, by decide, rfl, by revert ra; decide⟩

theorem decUshort (ra : Reg) : Statement (.decUshort ra) :=
  ⟨⟨"DEC.USHORT", 0x00000027, 0xFFFFF8FF⟩, by decide, rfl, by revert ra; decide⟩

theorem encInt (ra : Reg) : Statement (.encInt ra) :=
  ⟨⟨"ENC.INT", 0x00000028, 0xFFFFF8FF⟩, by decide, rfl, by revert ra; decide⟩

theorem decInt (ra : Reg) : Statement (.decInt ra) :=
  ⟨⟨"DEC.INT", 0x00000029, 0xFFFFF8FF⟩, by decide, rfl, by revert ra; decide⟩

theorem encLong (ra : Reg) : Statement (.encLong ra) :=
  ⟨⟨"ENC.LONG", 0x0000002A, 0xFFFFF8FF⟩, by decide, rfl, by revert ra; decide⟩

theorem decLong (ra : Reg) : Statement (.decLong ra) :=
  ⟨⟨"DEC.LONG", 0x0000002B, 0xFFFFF8FF⟩, by decide, rfl, by revert ra; decide⟩

theorem encBool (ra : Reg) : Statement (.encBool ra) :=
  ⟨⟨"ENC.BOOL", 0x0000002C, 0xFFFFF8FF⟩, by decide, rfl, by revert ra; decide⟩

theorem decBool (ra : Reg) : Statement (.decBool ra) :=
  ⟨⟨"DEC.BOOL", 0x0000002D, 0xFFFFF8FF⟩, by decide, rfl, by revert ra; decide⟩

theorem encFloat (ra : Reg) : Statement (.encFloat ra) :=
  ⟨⟨"ENC.FLOAT", 0x00000030, 0xFFFFF8FF⟩, by decide, rfl, by revert ra; decide⟩

theorem decFloat (ra : Reg) : Statement (.decFloat ra) :=
  ⟨⟨"DEC.FLOAT", 0x00000031, 0xFFFFF8FF⟩, by decide, rfl, by revert ra; decide⟩

theorem encDouble (ra : Reg) : Statement (.encDouble ra) :=
  ⟨⟨"ENC.DOUBLE", 0x00000032, 0xFFFFF8FF⟩, by decide, rfl, by revert ra; decide⟩

theorem decDouble (ra : Reg) : Statement (.decDouble ra) :=
  ⟨⟨"DEC.DOUBLE", 0x00000033, 0xFFFFF8FF⟩, by decide, rfl, by revert ra; decide⟩

theorem encString (ra rb : Reg) : Statement (.encString ra rb) :=
  ⟨⟨"ENC.STRING", 0x00000040, 0xFFFF88FF⟩, by decide, rfl, by revert ra rb; decide⟩

theorem decString (ra rb : Reg) : Statement (.decString ra rb) :=
  ⟨⟨"DEC.STRING", 0x00000041, 0xFFFF88FF⟩, by decide, rfl, by revert ra rb; decide⟩

theorem encUuid (ra : Reg) : Statement (.encUuid ra) :=
  ⟨⟨"ENC.UUID", 0x00000042, 0xFFFFF9FF⟩, by decide, rfl, by revert ra; decide⟩

theorem decUuid (ra : Reg) : Statement (.decUuid ra) :=
  ⟨⟨"DEC.UUID", 0x00000043, 0xFFFFF9FF⟩, by decide, rfl, by revert ra; decide⟩

theorem encRaw (ra rb : Reg) : Statement (.encRaw ra rb) :=
  ⟨⟨"ENC.RAW", 0x00000044, 0xFFFF88FF⟩, by decide, rfl, by revert ra rb; decide⟩

theorem decRaw (ra rb : Reg) : Statement (.decRaw ra rb) :=
  ⟨⟨"DEC.RAW", 0x00000045, 0xFFFF88FF⟩, by decide, rfl, by revert ra rb; decide⟩

theorem uuidFmt (ra rb : Reg) : Statement (.uuidFmt ra rb) :=
  ⟨⟨"UUID.FMT", 0x00000046, 0xFFFF89FF⟩, by decide, rfl, by revert ra rb; decide⟩

theorem uuidParse (ra rb : Reg) : Statement (.uuidParse ra rb) :=
  ⟨⟨"UUID.PARSE", 0x00000047, 0xFFFF89FF⟩, by decide, rfl, by revert ra rb; decide⟩

theorem frameEnc (ra : Reg) : Statement (.frameEnc ra) :=
  ⟨⟨"FRAME.ENC", 0x00000050, 0xFFFFF8FF⟩, by decide, rfl, by revert ra; decide⟩

theorem frameDec : Statement (.frameDec) :=
  ⟨⟨"FRAME.DEC", 0x00000051, 0xFFFFFFFF⟩, by decide, rfl, fun _ => by decide⟩

end Sys2Proof.Laws.EncodesRow
end

