-- ==== Sys2Proof/Laws/Step.lean ====
section
/-! SUPPORT. Everything a step can do, said once: whose move it is, and what each agent's move can leave. -/

namespace Sys2Proof.Machine

/-- Every command answers a next state. -/
theorem exec_next (i : Instr) (s : State) : ∃ t, exec i s = .next t := by
  cases i <;> exact ⟨_, rfl⟩

/-- The engine waits, runs a command, or completes a word that is no command. -/
theorem engineStep_cases {s t : State} (h : engineStep s = .next t) :
    ((s.rst = true ∨ s.busy = false) ∧ t = s) ∨
    (s.rst = false ∧ s.busy = true ∧
      ((∃ i, decode s.cur = some i ∧ exec i s = .next t) ∨
        decode s.cur = none ∧ t = s.completeErr ⟨.reservedEncoding, s.cur⟩)) := by
  simp only [engineStep] at h
  split at h
  · rename_i hw
    injection h with h
    exact .inl ⟨by simpa using hw, h.symm⟩
  · rename_i hw
    have hw : s.rst = false ∧ s.busy = true := by simpa using hw
    refine .inr ⟨hw.1, hw.2, ?_⟩
    split at h
    · exact .inl ⟨_, ‹_›, h⟩
    · injection h with h
      exact .inr ⟨‹_›, h.symm⟩

/-- What a word write can leave: nothing changed, OVR set for a write that came while a command ran, a register, a
command issued, a stop request, IE, IP, an RT entry, or four bytes of SCR. -/
theorem writeWord_cases (s : State) (addr : Nat) (v : W32) :
    s.writeWord addr v = s ∨
    (s.busy = true ∧ s.writeWord addr v = s.setOvr) ∨
    (s.busy = false ∧ ∃ r w, s.writeWord addr v = s.setReg r w) ∨
    (s.busy = false ∧ addr = 0x0044 ∧ s.writeWord addr v = s.issue v) ∨
    (addr = 0x0048 ∧ v.getLsbD 0 = true ∧ s.writeWord addr v = s.stopRx) ∨
    s.writeWord addr v = s.setIe v ∨
    s.writeWord addr v = s.clearIp v ∨
    (s.busy = false ∧ s.writeWord addr v = s.writeRtWord addr v) ∨
    (s.busy = false ∧ s.scrAddr addr ∧ s.writeWord addr v = s.writeScrWord addr v) := by
  simp only [State.writeWord]
  cases hb : s.busy <;> simp only [State.whenIdle, hb, if_true, Bool.false_eq_true, if_false]
  all_goals split_ifs <;> simp_all [State.writeRegWord] <;> tauto

/-- A byte that arrives enters RXQ, or is not taken after an end or an error. -/
theorem rxPush_cases (s : State) (b : Byte) :
    ((s.rxend = true ∨ s.rxerr = true) ∧ s.rxPush b = s) ∨
    (s.rxend = false ∧ s.rxerr = false ∧ s.rxPush b = s.pushRx b) := by
  cases h1 : s.rxend <;> cases h2 : s.rxerr <;> simp [State.rxPush, h1, h2]

/-- The TX transport takes the head of TXQ, if there is one. -/
theorem txPop_cases (s : State) :
    (s.txq = [] ∧ s.txPop = s) ∨ ∃ b q, s.txq = b :: q ∧ s.txPop = s.popTx b q := by
  cases h : s.txq <;> simp [State.txPop, h]

/-- An I/O error of the TX transport is declared once. -/
theorem txFail_cases (s : State) :
    (s.txerr = true ∧ s.txFail = s) ∨ (s.txerr = false ∧ s.txFail = s.failTx) := by
  cases h : s.txerr <;> simp [State.txFail, h]

/-- Whose move a step is, and what state it leaves. -/
theorem step_cases {s t : State} (h : step s = .next t) :
    (∃ l, (s.sched = [] ∧ l = [] ∨ s.sched = .engine :: l) ∧ engineStep (s.setSched l) = .next t) ∨
    (∃ w a l, s.sched = .busRead w a :: l ∧ t = (s.setSched l).busRead w a) ∨
    (∃ l, s.sched = .rst true :: l ∧ t = (s.setSched l).enterReset) ∨
    (∃ l, s.sched = .rst false :: l ∧ t = (s.setSched l).leaveReset) ∨
    (s.rst = true ∧ ∃ m l, s.sched = m :: l ∧ t = s.setSched l) ∨
    s.rst = false ∧
      ((∃ w a v l, s.sched = .busWrite w a v :: l ∧ t = (s.setSched l).busWrite w a v) ∨
       (∃ b l, s.sched = .rxPush b :: l ∧ t = (s.setSched l).rxPush b) ∨
       (∃ l, s.sched = .rxEnd :: l ∧ t = (s.setSched l).setRxend) ∨
       (∃ l, s.sched = .rxFail :: l ∧ t = (s.setSched l).setRxerr) ∨
       (∃ l, s.sched = .txPop :: l ∧ t = (s.setSched l).txPop) ∨
       ∃ l, s.sched = .txFail :: l ∧ t = (s.setSched l).txFail) := by
  simp only [step] at h
  split at h
  · rename_i hs
    have hs' : s.setSched [] = s := by rw [← hs]; rfl
    exact .inl ⟨[], .inl ⟨hs, rfl⟩, hs'.symm ▸ h⟩
  · rename_i m l hs
    cases m
    case engine => exact .inl ⟨l, .inr hs, h⟩
    case rst b =>
      simp only [doMove, Host.Outcome.next.injEq] at h
      cases b
      · exact .inr (.inr (.inr (.inl ⟨l, hs, h.symm⟩)))
      · exact .inr (.inr (.inl ⟨l, hs, h.symm⟩))
    case busRead w a =>
      simp only [doMove, Host.Outcome.next.injEq] at h
      exact .inr (.inl ⟨w, a, l, hs, h.symm⟩)
    all_goals
      simp only [doMove, Host.Outcome.next.injEq, State.unlessReset, State.setSched_rst] at h
      cases hr : s.rst
      · simp only [hr, Bool.false_eq_true, if_false] at h
        simp [hs, h]
      · simp only [hr, if_true] at h
        exact .inr (.inr (.inr (.inr (.inl ⟨rfl, _, l, hs, h.symm⟩))))

/-- Out of reset a move does what it does. -/
theorem unlessReset_eq {s : State} (h : s.rst = false) (t : State) : s.unlessReset t = t := by
  simp [State.unlessReset, h]

/-- A step that is a proper read. -/
theorem step_busRead {s : State} {a : BitVec 16} {l : List Move} (ha : a.toNat % 4 = 0)
    (hs : s.sched = .busRead .word a :: l) :
    step s = .next ((s.setSched l).answer ⟨s.busWord a.toNat, false⟩) := by
  simp only [step, hs, doMove, State.busRead, properAccess, ha, and_self, if_true]
  rfl

/-- A step that is a proper write. -/
theorem step_busWrite {s : State} {a : BitVec 16} {v : W32} {l : List Move} (hr : s.rst = false)
    (ha : a.toNat % 4 = 0) (hs : s.sched = .busWrite .word a v :: l) :
    step s = .next (((s.setSched l).writeWord a.toNat v).answer ⟨0, false⟩) := by
  have hr' : (s.setSched l).rst = false := hr
  simp only [step, hs, doMove, unlessReset_eq hr', State.busWrite, properAccess, ha, and_self, if_true]

end Sys2Proof.Machine
end

