-- ==== Sys2Proof/Laws/Run.lean ====
section
/-! SUPPORT. Runs of the machine, one step at a time, and what a step is while a FRAME.DEC takes its bytes. -/

namespace Sys2Proof.Machine

/-- A run of no step. -/
theorem run_zero (s : State) : Host.Core.run Sys2Proof.core 0 s = .next s := rfl

/-- A run whose first step is known. -/
theorem run_succ {s t : State} (n : Nat) (h : step s = .next t) :
    Host.Core.run Sys2Proof.core (n + 1) s = Host.Core.run Sys2Proof.core n t := by
  have h' : Sys2Proof.core.step s = .next t := h
  simp only [Host.Core.run, h']

/-- What FRAME.DEC does with a byte does not depend on the control point State holds. -/
theorem rxByte_setRx (p q : RxProgress) (b : Byte) (s : State) : rxByte p b (s.setRx q) = rxByte p b s := by
  obtain ⟨tk, pt⟩ := p
  cases pt with
  | len i acc =>
    simp only [rxByte, gotLength]
    by_cases h1 : continues b = true
    · rw [if_pos h1, if_pos h1]; split <;> rfl
    · rw [if_neg h1, if_neg h1]
      by_cases h2 : (addGroup acc i b).toInt ≤ 0
      · rw [if_pos h2, if_pos h2]; rfl
      · rw [if_neg h2, if_neg h2]
        by_cases h3 : s.params.payCap < (addGroup acc i b).toNat
        · rw [if_pos h3, if_pos (show (s.setRx q).params.payCap < _ from h3)]; rfl
        · rw [if_neg h3, if_neg (show ¬ (s.setRx q).params.payCap < _ from h3)]; rfl
  | take tlen buf =>
    simp only [rxByte, finishFrame, State.setRx_params, State.setRx_tl]
    split_ifs
    · rfl
    · cases parseFrame Config.zip s.params.payCap s.tl (buf ++ [b]) <;> rfl
  | skip tlen j =>
    simp only [rxByte]
    split_ifs <;> rfl

/-- FRAME.DEC with a byte waiting takes it, at the control point where it asks. -/
theorem execFrameDec_byte {s u : State} {p : RxProgress} {b : Byte} {q : Bytes} (ha : AsksAt s u p)
    (hq : s.rxq = b :: q) : exec .frameDec s = .next (rxByte p b (u.setRxq q)) := by
  obtain ⟨hp, rfl⟩ | ⟨hp, hc, rfl, rfl⟩ := ha
  · simp only [exec, execFrameDec, hp, rxStep, hq]
  · have h1 : exec .frameDec s = .next (rxStep RxProgress.start s.startRx) := by
      simp only [exec, execFrameDec, hp, hc, Bool.false_eq_true, if_false]
    have h2 : s.startRx.rxq = b :: q := hq
    rw [h1, rxStep, h2]

/-- A step of the machine while a FRAME.DEC runs alone and a byte is waiting. -/
theorem step_frameDec {s u : State} {p : RxProgress} {b : Byte} {q : Bytes} (hs : s.sched = []) (hr : s.rst = false)
    (hb : s.busy = true) (hc : s.cur = 0x00000051) (ha : AsksAt s u p) (hq : s.rxq = b :: q) :
    step s = .next (rxByte p b (u.setRxq q)) := by
  have hd : decode s.cur = some .frameDec := by rw [hc]; decide
  rw [← execFrameDec_byte ha hq]
  simp [step, hs, engineStep, hr, hb, hd]

/-- Runs compose. -/
theorem run_add (a b : Nat) (s t : State) (h : Host.Core.run Sys2Proof.core a s = .next t) :
    Host.Core.run Sys2Proof.core (a + b) s = Host.Core.run Sys2Proof.core b t := by
  induction a generalizing s with
  | zero => rw [run_zero] at h; cases h; rw [Nat.zero_add]
  | succ a ih =>
    cases hs : step s with
    | next s' => rw [run_succ _ hs] at h; rw [show a + 1 + b = a + b + 1 by omega, run_succ _ hs]; exact ih _ h
    | fault r => cases r
    | refused r =>
      have h' : Sys2Proof.core.step s = .refused r := hs
      simp only [Host.Core.run, h'] at h; cases h


end Sys2Proof.Machine
end

