-- ==== Sys2Proof/Machine/HostDuties.lean ====
section
/-! DEFINITION. What the spec says of the software around the block (`45_dispatch_system.md` section 4): message layouts
and command sequences as data. The block executes none of it (assumption 18). -/

namespace Sys2Proof.Machine

/-- The moves by which the host issues a command that takes one engine step: the CMD write, then the engine (R390). -/
def issueMoves (i : Instr) : List Move := [.busWrite .word 0x0044 (encode i), .engine]

/-- The types of the fields in R314's table. -/
inductive FieldType where
  /-- A VarInt. -/
  | varInt
  /-- A string. -/
  | string
  /-- A ushort. -/
  | ushort
  /-- A boolean. -/
  | bool
  /-- A 128-bit identifier. -/
  | uuid
  /-- A long. -/
  | long
  /-- A float. -/
  | float
deriving DecidableEq, Repr

/-- A field of a message: always there, or only when the boolean field before it is true (R314). -/
inductive Field where
  /-- Always there. -/
  | always (t : FieldType)
  /-- There only when the boolean before it is true. -/
  | ifFlag (t : FieldType)
deriving DecidableEq, Repr

/-- A row of R314's table. `none` where the document gives no opcode or no layout. -/
structure Message where
  /-- The protocol opcode. -/
  opcode : Option W32
  /-- The phase. -/
  phase : Phase
  /-- Sent by the host of the block. -/
  outbound : Bool
  /-- The fields in wire order. -/
  fields : Option (List Field)
deriving DecidableEq, Repr

/-- Handshake (R314). -/
def msgHandshake : Message :=
  ⟨some 0x00, .handshake, true, some [.always .varInt, .always .string, .always .ushort, .always .varInt]⟩

/-- LoginStart (R314). -/
def msgLoginStart : Message := ⟨some 0x00, .login, true, some [.always .string, .always .bool, .ifFlag .uuid]⟩

/-- SetCompression (R314). -/
def msgSetCompression : Message := ⟨some 0x03, .login, false, some [.always .varInt]⟩

/-- LoginSuccess (R314): no field is described. -/
def msgLoginSuccess : Message := ⟨some 0x02, .login, false, none⟩

/-- KeepAlive, inbound (R314). -/
def msgKeepAliveIn : Message := ⟨some 0x23, .play, false, some [.always .long]⟩

/-- KeepAlive, outbound (R314). -/
def msgKeepAliveOut : Message := ⟨some 0x12, .play, true, some [.always .long]⟩

/-- SetHealth (R314). -/
def msgSetHealth : Message := ⟨some 0x57, .play, false, some [.always .float, .always .varInt, .always .float]⟩

/-- CombatDeath (R314). -/
def msgCombatDeath : Message := ⟨some 0x38, .play, false, some [.always .varInt, .always .string]⟩

/-- ClientCommand/Respawn (R314). -/
def msgClientCommand : Message := ⟨some 0x07, .play, true, some [.always .varInt]⟩

/-- GameEvent (R314, R308): neither opcode nor layout is given. -/
def msgGameEvent : Message := ⟨none, .play, false, none⟩

/-- Disconnect (R314, R309): neither opcode nor layout is given. -/
def msgDisconnect : Message := ⟨none, .play, false, none⟩

/-- The command that builds a field, from a register (a string takes its offset from a second one) (R310). -/
def encodeField (t : FieldType) (ra rb : Reg) : Instr :=
  match t with
  | .varInt => .encVarint ra
  | .string => .encString ra rb
  | .ushort => .encUshort ra
  | .bool => .encBool ra
  | .uuid => .encUuid ra
  | .long => .encLong ra
  | .float => .encFloat ra

/-- The command that reads a field (R310). -/
def decodeField (t : FieldType) (ra rb : Reg) : Instr :=
  match t with
  | .varInt => .decVarint ra
  | .string => .decString ra rb
  | .ushort => .decUshort ra
  | .bool => .decBool ra
  | .uuid => .decUuid ra
  | .long => .decLong ra
  | .float => .decFloat ra

/-- `initiate_handshake` (R311): PHASE.SET first, then the four fields, then the frame with opcode 0, which the last
register holds. -/
def handshakeCommands (target : BitVec 16) (version len off port next opcode : Reg) : List Instr :=
  [.phaseSet target, .encVarint version, .encString len off, .encUshort port, .encVarint next, .frameEnc opcode]

/-- The second half of `login` (R312): the name, the flag, the identifier only when there is one, the frame with
opcode 0. -/
def loginStartCommands (hasIdentifier : Bool) (len off flag pair opcode : Reg) : List Instr :=
  [.encString len off, .ldi flag (if hasIdentifier then 1 else 0), .encBool flag] ++
    (if hasIdentifier then [.encUuid pair] else []) ++ [.frameEnc opcode]

/-- One round of the receive loop (R313). -/
def receiveCommands : List Instr := [.frameDec, .dispatch]

/-- Whether the receive loop goes on after a command that completed with a cause (R313). -/
def loopGoesOn (c : Cause) : Bool := c != .transport

/-- Route 3, KEEP_ALIVE (R305). -/
def keepAliveCommands : List Instr := [.decLong 1, .encLong 1, .ldi 2 0x12, .frameEnc 2]

/-- Route 4, SET_HEALTH, the reads (R306). -/
def setHealthCommands : List Instr := [.decFloat 1, .decVarint 2, .decFloat 3]

/-- The patterns of a float that compare equal to 0 (R306). -/
def floatIsZero (v : W64) : Bool := trunc 32 v == 0x00000000 || trunc 32 v == 0x80000000

/-- The Respawn send (R306). -/
def respawnCommands : List Instr := [.ldi 4 0, .encVarint 4, .ldi 5 7, .frameEnc 5]

/-- Route 5, COMBAT_DEATH, the reads (R307). -/
def combatDeathCommands : List Instr := [.decVarint 1, .decString 2 3]

end Sys2Proof.Machine
end

