-- ==== Sys2Proof/Tests/Slice0.lean ====
section
/-! SUPPORT. The model's own tests: the smoke test of WellFormed, the decoding of a written-out word of every command,
one-step tests with values from `95_test_vectors.md`, and for every statement with hypotheses a state and operands that
meet them. -/

namespace Sys2Proof.Tests
open Sys2Proof.Machine

/-! ### Helpers -/

/-- The small configuration of the vectors with `PAY_CAP = 128`. -/
def small : Params := ⟨64, 128, 64, 5⟩

/-- The reset state of that configuration. -/
def base : State := State.resetWith small

/-- The state an outcome holds. -/
def after (o : Host.Outcome State Fault Refusal) : State :=
  match o with
  | .next t => t
  | .fault _ => base
  | .refused _ => base

/-- A command word in execution. -/
def issued (w : W32) (s : State) : State := { s with cur := w, busy := true }

/-- One step that runs a command word. -/
def run1 (w : W32) (s : State) : State := after (step (issued w s))

/-- The test-double compression unit (`95_test_vectors.md` section 2.7). -/
def double : ZipUnit where
  deflate x := 0xC0 :: x
  inflate y := match y with
    | [] => none
    | b :: x => if b = 0xC0 then some x else none

/-- The example text "69359037-9599-48e7-b8f2-48393c019135" (section 2.5). -/
def exampleText : Bytes :=
  [0x36, 0x39, 0x33, 0x35, 0x39, 0x30, 0x33, 0x37, 0x2D, 0x39, 0x35, 0x39, 0x39, 0x2D, 0x34, 0x38, 0x65, 0x37, 0x2D,
   0x62, 0x38, 0x66, 0x32, 0x2D, 0x34, 0x38, 0x33, 0x39, 0x33, 0x63, 0x30, 0x31, 0x39, 0x31, 0x33, 0x35]

/-- SCR with bytes from an offset on. -/
def withScr (a : Nat) (b : Bytes) : State := base.setScr (Memory.insertAll [] a b)

/-! ### WellFormed -/

theorem test_encUuid_odd_illFormed : ¬ (Instr.encUuid 1).WellFormed := by decide
theorem test_decUuid_odd_illFormed : ¬ (Instr.decUuid 3).WellFormed := by decide
theorem test_uuidFmt_odd_illFormed : ¬ (Instr.uuidFmt 5 2).WellFormed := by decide
theorem test_uuidParse_odd_illFormed : ¬ (Instr.uuidParse 7 2).WellFormed := by decide

/-! ### Decoding: words written out from the fields `op`, `ra`, `rb`, `imm` of R131 and the codes of R136 -/

theorem test_decode_system :
    [0x00000000, 0xFFFE0301, 0x00000002, 0x00020003, 0x00000104, 0x00000005, 0x00000006, 0x00000707, 0x00000008].map
      decode =
    [some .nop, some (.ldi 3 0xFFFE), some .connReset, some (.phaseSet 2), some (.threshSet 1), some .dispatch,
      some .bldClr, some (.paySeek 7), some .payLoad] := by decide

theorem test_decode_varint :
    [0x00000110, 0x00000711].map decode = [some (.encVarint 1), some (.decVarint 7)] := by decide

theorem test_decode_fixed :
    [0x00000120, 0x00000221, 0x00000322, 0x00000423, 0x00000524, 0x00000625, 0x00000726, 0x00000027, 0x00000128,
      0x00000229, 0x0000032A, 0x0000042B, 0x0000052C, 0x0000062D].map decode =
    [some (.encByte 1), some (.decByte 2), some (.encUbyte 3), some (.decUbyte 4), some (.encShort 5),
      some (.decShort 6), some (.encUshort 7), some (.decUshort 0), some (.encInt 1), some (.decInt 2),
      some (.encLong 3), some (.decLong 4), some (.encBool 5), some (.decBool 6)] := by decide

theorem test_decode_float :
    [0x00000130, 0x00000231, 0x00000332, 0x00000433].map decode =
    [some (.encFloat 1), some (.decFloat 2), some (.encDouble 3), some (.decDouble 4)] := by decide

theorem test_decode_string :
    [0x00002140, 0x00001241, 0x00000642, 0x00000443, 0x00007144, 0x00001745, 0x00003446, 0x00002647].map decode =
    [some (.encString 1 2), some (.decString 2 1), some (.encUuid 6), some (.decUuid 4), some (.encRaw 1 7),
      some (.decRaw 7 1), some (.uuidFmt 4 3), some (.uuidParse 6 2)] := by decide

theorem test_decode_framer :
    [0x00000350, 0x00000051].map decode = [some (.frameEnc 3), some .frameDec] := by decide

/-- The illegal words of section 2.9, and the legal one beside them. -/
theorem test_decode_illegal :
    [0x00000100, 0x00000351, 0x00010000, 0x00000810, 0x00001010, 0x00010010, 0x00000142, 0x00000947, 0x00008140,
      0x0000F001, 0x00010103, 0x0000000F, 0x000000FF, 0x00000099, 0xFFFFFF01, 0xFFFF0F01].all
        (fun w => decode w == none) = true ∧ decode 0xFFFF0701 = some (.ldi 7 0xFFFF) := by decide

theorem test_decodeTableWord :
    decodeTableWord 32 0x00000110 = some (.encVarint 1) ∧ decodeTableWord 8 0x51 = some .frameDec := by decide

/-- The pseudo-commands of R139. -/
theorem test_pseudo_commands :
    encode Instr.phaseStatus = 0x00010003 ∧ encode Instr.phaseLogin = 0x00020003 ∧ encode (Instr.clr 3) = 0x00000301 ∧
    (Instr.ldi 3 0xFFFF).asm = "LDI x3, -1" := by decide

/-! ### One step of each command, with the values of section 2 -/

theorem test_step_encVarint :
    let t := run1 0x00000110 (base.setReg 1 0x63DD)
    t.bld = [0xDD, 0xC7, 0x01] ∧ t.lastn = 3 ∧ t.err = 0 ∧ t.busy = false := by decide

theorem test_step_encVarint_full :
    let t := run1 0x00000110 ({ base with bld := List.replicate 63 0 }.setReg 1 300)
    t.bld = List.replicate 63 0 ∧ t.err = 0x105 ∧ t.errinfo = 65 ∧ t.lastn = 0 := by decide

theorem test_step_decVarint :
    let t := run1 0x00000211 { base with pay := [0xFF, 0xFF, 0x7F, 0xAA] }
    t.x[2] = 0x1FFFFF ∧ t.rpos = 3 ∧ t.lastn = 3 := by decide

theorem test_step_decVarint_tooLarge :
    let t := run1 0x00000111 { base with pay := [0xFF, 0xFF, 0xFF, 0xFF, 0xFF] }
    t.err = 0x102 ∧ t.errinfo = 0 ∧ t.rpos = 0 ∧ t.esticky = 4 := by decide

/-- The vectors of `decode_varint`, section 2.1. -/
theorem test_decodeVarint_corners :
    [[0x00, 0x80], [0x80, 0x00], [0xFF, 0xFF, 0xFF, 0xFF, 0x7F], [0x80, 0x80, 0x80, 0x80, 0x78],
      [0x80, 0x80, 0x80, 0x80, 0x80, 0x01], [0x80, 0x80, 0x80, 0x80], []].map decodeVarint =
    [.value 0 1, .value 0 2, .value 0xFFFFFFFF 5, .value 0x80000000 5, .tooLarge, .insufficient, .insufficient] := by
  decide

theorem test_step_encByte : (run1 0x00000120 (base.setReg 1 0x17F)).bld = [0x7F] := by decide

theorem test_step_decByte : (run1 0x00000221 { base with pay := [0xC8] }).x[2] = 0xFFFFFFFFFFFFFFC8 := by decide

theorem test_step_encUbyte : (run1 0x00000122 (base.setReg 1 0xC8)).bld = [0xC8] := by decide

theorem test_step_decUbyte : (run1 0x00000223 { base with pay := [0xC8] }).x[2] = 0xC8 := by decide

theorem test_step_encShort : (run1 0x00000124 (base.setReg 1 0x1234)).bld = [0x12, 0x34] := by decide

theorem test_step_decShort :
    (run1 0x00000225 { base with pay := [0xFF, 0xFE] }).x[2] = 0xFFFFFFFFFFFFFFFE ∧
    (run1 0x00000125 { base with pay := [0x12] }).errinfo = 1 := by decide

theorem test_step_encUshort : (run1 0x00000126 (base.setReg 1 0xFFFFFFFFFFFFFFFE)).bld = [0xFF, 0xFE] := by decide

theorem test_step_decUshort : (run1 0x00000227 { base with pay := [0xFF, 0xFE] }).x[2] = 0xFFFE := by decide

theorem test_step_encInt :
    (run1 0x00000128 (base.setReg 1 0x12345678)).bld = [0x12, 0x34, 0x56, 0x78] := by decide

theorem test_step_decInt :
    (run1 0x00000229 { base with pay := [0x80, 0, 0, 0] }).x[2] = 0xFFFFFFFF80000000 := by decide

theorem test_step_encLong :
    (run1 0x0000012A (base.setReg 1 0x0102030405060708)).bld = [1, 2, 3, 4, 5, 6, 7, 8] := by decide

theorem test_step_decLong :
    (run1 0x0000022B { base with pay := [1, 2, 3, 4, 5, 6, 7, 8] }).x[2] = 0x0102030405060708 ∧
    (run1 0x0000012B base).err = 0x103 := by decide

theorem test_step_encBool : (run1 0x0000012C (base.setReg 1 0x100)).bld = [0x01] := by decide

theorem test_step_decBool :
    (run1 0x0000022D { base with pay := [0x01] }).x[2] = 1 ∧
    (run1 0x0000012D { base with pay := [0x02] }).err = 0x502 ∧
    (run1 0x0000012D { base with pay := [0x02] }).errinfo = 2 := by decide

theorem test_step_encFloat :
    (run1 0x00000130 (base.setReg 1 0xFFFFFFFF3F800000)).bld = [0x3F, 0x80, 0x00, 0x00] := by decide

theorem test_step_decFloat :
    (run1 0x00000231 { base with pay := [0xBF, 0xC0, 0x00, 0x00] }).x[2] = 0xBFC00000 := by decide

theorem test_step_encDouble :
    (run1 0x00000132 (base.setReg 1 0x400921FB54442D18)).bld =
      [0x40, 0x09, 0x21, 0xFB, 0x54, 0x44, 0x2D, 0x18] := by decide

theorem test_step_decDouble :
    (run1 0x00000233 { base with pay := [0xBF, 0xF8, 0, 0, 0, 0, 0, 0] }).x[2] = 0xBFF8000000000000 := by decide

theorem test_step_encString :
    let t := run1 0x00002140 ((withScr 0 [0x6C, 0x6F, 0x63, 0x61, 0x6C, 0x68, 0x6F, 0x73, 0x74]).setReg 1 9)
    t.bld = [0x09, 0x6C, 0x6F, 0x63, 0x61, 0x6C, 0x68, 0x6F, 0x73, 0x74] ∧ t.lastn = 10 := by decide

theorem test_step_encString_bounds :
    let t := run1 0x00002140 ((base.setReg 1 2).setReg 2 63)
    t.err = 0x305 ∧ t.errinfo = 63 ∧ (run1 0x00002140 (base.setReg 2 64)).bld = [0x00] := by decide

theorem test_step_decString :
    let t := run1 0x00002141 ({ base with pay := [0x05, 0x53, 0x74, 0x65, 0x76, 0x65] }.setReg 2 0x20)
    t.scr = [(0x20, 0x53), (0x21, 0x74), (0x22, 0x65), (0x23, 0x76), (0x24, 0x65)] ∧ t.x[1] = 5 ∧ t.rpos = 6 := by
  decide

theorem test_step_decString_one_register :
    let t := run1 0x00001141 ({ base with pay := [0x01, 0x41] }.setReg 1 0x10)
    t.scr = [(0x10, 0x41)] ∧ t.x[1] = 1 := by decide

theorem test_step_encRaw :
    (run1 0x00002144 (((withScr 8 [0xDE, 0xAD, 0xBE]).setReg 1 3).setReg 2 8)).bld = [0xDE, 0xAD, 0xBE] := by decide

theorem test_step_decRaw :
    let t := run1 0x00002145 ({ base with pay := [0xDE, 0xAD, 0xBE] }.setReg 1 2)
    t.scr = [(0, 0xDE), (1, 0xAD)] ∧ t.rpos = 2 ∧ t.lastn = 2 ∧ t.x[1] = 2 := by decide

theorem test_step_encUuid :
    (run1 0x00000642 ((base.setReg 6 0x69359037959948E7).setReg 7 0xB8F248393C019135)).bld =
      [0x69, 0x35, 0x90, 0x37, 0x95, 0x99, 0x48, 0xE7, 0x35, 0x91, 0x01, 0x3C, 0x39, 0x48, 0xF2, 0xB8] := by decide

theorem test_step_decUuid :
    let t := run1 0x00000443 { base with
      pay := [0x69, 0x35, 0x90, 0x37, 0x95, 0x99, 0x48, 0xE7, 0x35, 0x91, 0x01, 0x3C, 0x39, 0x48, 0xF2, 0xB8] }
    t.x[4] = 0x69359037959948E7 ∧ t.x[5] = 0xB8F248393C019135 ∧ t.rpos = 16 := by decide

theorem test_step_uuidFmt :
    let t := run1 0x00003446
      (((base.setReg 4 0x69359037959948E7).setReg 5 0xB8F248393C019135).setReg 3 0x10)
    t.scr.map (·.2) = exampleText ∧ t.scr.head? = some (0x10, 0x36) := by decide

theorem test_step_uuidParse :
    let t := run1 0x00002647 ((withScr 8 exampleText).setReg 2 8)
    t.x[6] = 0x69359037959948E7 ∧ t.x[7] = 0xB8F248393C019135 := by decide

theorem test_step_uuidParse_bad :
    let t := run1 0x00002047 ((withScr 8 (exampleText.set 8 0x5F)).setReg 2 8)
    t.err = 0x606 ∧ t.errinfo = 8 ∧ t.x[0] = 0 := by decide

theorem test_step_frameEnc :
    let t := run1 0x00000150 ({ base with bld := [0x05] }.setReg 1 3)
    t.txq = [0x02, 0x03, 0x05] ∧ t.lastn = 3 ∧ t.bld = [] := by decide

theorem test_step_frameEnc_txError :
    let t := run1 0x00000150 { base with bld := [0x05], txerr := true }
    t.txq = [] ∧ t.err = 0x301 ∧ t.closed = true ∧ t.bld = [0x05] := by decide

/-- The compressed vectors of section 2.6, with the test double. -/
theorem test_frameBytes_double :
    frameBytes double 5 7 [0, 0, 0] = .ok [0x05, 0x00, 0x07, 0, 0, 0] ∧
    frameBytes double 5 7 [0, 0, 0, 0] = .ok [0x07, 0x05, 0xC0, 0x07, 0, 0, 0, 0] ∧
    frameBytes double 0 2 [] = .ok [0x03, 0x01, 0xC0, 0x02] := ⟨rfl, rfl, rfl⟩

theorem test_parseFrame_double :
    parseFrame double 128 5 [0x02, 0xC0, 0x07, 0x00] = .ok ⟨7, [0x00], 2⟩ ∧
    parseFrame double 128 5 [0x03, 0xC0, 0x07, 0x00] = .error ⟨⟨.lengthMismatch, 2⟩, 3⟩ ∧
    parseFrame double 128 5 [0x01, 0xAB, 0x02] = .error ⟨⟨.inflateFailed, 0⟩, 1⟩ ∧
    parseFrame double 128 5 [0x81, 0x01, 0xC0, 0x01] = .error ⟨⟨.dataTooLarge, 129⟩, 129⟩ := ⟨rfl, rfl, rfl, rfl⟩

/-- The last byte of the frame `[02 03 05]`, and the end of the stream inside a frame (sections 2.6 and 3). -/
theorem test_step_frameDec :
    let t := run1 0x00000051 { base with rx := some ⟨2, .take 2 [0x03]⟩, tl := 0xFFFFFFFF, rxq := [0x05, 0x77] }
    t.opc = 3 ∧ t.pay = [0x05] ∧ t.ftlen = 2 ∧ t.fvalid = true ∧ t.rxq = [0x77] ∧ t.busy = false := by decide

theorem test_step_frameDec_end :
    let t := run1 0x00000051 { base with rx := some ⟨3, .take 5 [0x01, 0x02]⟩, rxend := true }
    t.err = 0x101 ∧ t.errinfo = 3 ∧ t.ftlen = 5 ∧ t.closed = true := by decide

theorem test_step_nop :
    let t := run1 0x00000000 { base with cmdcnt := 7, err := 0x102 }
    t.cmdcnt = 8 ∧ t.err = 0 ∧ t.ip = 1 := by decide

theorem test_step_ldi :
    (run1 0xFFFF0301 base).x[3] = 0xFFFFFFFFFFFFFFFF ∧ (run1 0x7FFF0301 base).x[3] = 0x7FFF := by decide

theorem test_step_connReset :
    let t := run1 0x00000002 { base with closed := true, phase := .play, thresh := 5, rxq := [1], esticky := 0x42 }
    t.closed = false ∧ t.phase = .handshake ∧ t.thresh = 0xFFFFFFFF ∧ t.rxq = [] ∧ t.esticky = 0x42 := by decide

theorem test_step_phaseSet :
    (run1 0x00020003 base).phase = .login ∧ (run1 0x00030003 base).err = 0x206 ∧
    (run1 0x00020003 { base with phase := .status }).err = 0x306 := by decide

theorem test_step_threshSet :
    (run1 0x00000104 (base.setReg 1 0x0000000100000005)).thresh = 5 := by decide

theorem test_step_dispatch :
    let s : State := { base with phase := .login, fvalid := true, opc := 3, pay := [0x80, 0x02, 0xEE] }
    (run1 0x00000005 s).route = 1 ∧ (run1 0x00000005 s).thresh = 256 ∧
    (run1 0x00000005 { s with opc := 2 }).phase = .play := by decide

theorem test_step_dispatch_error :
    let t := run1 0x00000005 { base with phase := .login, fvalid := true, opc := 0x23, route := 9 }
    t.err = 0x402 ∧ t.errinfo = 0x23 ∧ t.route = 0 ∧ t.phase = .login := by decide

theorem test_step_bldClr :
    let t := run1 0x00000006 { base with bld := [1, 2], lastn := 1 }
    t.bld = [] ∧ t.lastn = 1 := by decide

theorem test_step_paySeek :
    (run1 0x00000107 ({ base with pay := [1, 2, 3] }.setReg 1 3)).rpos = 3 ∧
    (run1 0x00000107 ({ base with pay := [1, 2, 3] }.setReg 1 0x100000000)).err = 0x506 ∧
    (run1 0x00000107 ({ base with pay := [1, 2, 3] }.setReg 1 0x100000000)).errinfo = 0 := by decide

theorem test_step_payLoad :
    let t := run1 0x00000008 { base with bld := [0xFF, 0xFF, 0x7F], fvalid := true, rpos := 0 }
    t.pay = [0xFF, 0xFF, 0x7F] ∧ t.fvalid = false ∧ t.bld.length = 3 := by decide

theorem test_step_reserved :
    let t := run1 0x00000099 { base with closed := true }
    t.err = 0x106 ∧ t.errinfo = 0x99 ∧ t.busy = false := by decide

/-- Section 2.10. -/
theorem test_bus_reads :
    [0x0040, 0x004C, 0x006C, 0x0104, 0x0110, 0x0124, 0x0044, 0x0094].map State.reset.busWord =
      [0x474D5001, 0, 0xFFFFFFFF, 0x105, 0x23, 0x507, 0, 0] ∧ State.reset.busWord 0x0128 = 0 := by decide

/-- R98: bytes still in TXQ when the TX transport fails are lost; a second failure is not enabled and does nothing. -/
theorem test_step_txFail :
    let t := after (step { base with txq := [1, 2], wire := [7], sched := [.txFail, .txPop] })
    t.txerr = true ∧ t.txq = [] ∧ t.wire = [7] ∧ (after (step t)).wire = [7] ∧
    (after (step { t with sched := [.txFail] })).txerr = true := by decide

theorem test_bus_writes :
    ((base.busWrite .word 0x0008 0x89ABCDEF).busWrite .word 0x000C 0x01234567).x[1] = 0x0123456789ABCDEF ∧
    (base.busWrite .word 0x1000 0x61636F6C).scr = [(0, 0x6C), (1, 0x6F), (2, 0x63), (3, 0x61)] := by decide

/-! ### Witnesses: for each statement with hypotheses, concrete states and operands that meet them, clause by clause -/

/-- A FRAME.DEC in flight, between its length field and its second byte. -/
def midFrame : State := { issued 0x51 base with rx := some ⟨2, .take 2 [0x03]⟩, tl := 0xFFFFFFFF }

/-- A state in which every kind of buffer and table holds something. -/
def rich : State :=
  { midFrame with
    bld := [1, 2]
    pay := [0x81, 0x01, 3]
    rpos := 3
    scr := [(0, 5), (63, 6)]
    rxq := [7]
    txq := [8]
    fvalid := true
    ftlen := 4
    esticky := 0x42
    err := 0x106
    errinfo := 0x99 }

theorem witness_DecodeInvertsEncode : (Instr.encUuid 6).WellFormed ∧ (Instr.ldi 7 0xFFFF).WellFormed := by decide

theorem witness_EncodeInvertsDecode : decode 0x00007646 = some (.uuidFmt 6 7) := by decide

theorem witness_DecodeFollowsTheMasks : decode 0x00007646 = some (.uuidFmt 6 7) ∧ decode 0x00000746 = none := by decide

theorem witness_StepRunsTheDecodedCommand :
    let s := issued 0x51 base
    s.rst = false ∧ s.busy = true ∧ decode s.cur = some .frameDec ∧ s.sched = [] ∧
    ({ s with sched := [.engine, .txPop] } : State).sched = .engine :: [.txPop] ∧
    base.busy = false ∧ base.sched = [] := by decide

theorem witness_IllegalWordsCompleteAsReserved :
    let s := issued 0x00000142 base
    s.sched = [] ∧ s.rst = false ∧ s.busy = true ∧ (∀ r ∈ opcodeRows, s.cur &&& r.mask ≠ r.matchWord) ∧
    ∃ r ∈ opcodeRows, (issued 0x51 base).cur &&& r.mask = r.matchWord := by decide

/-- Both ends of R6's constraints. -/
theorem witness_ResetMeetsTheInvariant :
    Params.Valid ⟨64, 69, 64, 5⟩ ∧ Params.Valid ⟨2 ^ 30 - 6, 2 ^ 30 - 1, 61440, 32⟩ ∧ Params.reference.Valid := by
  decide

theorem witness_StepKeepsTheInvariant : rich.Inv ∧ ∃ t, step rich = .next t ∧ t.fvalid = true ∧ t.err = 0 := by
  refine ⟨⟨by decide, ⟨by decide, by decide⟩, ?_, ⟨by decide, by decide⟩, ⟨by decide, .inr ⟨.reservedEncoding, by decide,
    by decide⟩⟩, ?_, ?_, ?_, ?_, ?_⟩, ⟨_, rfl, by decide⟩⟩
  · exact ⟨by decide, by decide, by decide⟩
  · intro h; exact absurd h (by decide)
  · intro _; decide
  · intro p hp
    obtain rfl : (⟨2, .take 2 [0x03]⟩ : RxProgress) = p := Option.some.inj hp
    exact ⟨rfl, rfl, rfl, by decide, by simp [RxProgress.Wf, rich, midFrame, issued, base, State.resetWith, small]⟩
  · intro h; exact absurd h (by decide)
  · intro h; exact absurd h (by decide)

theorem witness_ResetGivesTheResetState :
    (∃ t, ({ rich with sched := [.rst true] } : State).sched = .rst true :: [] ∧
      step { rich with sched := [.rst true] } = .next t ∧ t.rxq = []) ∧
    (∃ t, ({ base with rst := true, sched := [.rxPush 1] } : State).rst = true ∧
      step { base with rst := true, sched := [.rxPush 1] } = .next t ∧ t.rxq = [] ∧ ∀ b, Move.rxPush 1 ≠ .rst b) ∧
    ({ base with rst := true, sched := [.rst false] } : State).sched = .rst false :: [] :=
  ⟨⟨_, rfl, rfl, by decide⟩, ⟨_, rfl, rfl, by decide, by simp⟩, rfl⟩

/-- A completion without error, one with an error, one with cause 1, and CONN.RESET on a closed block. -/
theorem witness_CompletionRecordsTheOutcome :
    (∃ t, exec (.encByte 1) (issued 0x120 base) = .next t ∧ t.busy = false ∧ t.err = 0) ∧
    (∃ t, exec (.decByte 1) (issued 0x121 base) = .next t ∧ t.busy = false ∧ t.err = 0x103) ∧
    (∃ t, exec .frameDec { issued 0x51 base with rxend := true } = .next t ∧ t.busy = false ∧ t.err = 0x101) ∧
    ∃ t, exec .connReset { issued 2 base with closed := true } = .next t ∧ t.busy = false ∧ t.closed = false :=
  ⟨⟨_, rfl, by decide⟩, ⟨_, rfl, by decide⟩, ⟨_, rfl, by decide⟩, ⟨_, rfl, by decide⟩⟩

theorem witness_ErrorsArePrecise :
    (∃ t, exec (.decByte 1) (issued 0x121 base) = .next t ∧ t.busy = false ∧ t.err ≠ 0) ∧
    (∃ t, exec .dispatch (issued 5 base) = .next t ∧ t.busy = false ∧ t.err ≠ 0) ∧
    (∃ t, exec .frameDec { issued 0x51 base with closed := true } = .next t ∧ t.busy = false ∧ t.err ≠ 0) ∧
    ∃ t, exec .frameDec { issued 0x51 base with rxq := [0x00] } = .next t ∧ t.busy = false ∧ t.err ≠ 0 :=
  ⟨⟨_, rfl, by decide⟩, ⟨_, rfl, by decide⟩, ⟨_, rfl, by decide⟩, ⟨_, rfl, by decide⟩⟩

theorem witness_ClosedBlockTurnsCommandsAway :
    let s := { base with closed := true }
    s.closed = true ∧ Instr.frameDec ≠ .nop ∧ Instr.frameDec ≠ .connReset ∧ s.rx = none := by decide

theorem witness_ClosedChangesOnlyAsSaid :
    (∃ t, step { issued 2 base with closed := true } = .next t ∧ t.closed = false) ∧
    ∃ t, (issued 0x51 { base with rxerr := true }).closed = false ∧
      step (issued 0x51 { base with rxerr := true }) = .next t ∧ t.closed = true :=
  ⟨⟨_, rfl, by decide⟩, ⟨_, by decide, rfl, by decide⟩⟩

theorem witness_CommandsKeepWhatTheHostSets : ∃ t, exec .connReset rich = .next t ∧ t.rt = rich.rt := ⟨_, rfl, rfl⟩

/-- One command for each clause. -/
theorem witness_OnlyNamedCommandsWrite :
    (∃ t, exec (.phaseSet 2) base = .next t ∧ t.phase ≠ base.phase) ∧
    (∃ t, exec (.threshSet 0) base = .next t ∧ t.thresh ≠ base.thresh) ∧
    (∃ t, exec .frameDec { midFrame with rxq := [5] } = .next t ∧ t.opc ≠ midFrame.opc ∧ t.pay ≠ midFrame.pay ∧
      t.fvalid ≠ midFrame.fvalid ∧ t.rxq ≠ [5]) ∧
    (∃ t, exec .dispatch { base with route := 1 } = .next t ∧ t.route ≠ 1) ∧
    (∃ t, exec (.frameEnc 0) { base with bld := [1] } = .next t ∧ t.txq ≠ base.txq ∧ t.bld ≠ [1]) ∧
    (∃ t, exec (.decRaw 1 0) ({ base with pay := [1] }.setReg 1 1) = .next t ∧ t.scr ≠ base.scr) ∧
    (∃ t, exec .connReset { base with fcomp := true, rxend := true } = .next t ∧ t.fcomp ≠ true ∧ t.rxend ≠ true) ∧
    (∃ t, exec (.decUuid 6) { base with pay := List.replicate 16 1 } = .next t ∧ t.x[(7 : Reg)] ≠ base.x[(7 : Reg)] ∧
      t.rpos ≠ base.rpos ∧ t.lastn ≠ base.lastn) ∧
    (∃ t, exec (.encByte 0) base = .next t ∧ t.bld ≠ base.bld ∧ t.lastn ≠ base.lastn) ∧
    (∃ t, exec .frameDec { midFrame with rxq := [0x00] } = .next t ∧ t.ftlen ≠ midFrame.ftlen) ∧
    (∃ t, exec (.frameEnc 0) { base with tl := 5 } = .next t ∧ t.tl ≠ 5) ∧
    ∃ t, exec .frameDec { midFrame with rx := some ⟨2, .take 3 [0x03]⟩, rxq := [0x00] } = .next t ∧ t.rx ≠ none :=
  ⟨⟨_, rfl, by decide⟩, ⟨_, rfl, by decide⟩, ⟨_, rfl, by decide⟩, ⟨_, rfl, by decide⟩, ⟨_, rfl, by decide⟩, ⟨_, rfl, by decide⟩, ⟨_, rfl, by decide⟩, ⟨_, rfl, by decide⟩, ⟨_, rfl, by decide⟩, ⟨_, rfl, by decide⟩,
    ⟨_, rfl, by decide⟩, ⟨_, rfl, by decide⟩⟩

theorem witness_PhaseMovesForward :
    let s : State := { issued 5 base with phase := .login, fvalid := true, opc := 2 }
    ∃ t, step s = .next t ∧ ¬ s.ResetNext ∧ ¬ s.Runs .connReset ∧ t.phase = .play ∧ s.phase ≠ .play := by
  refine ⟨_, rfl, ?_, ?_, by decide, by decide⟩
  · rintro ⟨l, h⟩; exact absurd h (by simp [issued, base, State.resetWith])
  · rintro ⟨_, _, _, h⟩; exact absurd h (by decide)

theorem witness_StickyErrorsStay :
    ∃ t, step rich = .next t ∧ ¬ rich.ResetNext ∧ rich.esticky.getLsbD 6 = true ∧ rich.esticky &&& ~~~0x7E = 0 := by
  refine ⟨_, rfl, ?_, by decide, by decide⟩
  rintro ⟨l, h⟩; exact absurd h (by simp [rich, midFrame, issued, base, State.resetWith])

theorem witness_CmdWriteIssuesACommand :
    let s := { base with sched := [.busWrite .word 0x0044 0x110] }
    s.rst = false ∧ s.sched = .busWrite .word 0x0044 0x110 :: [] ∧ s.busy = false ∧ { s with busy := true }.busy = true ∧
    decode 0x110 = some (.encVarint 1) ∧ ∃ t, step s = .next t ∧ t.cur = 0x110 :=
  ⟨rfl, rfl, rfl, rfl, by decide, ⟨_, rfl, rfl⟩⟩

/-- The last register. -/
theorem witness_BusMovesRegisterWords :
    { base with sched := [.busRead .word 0x38] }.sched = .busRead .word (BitVec.ofNat 16 (8 * (7 : Reg).val)) :: [] ∧
    { base with sched := [.busRead .word 0x3C] }.sched =
      .busRead .word (BitVec.ofNat 16 (8 * (7 : Reg).val + 4)) :: [] ∧
    { base with sched := [.busWrite .word 0x38 1] }.sched =
      .busWrite .word (BitVec.ofNat 16 (8 * (7 : Reg).val)) 1 :: [] ∧
    { base with sched := [.busWrite .word 0x3C 1] }.sched =
      .busWrite .word (BitVec.ofNat 16 (8 * (7 : Reg).val + 4)) 1 :: [] ∧ base.rst = false ∧ base.busy = false := by
  decide

/-- The last word of the window, and the bytes at its two ends and beside them. -/
theorem witness_BusWindowMovesScrBytes :
    base.params.Valid ∧ 60 % 4 = 0 ∧ 60 + 4 ≤ base.params.scrSize ∧
    { base with sched := [.busRead .word 0x103C] }.sched = .busRead .word (BitVec.ofNat 16 (0x1000 + 60)) :: [] ∧
    { base with sched := [.busWrite .word 0x103C 1] }.sched =
      .busWrite .word (BitVec.ofNat 16 (0x1000 + 60)) 1 :: [] ∧ base.rst = false ∧ base.busy = false ∧
    (60 ≤ 63 ∧ 63 < 60 + 4) ∧ ¬(60 ≤ 59 ∧ 59 < 60 + 4) := by decide

/-- The last entry. -/
theorem witness_BusMovesRoutingEntries :
    4 < base.rt.length ∧ base.rt.length = base.params.rtN ∧ base.params.rtN ≤ 32 ∧
    { base with sched := [.busRead .word 0x120] }.sched = .busRead .word (BitVec.ofNat 16 (0x0100 + 8 * 4)) :: [] ∧
    { base with sched := [.busRead .word 0x124] }.sched = .busRead .word (BitVec.ofNat 16 (0x0104 + 8 * 4)) :: [] ∧
    { base with sched := [.busWrite .word 0x120 1] }.sched =
      .busWrite .word (BitVec.ofNat 16 (0x0100 + 8 * 4)) 1 :: [] ∧
    { base with sched := [.busWrite .word 0x124 1] }.sched =
      .busWrite .word (BitVec.ofNat 16 (0x0104 + 8 * 4)) 1 :: [] ∧ base.rst = false ∧ base.busy = false := by decide

/-- The last address of each region whose writes are discarded, and IE and IP. -/
theorem witness_WritesWhileBusyAreDiscarded :
    ∀ a ∈ [0x0000, 0x003C, 0x0044, 0x0100, 0x0124, 0x1000, 0x103C, 0x005C, 0x0060],
      let s := { issued 0 base with sched := [.busWrite .word (BitVec.ofNat 16 a) 1] }
      s.params.Valid ∧ s.rst = false ∧ s.busy = true ∧ a % 4 = 0 ∧
      s.sched = .busWrite .word (BitVec.ofNat 16 a) 1 :: [] ∧
      (a < 0x0040 ∨ a = 0x0044 ∨ (0x0100 ≤ a ∧ a < 0x0100 + 8 * s.params.rtN) ∨
        (0x1000 ≤ a ∧ a < 0x1000 + s.params.scrSize) ∨ a = 0x005C ∨ a = 0x0060) := by decide

/-- Both ends of each reserved region. -/
theorem witness_ReservedAddressesAreInert :
    base.params.Valid ∧ base.rst = false ∧ ∀ a ∈ [0x0094, 0x00FC, 0x0128, 0x0FFC, 0x1040, 0xFFFC],
      a % 4 = 0 ∧ ((0x0094 ≤ a ∧ a < 0x0100) ∨ (0x0100 + 8 * base.params.rtN ≤ a ∧ a < 0x1000) ∨
        (0x1000 + base.params.scrSize ≤ a ∧ a < 0x10000)) := by decide

theorem witness_ImproperAccessesAreErrors :
    (BusWidth.half ≠ .word ∨ (0xFFFE : BitVec 16).toNat % 4 ≠ 0) ∧
    (BusWidth.word ≠ .word ∨ (0x0001 : BitVec 16).toNat % 4 ≠ 0) ∧
    { base with sched := [.busRead .half 0xFFFE] }.sched = .busRead .half 0xFFFE :: [] ∧
    { base with sched := [.busWrite .word 1 2] }.sched = .busWrite .word 1 2 :: [] ∧ base.rst = false := by decide

theorem witness_ControlRegistersReadAsTheMapSays :
    { base with sched := [.busRead .word 0x90] }.sched = .busRead .word 0x90 :: [] ∧
    (0x90 : BitVec 16).toNat % 4 = 0 ∧ base.rst = false ∧
    { base with sched := [.busWrite .word 0x90 7] }.sched = .busWrite .word (BitVec.ofNat 16 0x0090) 7 :: [] ∧
    midFrame.held = true := by decide

theorem witness_InterruptLineFollowsIpAndIe :
    ({ base with ip := 2, ie := 2 } : State).irq = true ∧ base.rst = false ∧
    { base with sched := [.busWrite .word 0x5C 3] }.sched = .busWrite .word 0x5C 3 :: [] ∧
    { base with sched := [.busWrite .word 0x60 3] }.sched = .busWrite .word 0x60 3 :: [] := by decide

/-- Held before the first byte, in the frame and while an oversized frame is dropped; not held; no request. -/
theorem witness_StopEndsAHeldReceive :
    { midFrame with sched := [.busWrite .word 0x48 1] }.sched = .busWrite .word 0x48 1 :: [] ∧
    midFrame.rst = false ∧ (1 : W32).getLsbD 0 = true ∧ midFrame.held = true ∧ (issued 0x51 base).held = true ∧
    ({ midFrame with rx := some ⟨3, .skip 200 1⟩ } : State).held = true ∧ base.held = false ∧
    (2 : W32).getLsbD 0 = false := by decide

theorem witness_TransportMovesDoAsSaid :
    base.rst = false ∧ { base with sched := [.rxPush 1] }.sched = .rxPush 1 :: [] ∧ base.rxend = false ∧
    base.rxerr = false ∧ { base with rxend := true }.rxend = true ∧ { base with sched := [.rxEnd] }.sched = .rxEnd :: [] ∧
    { base with sched := [.rxFail] }.sched = .rxFail :: [] ∧ { base with sched := [.txPop] }.sched = .txPop :: [] ∧
    rich.txq = 8 :: [] ∧ base.txq = [] ∧ { base with sched := [.txFail] }.sched = .txFail :: [] ∧
    base.txerr = false ∧ { base with txerr := true }.txerr = true := by decide

/-- A step that adds a frame, one that moves a byte to the wire, and two that empty TXQ. -/
theorem witness_WireCarriesWholeFrames :
    (∃ t, step (issued 0x50 base) = .next t ∧ t.txq = [0x01, 0x00]) ∧
    (∃ t, step { rich with sched := [.txPop] } = .next t ∧ t.wire = [8] ∧ t.txq = []) ∧
    (∃ t, step { issued 2 base with txq := [8] } = .next t ∧ t.txq = []) ∧
    ∃ t, step { rich with sched := [.txFail] } = .next t ∧ t.wire = [] ∧ t.txq = [] :=
  ⟨⟨_, rfl, by decide⟩, ⟨_, rfl, by decide⟩, ⟨_, rfl, by decide⟩, ⟨_, rfl, by decide⟩⟩

theorem witness_ArrivalCommutesWithTheEngine :
    rich.rst = false ∧ rich.rxq ≠ [] ∧ rich.rxend = false ∧ rich.rxerr = false ∧
    decode rich.cur ≠ some .connReset := by decide

/-- The boundaries of the immediate: 0x7FFF is positive and 0x8000 negative. -/
theorem witness_LdiLoadsASignedImmediate :
    base.closed = false ∧ (0x7FFF : BitVec 16).toNat < 32768 ∧ ¬ (0x8000 : BitVec 16).toNat < 32768 := by decide

/-- The operand's two legal values, one beside each, and the other phases. -/
theorem witness_PhaseSetAndThreshSetWriteTheirRegisters :
    base.closed = false ∧ base.phase = .handshake ∧ (1 : BitVec 16).toNat = 1 ∧ (2 : BitVec 16).toNat = 2 ∧
    (0 : BitVec 16).toNat ≠ 1 ∧ (0 : BitVec 16).toNat ≠ 2 ∧ (3 : BitVec 16).toNat ≠ 1 ∧ (3 : BitVec 16).toNat ≠ 2 ∧
    { base with phase := .play }.phase ≠ .handshake := by decide

/-- A cursor at PLEN, and one past it. -/
theorem witness_BufferCommandsMoveBuffers :
    let s := ({ base with pay := [1, 2, 3] }.setReg 1 3).setReg 2 4
    s.closed = false ∧ s.x[(1 : Reg)].toNat ≤ s.pay.length ∧ s.pay.length < s.x[(2 : Reg)].toNat := by decide

/-- No frame; no entry, in Login and in Play; routes 1, 2 and 3, the route of the last entry, with and without a VarInt
to read. -/
theorem witness_DispatchRoutesTheFrame :
    let at' := fun (p : Phase) (o : W32) => ({ base with fvalid := true, phase := p, opc := o } : State)
    base.closed = false ∧ base.fvalid = false ∧ (at' .login 0x7F).fvalid = true ∧
    (∀ e ∈ base.rt, ¬ e.Matches .login 0x7F) ∧ (∀ e ∈ base.rt, ¬ e.Matches .play 0x7F) ∧
    (∃ h : 0 < base.rt.length, base.rt[0].Matches .login 3 ∧ base.rt[0].routeNumber = 1) ∧
    (∃ h : 1 < base.rt.length, base.rt[1].Matches .login 2 ∧ base.rt[1].routeNumber = 2 ∧
      ∀ (j : Nat) (hj : j < 1), ¬ base.rt[j].Matches .login 2) ∧
    (∃ h : 4 < base.rt.length, base.rt[4].Matches .play 0x38 ∧ base.rt[4].routeNumber = 5 ∧
      ∀ (j : Nat) (hj : j < 4), ¬ base.rt[j].Matches .play 0x38) ∧
    (∃ h : 0 < ([⟨2, 0x207⟩] : List RtEntry).length, ([⟨2, 0x207⟩] : List RtEntry)[0].Matches .play 2 ∧
      ([⟨2, 0x207⟩] : List RtEntry)[0].routeNumber = 2) ∧
    decodeVarint [5] = .value 5 1 ∧ decodeVarint [] = .insufficient ∧
    decodeVarint [0xFF, 0xFF, 0xFF, 0xFF, 0xFF] = .tooLarge := by
  unfold RtEntry.Matches RtEntry.routeNumber Phase.number
  decide

/-- A VarInt that ends at its first and at its fifth byte, one too large, and four bytes that all continue. -/
theorem witness_VarIntDecodingStopsAtTheFifthByte :
    (∃ h : 0 < ([0x7F] : Bytes).length, ([0x7F] : Bytes)[0].toNat < 128) ∧
    (∃ h : 4 < ([0x80, 0x80, 0x80, 0x80, 0x78] : Bytes).length, ([0x80, 0x80, 0x80, 0x80, 0x78] : Bytes)[4].toNat < 128) ∧
    (∀ b ∈ ([0x80, 0x80, 0x80, 0x80] : Bytes), 128 ≤ b.toNat) ∧
    5 ≤ ([0x80, 0x80, 0x80, 0x80, 0x80] : Bytes).length ∧
    (∀ b ∈ ([0x80, 0x80, 0x80, 0x80, 0x80] : Bytes).take 5, 128 ≤ b.toNat) ∧
    ([0x80, 0x80, 0x80, 0x80] : Bytes).length < 5 := by decide

/-- BLD with exactly the room needed, and with one byte less; the three results of the decoding. -/
theorem witness_VarIntCommandsAppendAndRead :
    base.closed = false ∧ (encodeVarint 300).length = 2 ∧
    { base with bld := List.replicate 62 0 }.bld.length + 2 ≤ base.params.bldCap ∧
    base.params.bldCap < { base with bld := List.replicate 63 0 }.bld.length + 2 ∧
    decodeVarint (rich.pay.drop 0) = .value 129 2 ∧ decodeVarint (rich.pay.drop rich.rpos) = .insufficient ∧
    decodeVarint (([0xFF, 0xFF, 0xFF, 0xFF, 0xFF] : Bytes).drop 0) = .tooLarge := by decide

/-- Exactly the room needed, and one byte less, for each width. -/
theorem witness_FixedWidthEncodesAppendBigEndian :
    base.closed = false ∧ ∀ n ∈ [1, 2, 4, 8],
      (List.replicate (64 - n) (0 : Byte)).length + n ≤ base.params.bldCap ∧
      base.params.bldCap < (List.replicate (65 - n) (0 : Byte)).length + n := by decide

/-- Exactly the bytes needed, and one less, for each width. -/
theorem witness_FixedWidthDecodesReadBigEndian :
    base.closed = false ∧ ∀ n ∈ [1, 2, 4, 8],
      3 + n ≤ (List.replicate (3 + n) (0 : Byte)).length ∧ (List.replicate (2 + n) (0 : Byte)).length < 3 + n := by
  decide

theorem witness_FixedWidthRoundTrip :
    base.closed = false ∧ base.bld = [] ∧ 8 ≤ base.params.bldCap ∧
    0 + 8 ≤ (List.replicate 8 (0 : Byte)).length ∧ base.bld.length + 8 ≤ base.params.bldCap := by decide

/-- A full BLD and one byte of room; the cursor at PLEN; the bytes 1 and 2. -/
theorem witness_BooleansAreZeroOrOne :
    base.closed = false ∧ (List.replicate 63 (0 : Byte)).length < base.params.bldCap ∧
    base.params.bldCap ≤ (List.replicate 64 (0 : Byte)).length ∧ rich.pay.length ≤ rich.rpos ∧
    (∃ h : 0 < ([1] : Bytes).length, ([1] : Bytes)[0].toNat ≤ 1) ∧
    ∃ h : 0 < ([2] : Bytes).length, 1 < ([2] : Bytes)[0].toNat := by decide

/-- A count of `2^31`; an access past SCR by one byte; BLD one byte short; everything just fitting. -/
theorem witness_StringAndRawEncodesReadScr :
    base.closed = false ∧ 2 ^ 31 ≤ (0x80000000 : W64).toNat ∧ (2 : W64).toNat < 2 ^ 31 ∧
    base.params.scrSize < (63 : W64).toNat + (2 : W64).toNat ∧ (62 : W64).toNat + (2 : W64).toNat ≤ base.params.scrSize ∧
    base.params.bldCap < (List.replicate 63 (0 : Byte)).length + 2 ∧
    (List.replicate 62 (0 : Byte)).length + 2 ≤ base.params.bldCap := by decide

/-- The three results of decoding the count; a negative count; a count one past the bytes there are; an access past SCR
by one byte; everything just fitting. -/
theorem witness_DecStringWritesScr :
    base.closed = false ∧ decodeVarint ([0x80] : Bytes) = .insufficient ∧
    decodeVarint [0xFF, 0xFF, 0xFF, 0xFF, 0xFF] = .tooLarge ∧
    decodeVarint [0xFF, 0xFF, 0xFF, 0xFF, 0x0F] = .value 0xFFFFFFFF 5 ∧ (0xFFFFFFFF : W32).toInt < 0 ∧
    decodeVarint [0x02, 0x41] = .value 2 1 ∧ 0 ≤ (2 : W32).toInt ∧ ([0x02, 0x41] : Bytes).length < 0 + 1 + (2 : W32).toNat ∧
    decodeVarint [0x01, 0x41] = .value 1 1 ∧ 0 + 1 + (1 : W32).toNat ≤ ([0x01, 0x41] : Bytes).length ∧
    base.params.scrSize < (64 : W64).toNat + (1 : W32).toNat ∧
    (63 : W64).toNat + (1 : W32).toNat ≤ base.params.scrSize := by decide

theorem witness_DecRawWritesScr :
    base.closed = false ∧ 2 ^ 31 ≤ (0x80000000 : W64).toNat ∧ (2 : W64).toNat < 2 ^ 31 ∧
    ([1] : Bytes).length < 0 + (2 : W64).toNat ∧ 0 + (2 : W64).toNat ≤ ([1, 2] : Bytes).length ∧
    base.params.scrSize < (63 : W64).toNat + (2 : W64).toNat ∧
    (62 : W64).toNat + (2 : W64).toNat ≤ base.params.scrSize := by decide

/-- The longest string that fits BLD, at two ends of SCR. -/
theorem witness_StringRoundTrip :
    base.closed = false ∧ base.bld = [] ∧ base.params.Valid ∧ (1 : W64).toNat + 63 ≤ base.params.scrSize ∧
    (0 : W64).toNat + 63 ≤ base.params.scrSize ∧
    varintLen (BitVec.ofNat 32 (63 : W64).toNat) + (63 : W64).toNat ≤ base.params.bldCap := by decide

/-- The last pair; BLD and PAY just large enough, and one byte short. -/
theorem witness_UuidWireOrderIsMixed :
    (6 : Reg).val + 1 < 8 ∧ (6 : Reg).Even ∧ base.closed = false ∧
    (List.replicate 48 (0 : Byte)).length + 16 ≤ base.params.bldCap ∧
    base.params.bldCap < (List.replicate 49 (0 : Byte)).length + 16 ∧
    0 + 16 ≤ (List.replicate 16 (0 : Byte)).length ∧ (List.replicate 15 (0 : Byte)).length < 0 + 16 := by decide

theorem witness_UuidFmtWritesTheText :
    (6 : Reg).val + 1 < 8 ∧ (6 : Reg).Even ∧ base.closed = false ∧ base.params.scrSize < (29 : W64).toNat + 36 ∧
    (28 : W64).toNat + 36 ≤ base.params.scrSize := by decide

/-- The document's text; a bad hyphen at 8 and a bad digit at 35. -/
theorem witness_UuidParseReadsTheText :
    let text := fun i => exampleText.getD i 0
    (6 : Reg).val + 1 < 8 ∧ (6 : Reg).Even ∧ base.closed = false ∧ base.params.scrSize < (29 : W64).toNat + 36 ∧
    (28 : W64).toNat + 36 ≤ base.params.scrSize ∧ (∀ i < 36, CharOk i (text i)) ∧ ¬ CharOk 8 0x5F ∧
    ¬ CharOk 35 0x67 := by
  unfold CharOk
  decide

/-- The last pair; the document's text, at the end of SCR and written back at its start. -/
theorem witness_UuidTextRoundTrip :
    (0 : Reg).Even ∧ (6 : Reg).Even ∧ (6 : Reg).val + 1 < 8 ∧ base.closed = false ∧
    base.x[(1 : Reg)].toNat + 36 ≤ base.params.scrSize ∧
    (let s := (withScr 28 exampleText).setReg 2 28;
      s.closed = false ∧ s.x[(2 : Reg)].toNat + 36 ≤ s.params.scrSize ∧
      (∀ k < 36, CharOk k (s.scrByte (s.x[(2 : Reg)].toNat + k)) ∧
        ¬(0x41 ≤ (s.scrByte (s.x[(2 : Reg)].toNat + k)).toNat ∧ (s.scrByte (s.x[(2 : Reg)].toNat + k)).toNat ≤ 0x46)) ∧
      ∃ t, exec (.uuidParse 6 2) s = .next t ∧ t.x[(3 : Reg)].toNat + 36 ≤ s.params.scrSize) := by
  refine ⟨by decide, by decide, by decide, by decide, by decide, by decide, by decide, ?_, ⟨_, rfl, by decide⟩⟩
  unfold CharOk
  decide

/-- A negative threshold, one above the length 1 of opcode and payload, and one equal to it. -/
theorem witness_FrameEncEmitsTheFrame :
    base.closed = false ∧ base.txerr = false ∧ { base with txerr := true }.txerr = true ∧ base.thresh.toInt < 0 ∧
    (encodeVarint 0 ++ base.bld).length = 1 ∧ (((1 : Nat) : Int) < (2 : W32).toInt) ∧ 0 ≤ (1 : W32).toInt ∧
    (1 : W32).toInt ≤ ((1 : Nat) : Int) := by decide

/-- The branches of R260 and R261, at the boundaries of the data length, with the test double. -/
theorem witness_FramePartsFollowTheFormat :
    (0xFFFFFFFF : W32).toInt < 0 ∧ 0 ≤ (0 : W32).toInt ∧ decodeVarint [0x80] = .insufficient ∧
    decodeVarint [0x80, 0x80, 0x80, 0x80, 0x80] = .tooLarge ∧ decodeVarint [0x00, 0x07] = .value 0 1 ∧
    ((128 : Nat) : Int) < (129 : W32).toInt ∧ (128 : W32) ≠ 0 ∧ (128 : W32).toInt ≤ ((128 : Nat) : Int) ∧
    double.inflate [0xAB] = none ∧ double.inflate [0xC0, 0x07, 0x00] = some [0x07, 0x00] ∧
    ((([0x07, 0x00] : Bytes).length : Nat) : Int) ≠ (3 : W32).toInt ∧
    ((([0x07, 0x00] : Bytes).length : Nat) : Int) = (2 : W32).toInt := by decide

/-- The control points at the boundaries of their clauses, with a byte waiting. -/
theorem witness_FrameDecTakesOneByteAStep :
    let s := { midFrame with rxq := [0x80] }
    s.rxq = 0x80 :: [] ∧ s.rx = some ⟨2, .take 2 [0x03]⟩ ∧ base.rx = none ∧ base.closed = false ∧
    128 ≤ (0x80 : Byte).toNat ∧ 3 + 1 < 5 ∧ 5 ≤ 4 + 1 ∧ (0x7F : Byte).toNat < 128 ∧
    ((0 : W32) ||| BitVec.ofNat 32 ((0x00 : Byte).toNat % 128 * 2 ^ (7 * 0))).toInt ≤ 0 ∧
    s.params.payCap < ((1 : W32) ||| BitVec.ofNat 32 ((0x01 : Byte).toNat % 128 * 2 ^ (7 * 1))).toNat ∧
    ((0 : W32) ||| BitVec.ofNat 32 ((0x01 : Byte).toNat % 128 * 2 ^ (7 * 1))).toNat ≤ s.params.payCap ∧
    ([0x03] : Bytes).length + 1 < 3 ∧ 2 ≤ ([0x03] : Bytes).length + 1 ∧
    parseFrame Config.zip 128 0xFFFFFFFF ([0x03] ++ [0x05]) = .ok ⟨3, [0x05], 0⟩ ∧
    parseFrame Config.zip 128 0xFFFFFFFF ([0x80] ++ [0x80]) = .error ⟨⟨.insufficientBytes, 2⟩, 0⟩ ∧
    127 + 1 < 129 ∧ 129 ≤ 128 + 1 :=
  ⟨rfl, rfl, rfl, rfl, by decide, by decide, by decide, by decide, by decide, by decide, by decide, by decide,
    by decide, rfl, rfl, by decide, by decide⟩

theorem witness_FrameDecHoldsOrEndsWithTheStream :
    midFrame.rxq = [] ∧ midFrame.rx = some ⟨2, .take 2 [0x03]⟩ ∧ midFrame.rxerr = false ∧ midFrame.rxend = false ∧
    { midFrame with rxerr := true }.rxerr = true ∧ { midFrame with rxend := true }.rxend = true ∧ base.rx = none ∧
    base.closed = false ∧ base.rxq = [] ∧ midFrame.held = true ∧
    ∃ t, step { midFrame with sched := [.rxPush 5] } = .next t ∧ t.held = false :=
  ⟨rfl, rfl, rfl, rfl, rfl, rfl, rfl, rfl, rfl, by decide, ⟨_, rfl, by decide⟩⟩

/-- A frame of exactly PAY_CAP bytes, with one more byte behind it. -/
theorem witness_FrameDecTakesExactlyOneFrame :
    let s := { issued 0x51 base with rxq := [0x80, 0x01] ++ List.replicate 128 0x01 ++ [0x77] }
    s.sched = [] ∧ s.rst = false ∧ s.busy = true ∧ s.cur = 0x51 ∧ s.rx = none ∧ s.closed = false ∧
    decodeVarint [0x80, 0x01] = .value 128 2 ∧ 0 < (128 : W32).toInt ∧ (128 : W32).toNat ≤ s.params.payCap ∧
    (List.replicate 128 (0x01 : Byte)).length = (128 : W32).toNat :=
  ⟨rfl, rfl, rfl, rfl, rfl, rfl, by decide, by decide, by decide, List.length_replicate⟩

/-- A frame of PAY_CAP and one bytes. -/
theorem witness_OversizedFrameIsDiscardedWhole :
    let s := { issued 0x51 base with rxq := [0x81, 0x01] ++ List.replicate 129 0x00 ++ [0x77] }
    s.sched = [] ∧ s.rst = false ∧ s.busy = true ∧ s.cur = 0x51 ∧ s.rx = none ∧ s.closed = false ∧
    decodeVarint [0x81, 0x01] = .value 129 2 ∧ 0 < (129 : W32).toInt ∧ s.params.payCap < (129 : W32).toNat ∧
    (List.replicate 129 (0x00 : Byte)).length = (129 : W32).toNat :=
  ⟨rfl, rfl, rfl, rfl, rfl, rfl, by decide, by decide, by decide, List.length_replicate⟩

/-- The frame `[02 03 05]`, from one block to another. -/
theorem witness_FrameRoundTrip :
    let s := { base with bld := [0x05] }.setReg 1 3
    let d := { issued 0x51 base with rxq := [0x02, 0x03, 0x05] ++ [0x77] }
    (∃ t, s.closed = false ∧ exec (.frameEnc 1) s = .next t ∧ t.err = 0 ∧ t.txq = s.txq ++ [0x02, 0x03, 0x05]) ∧
    d.sched = [] ∧ d.rst = false ∧ d.busy = true ∧ d.cur = 0x51 ∧ d.rx = none ∧ d.closed = false ∧
    d.thresh = s.thresh ∧ (encodeVarint 3 ++ s.bld).length ≤ d.params.payCap ∧ d.params.payCap < 2 ^ 31 ∧
    ∀ v k, decodeVarint [0x02, 0x03, 0x05] = .value v k →
      ([0x02, 0x03, 0x05] : Bytes).length ≤ d.params.payCap + k := by
  refine ⟨⟨_, rfl, rfl, by decide⟩, by decide, by decide, by decide, by decide, by decide, by decide, by decide,
    by decide, by decide, ?_⟩
  intro v k _
  exact Nat.le_add_right_of_le (by decide)

end Sys2Proof.Tests
end

section
/-! PROOFS. ESTICKY only collects causes between two hardware resets (`10_state.md` R47), and what a CMD write does
(`10_state.md` R42). -/

namespace Sys2Proof.Machine

/-! ### The ESTICKY bit of an error -/

/-- The bit of an error is the bit of its cause. -/
theorem stickyBit_getLsbD_cause (e : CmdError) : e.stickyBit.getLsbD e.cause.code = true := by
  rw [CmdError.stickyBit]
  cases e.cause <;> decide

/-- Causes lie in bits 6:1. -/
theorem stickyBit_and_unnamed (e : CmdError) : e.stickyBit &&& ~~~0x7E = 0 := by
  rw [CmdError.stickyBit]
  cases e.cause <;> decide

/-! ### What a move can do to ESTICKY -/

/-- ESTICKY is as it was, or holds one error's bit more. -/
def StickyGrows (s t : State) : Prop :=
  t.esticky = s.esticky ∨ ∃ e : CmdError, t.esticky = s.esticky ||| e.stickyBit

namespace StickyGrows

variable {s t : State}

/-- A bit that is set stays set. -/
theorem getLsbD (h : StickyGrows s t) {c : Nat} (hc : s.esticky.getLsbD c = true) : t.esticky.getLsbD c = true := by
  obtain h | ⟨e, h⟩ := h
  · rw [h, hc]
  · rw [h, BitVec.getLsbD_or, hc, Bool.true_or]

/-- The bits that are no cause's stay 0. -/
theorem and_unnamed (h : StickyGrows s t) (hs : s.esticky &&& ~~~0x7E = 0) : t.esticky &&& ~~~0x7E = 0 := by
  obtain h | ⟨e, h⟩ := h
  · rw [h, hs]
  · rw [h, BitVec.and_or_distrib_right, hs, stickyBit_and_unnamed]
    rfl

/-- A completion with error adds its bit to what the state before it held. -/
theorem completeErr (h : t.esticky = s.esticky) (e : Raise) : StickyGrows s (t.completeErr e) :=
  .inr ⟨e.error, by rw [State.completeErr_esticky, h]⟩

/-- So does a FRAME.DEC that ends in error. -/
theorem frameFail (h : t.esticky = s.esticky) (ftlen fdlen : W32) (e : Raise) :
    StickyGrows s (t.frameFail ftlen fdlen e) := completeErr h e

/-- What FRAME.DEC does with a byte. -/
theorem rxByte (h : t.esticky = s.esticky) (p : RxProgress) (b : Byte) : StickyGrows s (rxByte p b t) := by
  obtain ⟨q, hq, -⟩ | ⟨ftlen, fdlen, e, he, -⟩ | ⟨tlen, f, _, hf, -⟩ := rxByte_cases p b t
  · exact .inl (by rw [hq, State.setRx_esticky, h])
  · exact he ▸ frameFail h ftlen fdlen e
  · exact .inl (by rw [hf, State.completeOk_esticky, State.frameDone_esticky, h])

/-- One engine step of FRAME.DEC. -/
theorem exec_frameDec (h : exec .frameDec s = .next t) : StickyGrows s t := by
  obtain ⟨-, -, rfl⟩ | ⟨u, p, ha, h⟩ := execFrameDec_cases h
  · exact completeErr rfl _
  · have hu : u.esticky = s.esticky := by
      obtain ⟨-, rfl⟩ | ⟨-, -, -, rfl⟩ := ha <;> rfl
    obtain ⟨-, -, -, rfl⟩ | ⟨-, -, rfl⟩ | ⟨-, -, -, rfl⟩ | ⟨b, q, -, rfl⟩ := h
    · exact .inl hu
    · exact frameFail hu _ _ _
    · exact frameFail hu _ _ _
    · exact rxByte (t := u.setRxq q) hu p b

/-- Every command. -/
theorem exec {i : Instr} (h : exec i s = .next t) : StickyGrows s t := by
  by_cases h1 : i = .nop
  · subst h1; cases h; exact .inl rfl
  by_cases h2 : i = .connReset
  · subst h2; cases h; exact .inl rfl
  by_cases h3 : i = .frameDec
  · subst h3; exact exec_frameDec h
  obtain ⟨-, rfl⟩ | ⟨-, e, rfl⟩ | ⟨-, u, hw, rfl⟩ := exec_oneStep_cases h1 h2 h3 h
  · exact completeErr rfl _
  · exact completeErr (by split <;> rfl) e
  · have hu : u.esticky = s.esticky := by rw [wrote_frame hw]
    exact .inl hu

/-- The engine's move. -/
theorem engineStep (h : engineStep s = .next t) : StickyGrows s t := by
  obtain ⟨-, rfl⟩ | ⟨-, -, ⟨i, -, h⟩ | ⟨-, rfl⟩⟩ := engineStep_cases h
  · exact .inl rfl
  · exact .exec h
  · exact completeErr rfl _

/-- A stop request. -/
theorem stopRx (s : State) : StickyGrows s s.stopRx := by
  rw [State.stopRx]
  split
  · exact frameFail rfl _ _ _
  · exact .inl rfl

/-- A word write of the host: only a stop request can complete a command. -/
theorem writeWord (s : State) (addr : Nat) (v : W32) : StickyGrows s (s.writeWord addr v) := by
  obtain h | ⟨-, h⟩ | ⟨-, _, _, h⟩ | ⟨-, -, h⟩ | ⟨-, -, h⟩ | h | h | ⟨-, h⟩ | ⟨-, -, h⟩ := writeWord_cases s addr v <;>
    rw [h]
  case inr.inr.inr.inr.inl => exact stopRx s
  all_goals exact .inl rfl

/-- The host's write. -/
theorem busWrite (s : State) (w : BusWidth) (a : BitVec 16) (v : W32) : StickyGrows s (s.busWrite w a v) := by
  rw [State.busWrite]
  split
  · exact writeWord s a.toNat v
  · exact .inl rfl

end StickyGrows

/-- The host's read leaves ESTICKY. -/
theorem busRead_esticky (s : State) (w : BusWidth) (a : BitVec 16) : (s.busRead w a).esticky = s.esticky := by
  rw [State.busRead]
  split <;> rfl

/-- The arrival of a byte leaves ESTICKY. -/
theorem rxPush_esticky (s : State) (b : Byte) : (s.rxPush b).esticky = s.esticky := by
  obtain ⟨-, h⟩ | ⟨-, -, h⟩ := rxPush_cases s b <;> rw [h]
  rfl

/-- The TX transport's taking of a byte leaves ESTICKY. -/
theorem txPop_esticky (s : State) : s.txPop.esticky = s.esticky := by
  obtain ⟨-, h⟩ | ⟨_, _, -, h⟩ := txPop_cases s <;> rw [h]
  rfl

/-- An I/O error of the TX transport leaves ESTICKY. -/
theorem txFail_esticky (s : State) : s.txFail.esticky = s.esticky := by
  obtain ⟨-, h⟩ | ⟨-, h⟩ := txFail_cases s <;> rw [h]
  rfl

/-- A step is the rise of the reset input, which empties ESTICKY, or lets it grow. -/
theorem step_stickyGrows {s t : State} (h : step s = .next t) :
    (s.ResetNext ∧ t.esticky = 0) ∨ StickyGrows s t := by
  obtain ⟨l, -, h⟩ | ⟨w, a, l, -, rfl⟩ | ⟨l, hs, rfl⟩ | ⟨l, -, rfl⟩ | ⟨-, m, l, -, rfl⟩ |
    ⟨-, ⟨w, a, v, l, -, rfl⟩ | ⟨b, l, -, rfl⟩ | ⟨l, -, rfl⟩ | ⟨l, -, rfl⟩ | ⟨l, -, rfl⟩ | ⟨l, -, rfl⟩⟩ := step_cases h
  case inr.inr.inl => exact .inl ⟨⟨l, hs⟩, rfl⟩
  all_goals right
  · exact StickyGrows.engineStep (s := s.setSched l) h
  · exact .inl (busRead_esticky ..)
  · exact .inl rfl
  · exact .inl rfl
  · exact StickyGrows.busWrite (s.setSched l) w a v
  · exact .inl (rxPush_esticky ..)
  · exact .inl rfl
  · exact .inl rfl
  · exact .inl (txPop_esticky _)
  · exact .inl (txFail_esticky _)

/-- Settles O18: every move but the rise of the reset input lets ESTICKY grow by at most one cause's bit. -/
theorem stickyErrorsStay : Obligations.StickyErrorsStay := by
  refine ⟨fun s t h hr c hc => ?_, fun s e => ?_, fun s t h hs => ?_, rfl⟩
  · obtain ⟨hn, -⟩ | hg := step_stickyGrows h
    · exact absurd hn hr
    · exact hg.getLsbD hc
  · rw [State.completeErr_esticky, BitVec.getLsbD_or, stickyBit_getLsbD_cause, Bool.or_true]
  · obtain ⟨-, h0⟩ | hg := step_stickyGrows h
    · rw [h0]; rfl
    · exact hg.and_unnamed hs

/-! ### A CMD write -/

/-- A CMD write to an idle block issues the word. -/
theorem writeWord_cmd_idle {s : State} (hb : s.busy = false) (w : W32) : s.writeWord 0x0044 w = s.issue w := by
  simp [State.writeWord, State.whenIdle, hb]

/-- A CMD write while a command runs is discarded. -/
theorem writeWord_cmd_busy {s : State} (hb : s.busy = true) (w : W32) : s.writeWord 0x0044 w = s.setOvr := by
  simp [State.writeWord, State.whenIdle, hb]

/-- CMD reads 0. -/
theorem busWord_cmd (s : State) : s.busWord 0x0044 = 0 := rfl

/-- The engine runs the command it holds. -/
theorem engineStep_run {s : State} {i : Instr} (hr : s.rst = false) (hb : s.busy = true) (hd : decode s.cur = some i) :
    engineStep s = exec i s := by
  simp [engineStep, hr, hb, hd]

/-- With no move of another agent to come the engine moves. -/
theorem step_of_sched_nil {s : State} (hs : s.sched = []) : step s = engineStep s := by
  simp only [step, hs]

/-- Settles O19, by what a word write to CMD does to an idle and to a busy block. -/
theorem cmdWriteIssuesACommand : Obligations.CmdWriteIssuesACommand := by
  intro s w l hr hs
  have hw : step s = .next (((s.setSched l).writeWord 0x0044 w).answer ⟨0, false⟩) := step_busWrite hr (by decide) hs
  refine ⟨fun hb => ?_, fun hb => ?_, fun t i hb hl hd ht => ?_, busWord_cmd s⟩
  · rw [writeWord_cmd_idle (s := s.setSched l) hb] at hw
    exact ⟨_, hw, rfl⟩
  · rw [writeWord_cmd_busy (s := s.setSched l) hb] at hw
    exact ⟨_, hw, rfl⟩
  · rw [hw, writeWord_cmd_idle (s := s.setSched l) hb] at ht
    cases ht
    rw [step_of_sched_nil hl]
    exact engineStep_run hr rfl hd

end Sys2Proof.Machine
end

section
/-! PROOFS. The register bus by region (`20_memory.md`): improper accesses (R102), reserved addresses (R93) and the SCR
window (R94). -/

namespace Sys2Proof.Machine

variable {s : State} {a : Nat} {l : List Move}

/-! ### Improper accesses -/

/-- A step that is an improper read. -/
theorem step_busRead_improper {width : BusWidth} {addr : BitVec 16} (hp : ¬ properAccess width addr)
    (hs : s.sched = .busRead width addr :: l) : step s = .next ((s.setSched l).answer ⟨0, true⟩) := by
  simp only [step, hs, doMove, State.busRead, if_neg hp]

/-- A step that is an improper write. -/
theorem step_busWrite_improper {width : BusWidth} {addr : BitVec 16} {v : W32} (hr : s.rst = false)
    (hp : ¬ properAccess width addr) (hs : s.sched = .busWrite width addr v :: l) :
    step s = .next ((s.setSched l).answer ⟨0, true⟩) := by
  have hr' : (s.setSched l).rst = false := hr
  simp only [step, hs, doMove, unlessReset_eq hr', State.busWrite, if_neg hp]

/-- Settles O25: the bus answers an improper access itself. -/
theorem improperAccessesAreErrors : Obligations.ImproperAccessesAreErrors := by
  intro s width a v l h
  have hp : ¬ properAccess width a := fun ⟨hw, ha⟩ => h.elim (· hw) (· ha)
  exact ⟨fun hs => step_busRead_improper hp hs,
    fun hr hs => ⟨_, step_busWrite_improper hr hp hs, rfl, rfl⟩⟩

/-! ### Word accesses at an address given as a number -/

/-- The bus carries 16-bit addresses. -/
theorem toNat_addr (ha : a < 0x10000) : (BitVec.ofNat 16 a).toNat = a := Nat.mod_eq_of_lt ha

/-- A step that is a word read. -/
theorem step_busRead_ofNat (ha : a < 0x10000) (h4 : a % 4 = 0)
    (hs : s.sched = .busRead .word (BitVec.ofNat 16 a) :: l) :
    step s = .next ((s.setSched l).answer ⟨s.busWord a, false⟩) := by
  have hn : (BitVec.ofNat 16 a).toNat = a := toNat_addr ha
  have h := step_busRead (by rwa [hn]) hs
  rwa [hn] at h

/-- A step that is a word write. -/
theorem step_busWrite_ofNat {v : W32} (hr : s.rst = false) (ha : a < 0x10000) (h4 : a % 4 = 0)
    (hs : s.sched = .busWrite .word (BitVec.ofNat 16 a) v :: l) :
    step s = .next (((s.setSched l).writeWord a v).answer ⟨0, false⟩) := by
  have hn : (BitVec.ofNat 16 a).toNat = a := toNat_addr ha
  have h := step_busWrite hr (by rwa [hn]) hs
  rwa [hn] at h

/-! ### Reserved addresses -/

/-- No register, RT entry or SCR byte of a block has this bus address (R93). -/
def State.Unmapped (s : State) (a : Nat) : Prop := 0x0094 ≤ a ∧ ¬ s.rtAddr a ∧ ¬ s.scrAddr a

/-- The three ranges of R93 hold no mapped address: RT ends below `0x1000`, where SCR begins. -/
theorem unmapped_of_reserved (hv : s.params.Valid)
    (h : (0x0094 ≤ a ∧ a < 0x0100) ∨ (0x0100 + 8 * s.params.rtN ≤ a ∧ a < 0x1000) ∨
      (0x1000 + s.params.scrSize ≤ a ∧ a < 0x10000)) : s.Unmapped a := by
  obtain ⟨-, -, -, -, -, -, -, -, hrt⟩ := hv
  refine ⟨?_, ?_, ?_⟩ <;> omega

/-- The control and status registers end at `0x0090`. -/
theorem controlWord_eq_zero (s : State) (ha : 0x0094 ≤ a) : s.controlWord a = 0 := by
  rw [State.controlWord] <;> omega

/-- An unmapped address reads as 0. -/
theorem busWord_unmapped (h : s.Unmapped a) : s.busWord a = 0 := by
  obtain ⟨hlo, hrt, hscr⟩ := h
  rw [State.busWord, if_neg (by omega), if_neg hrt, if_neg hscr, controlWord_eq_zero s hlo, ite_self]

/-- An unmapped address ignores a write, idle or busy. -/
theorem writeWord_unmapped (h : s.Unmapped a) (v : W32) : s.writeWord a v = s := by
  obtain ⟨hlo, hrt, hscr⟩ := h
  rw [State.writeWord, if_neg (by omega), if_neg (by omega), if_neg (by omega), if_neg (by omega),
    if_neg (by omega), if_neg hrt, if_neg hscr]

/-- Settles O24: reserved addresses are unmapped. -/
theorem reservedAddressesAreInert : Obligations.ReservedAddressesAreInert := by
  intro s a v l hv h4 h
  have hu : s.Unmapped a := unmapped_of_reserved hv h
  have ha : a < 0x10000 := by
    obtain ⟨-, -, -, -, -, -, -, -, hrt⟩ := hv
    omega
  refine ⟨fun hs => ?_, fun hr hs => ?_⟩
  · rw [step_busRead_ofNat ha h4 hs, busWord_unmapped hu]
    rfl
  · rw [step_busWrite_ofNat hr ha h4 hs, writeWord_unmapped (s := s.setSched l) hu]
    exact ⟨_, rfl, rfl, rfl⟩

/-! ### The SCR window -/

/-- The SCR window lies above every other region. -/
theorem not_rtAddr_of_scrAddr (hv : s.params.Valid) (h : s.scrAddr a) : ¬ s.rtAddr a := by
  obtain ⟨-, -, -, -, -, -, -, -, hrt⟩ := hv
  omega

/-- A word read in the SCR window. -/
theorem busWord_scr (hv : s.params.Valid) (h : s.scrAddr a) :
    s.busWord a = BitVec.ofNat 32 (natLE (s.scrBytes (a - 0x1000) 4)) := by
  rw [State.busWord, if_neg (by omega), if_neg (by omega), if_neg (not_rtAddr_of_scrAddr hv h), if_pos h,
    fromLE_eq 32 _ (by rw [scrBytes_length])]

/-- A word write in the SCR window of an idle block. -/
theorem writeWord_scr_idle (hv : s.params.Valid) (hb : s.busy = false) (h : s.scrAddr a) (v : W32) :
    s.writeWord a v = s.writeScrWord a v := by
  rw [State.writeWord, if_neg (by omega), if_neg (by omega), if_neg (by omega), if_neg (by omega),
    if_neg (by omega), if_neg (not_rtAddr_of_scrAddr hv h), if_pos h, State.whenIdle, hb]
  rfl

/-- A byte of the little-endian form is a digit to the base 256. -/
theorem leBytes_getD {w n k : Nat} (v : BitVec w) (hk : k < n) :
    (leBytes n v).getD k 0 = BitVec.ofNat 8 (v.toNat / 256 ^ k) := by
  simp [leBytes_eq, bytesLE, hk]

/-- What a word written to the SCR window leaves at every offset of SCR. -/
theorem scrByte_writeScrWord (s : State) (a c : Nat) (v : W32) :
    (s.writeScrWord (0x1000 + a) v).scrByte c =
      if a ≤ c ∧ c < a + 4 then BitVec.ofNat 8 (v.toNat / 256 ^ (c - a)) else s.scrByte c := by
  rw [State.writeScrWord, scrByte_setScr_insertAll, leBytes_length, Nat.add_sub_cancel_left]
  refine ite_congr rfl (fun h => ?_) fun _ => rfl
  exact leBytes_getD v (by omega)

/-- Settles O21, by the word read and the word write of the SCR window. -/
theorem busWindowMovesScrBytes : Obligations.BusWindowMovesScrBytes := by
  intro s a v l hv h4 hle
  obtain ⟨hlt, hmod⟩ : 0x1000 + a < 0x10000 ∧ (0x1000 + a) % 4 = 0 := by
    obtain ⟨-, -, -, -, -, -, hscr, -, -⟩ := hv
    omega
  have hw : s.scrAddr (0x1000 + a) := by omega
  refine ⟨fun hs => ?_, fun hr hb hs => ?_⟩
  · rw [step_busRead_ofNat hlt hmod hs, busWord_scr hv hw, Nat.add_sub_cancel_left]
    rfl
  · rw [step_busWrite_ofNat hr hlt hmod hs, writeWord_scr_idle (s := s.setSched l) hv hb hw]
    exact ⟨_, rfl, rfl, fun c => scrByte_writeScrWord (s.setSched l) a c v⟩

end Sys2Proof.Machine
end

section
/-! PROOFS. The decoder against the masks of the formats, and what the engine does with a word that matches no row
(`30_encoding.md` R132, R137). -/

namespace Sys2Proof

/-! ### The formats as masks -/

/-- The mask of a format (R132): the bits of a word that the format fixes. -/
def Shape.mask : Shape → W32
  | .z _ => mkWord 0xFF 0xF 0xF 0xFFFF
  | .r _ => mkWord 0xFF 0x8 0xF 0xFFFF
  | .p _ => mkWord 0xFF 0x9 0xF 0xFFFF
  | .rr _ => mkWord 0xFF 0x8 0x8 0xFFFF
  | .pr _ => mkWord 0xFF 0x9 0x8 0xFFFF
  | .ri _ => mkWord 0xFF 0x8 0xF 0
  | .im _ => mkWord 0xFF 0xF 0xF 0

/-- A specifier names a register exactly when its top bit is clear. -/
theorem regOf_isSome_iff : ∀ f : BitVec 4, (regOf f).isSome ↔ f &&& 0x8 = 0 := by decide

/-- A specifier names a pair exactly when its top and bottom bits are clear. -/
theorem pairOf_isSome_iff : ∀ f : BitVec 4, (pairOf f).isSome ↔ f &&& 0x9 = 0 := by decide

/-- A mask that keeps the command code holds a word to a bare command code field by field. -/
theorem and_mkWord_eq_iff {w : W32} {op : BitVec 8} {a b : BitVec 4} {i : BitVec 16} :
    w &&& mkWord 0xFF a b i = mkWord op 0 0 0 ↔
      opField w = op ∧ raField w &&& a = 0 ∧ rbField w &&& b = 0 ∧ immField w &&& i = 0 := by
  have hop : opField w &&& 0xFF = opField w := BitVec.and_allOnes
  obtain ⟨eop, era, erb, eimm⟩ := fields_and (rfl : w &&& mkWord 0xFF a b i = _)
  simp only [opField_mkWord, raField_mkWord, rbField_mkWord, immField_mkWord, hop] at eop era erb eimm
  rw [eop, era, erb, eimm]
  constructor
  · intro h
    simp only [h, opField_mkWord, raField_mkWord, rbField_mkWord, immField_mkWord, and_self]
  · rintro ⟨hop, hra, hrb, himm⟩
    rw [← mkWord_fields (w &&& _), hop, hra, hrb, himm]

/-- A guarded read answers exactly when its guard holds and what it guards answers. -/
theorem isSome_ite_none {α : Type} (p : Prop) [Decidable p] (x : Option α) :
    (if p then x else none).isSome ↔ p ∧ x.isSome := by
  split <;> simp [*]

/-- Two specifiers are read exactly when each is. -/
theorem isSome_bind_map {α β γ : Type} (x : Option α) (y : Option β) (f : α → β → γ) :
    (x.bind fun a => y.map (f a)).isSome ↔ x.isSome ∧ y.isSome := by
  cases x <;> simp

/-- A format reads a word of a command code exactly when the word, under the format's mask, is that bare code. -/
theorem Shape.and_mask_eq_iff (w : W32) (op : BitVec 8) (sh : Shape) :
    w &&& sh.mask = mkWord op 0 0 0 ↔ opField w = op ∧ (sh.read w).isSome := by
  have h4 (f : BitVec 4) : f &&& 0xF = f := BitVec.and_allOnes
  have h16 (f : BitVec 16) : f &&& 0xFFFF = f := BitVec.and_allOnes
  have h0 (f : BitVec 16) : f &&& 0 = 0 := BitVec.and_zero
  cases sh <;> simp only [Shape.mask, and_mkWord_eq_iff, h4, h16, h0, ← regOf_isSome_iff, ← pairOf_isSome_iff,
    Shape.read, isSome_ite_none, isSome_bind_map, Option.isSome_map, Option.isSome_some, and_true]
  -- The decoder looks at the unused fields first; the mask has the fields in their order.
  case r | p | ri => simp only [and_comm]
  case rr | pr => rw [← and_assoc (c := immField w = 0), and_comm (b := immField w = 0)]

/-! ### The command map as a table of masks -/

/-- A code that the command map lists stands in the table, with the mask of its format: code by code. -/
theorem exists_row_of_commandMap {op : BitVec 8} {sh : Shape} (h : commandMap op = some sh) :
    ∃ r ∈ opcodeRows, r.matchWord = mkWord op 0 0 0 ∧ r.mask = sh.mask := by
  unfold commandMap at h
  split at h <;> cases h <;> decide

/-- A row of the table is a bare command code, which the command map lists with a format of the row's mask. -/
theorem commandMap_of_row {r : Row} (h : r ∈ opcodeRows) :
    ∃ op sh, r.matchWord = mkWord op 0 0 0 ∧ commandMap op = some sh ∧ sh.mask = r.mask := by
  have htable : ∀ r ∈ opcodeRows, r.matchWord = mkWord (opField r.matchWord) 0 0 0 ∧
      (commandMap (opField r.matchWord)).map Shape.mask = some r.mask := by decide
  obtain ⟨hw, hm⟩ := htable r h
  obtain ⟨sh, hsh, hmask⟩ := Option.map_eq_some_iff.mp hm
  exact ⟨_, sh, hw, hsh, hmask⟩

/-- The words that decode are those that match a row (R137). -/
theorem decode_isSome_iff (w : W32) :
    (decode w).isSome ↔ ∃ r ∈ opcodeRows, w &&& r.mask = r.matchWord := by
  constructor
  · intro h
    obtain ⟨i, hi⟩ := Option.isSome_iff_exists.mp h
    obtain ⟨sh, hm, hread⟩ := Option.bind_eq_some_iff.mp hi
    obtain ⟨r, hr, hmatch, hmask⟩ := exists_row_of_commandMap hm
    refine ⟨r, hr, ?_⟩
    rw [hmask, hmatch]
    exact (sh.and_mask_eq_iff w _).mpr ⟨rfl, Option.isSome_of_eq_some hread⟩
  · rintro ⟨r, hr, hw⟩
    obtain ⟨op, sh, hmatch, hm, hmask⟩ := commandMap_of_row hr
    rw [hmatch, ← hmask] at hw
    obtain ⟨hop, hread⟩ := (sh.and_mask_eq_iff w op).mp hw
    rwa [decode_of_op hop hm]

namespace Machine

/-! ### Words that match no row -/

/-- The engine completes a word that is no command with error. -/
theorem engineStep_of_decode_none {s : State} (hr : s.rst = false) (hb : s.busy = true) (hd : decode s.cur = none) :
    engineStep s = .next (s.completeErr ⟨.reservedEncoding, s.cur⟩) := by
  simp [engineStep, hr, hb, hd]

/-- IllegalCommand(ReservedEncoding) records its error and leaves CLOSED. -/
theorem completeErr_reservedEncoding (s : State) (info : W32) :
    s.completeErr ⟨.reservedEncoding, info⟩ = { s with
      err := 0x00000106
      errinfo := info
      esticky := s.esticky ||| 0x40
      ip := s.ip ||| 3
      cmdcnt := s.cmdcnt + 1
      busy := false
      rx := none } := by
  have hclosed : (s.closed || CmdError.reservedEncoding.cause == .transport) = s.closed := Bool.or_false _
  have herr : CmdError.reservedEncoding.errWord = 0x00000106 := by decide
  have hbit : CmdError.reservedEncoding.stickyBit = 0x40 := by decide
  rw [State.completeErr, hclosed, herr, hbit]

/-- Settles O6: the words that decode are those that match a row, and the engine looks at nothing else first. -/
theorem illegalWordsCompleteAsReserved : Obligations.IllegalWordsCompleteAsReserved := by
  intro s hs hr hb
  rw [step_of_sched_nil hs]
  refine ⟨fun h => ?_, fun h => ?_⟩
  · have hd : decode s.cur = none := by
      rw [← Option.not_isSome_iff_eq_none, decode_isSome_iff]
      exact fun ⟨r, hmem, hrow⟩ => h r hmem hrow
    rw [engineStep_of_decode_none hr hb hd, completeErr_reservedEncoding]
  · obtain ⟨i, hd⟩ := Option.isSome_iff_exists.mp ((decode_isSome_iff s.cur).mpr h)
    exact ⟨i, hd, engineStep_run hr hb hd⟩

end Machine
end Sys2Proof
end

section
/-! PROOFS. The VarInt format: what the encoding is, what the decoding gives, there and back, and the two commands
(`40_varint.md`). -/

namespace Sys2Proof.Machine

/-! ### The bytes of one VarInt -/

/-- The bytes of one VarInt (R160): the continuation bit is set on every byte but the last. -/
inductive IsVarInt : Bytes → Prop where
  /-- The last byte. -/
  | last {b : Byte} (hb : b.toNat < 128) : IsVarInt [b]
  /-- A byte that another one follows. -/
  | more {b : Byte} {w : Bytes} (hb : 128 ≤ b.toNat) (hw : IsVarInt w) : IsVarInt (b :: w)

/-- A VarInt has a byte. -/
theorem IsVarInt.length_pos {w : Bytes} (hw : IsVarInt w) : 0 < w.length := by
  cases hw <;> exact Nat.succ_pos _

/-- A byte of a VarInt is 128 or more exactly when another one follows. -/
theorem IsVarInt.le_getElem_iff {w : Bytes} (hw : IsVarInt w) (k : Nat) (h : k < w.length) :
    128 ≤ w[k].toNat ↔ k + 1 < w.length := by
  induction hw generalizing k with
  | @last b hb =>
    obtain rfl : k = 0 := Nat.lt_one_iff.mp h
    simpa using hb
  | @more b w hb hw ih =>
    cases k with
    | zero => simpa [hb] using hw.length_pos
    | succ k => simpa using ih k (Nat.lt_of_succ_lt_succ h)

/-- A byte sequence begins with a VarInt that ends at its first byte below 128. -/
theorem isVarInt_take {s : Bytes} {k : Nat} (h : k < s.length) (hk : s[k].toNat < 128)
    (hlo : ∀ (j : Nat) (hj : j < k), 128 ≤ s[j].toNat) : IsVarInt (s.take (k + 1)) := by
  induction k generalizing s with
  | zero =>
    cases s with
    | nil => exact absurd h (Nat.not_lt_zero 0)
    | cons b s => simpa using IsVarInt.last hk
  | succ k ih =>
    cases s with
    | nil => exact absurd h (Nat.not_lt_zero _)
    | cons b s =>
      have hb : 128 ≤ b.toNat := hlo 0 (Nat.succ_pos k)
      exact .more hb (ih (Nat.lt_of_succ_lt_succ h) hk fun j hj => hlo (j + 1) (Nat.succ_lt_succ hj))

/-- The number of a VarInt: the first group is the least significant. -/
theorem natGroups_cons (b : Byte) (w : Bytes) : natGroups (b :: w) = b.toNat % 128 + 128 * natGroups w := rfl

/-! ### The encoding -/

/-- The loop of R161 ends at a value that is one group. -/
theorem and_mask_eq_zero_iff (u : W32) : u &&& 0xFFFFFF80 = 0 ↔ u.toNat < 128 := by
  have hmask : ∀ i < 32, (0xFFFFFF80 : W32).getLsbD i = decide (7 ≤ i) := by decide
  have hshift : u &&& (0xFFFFFF80 : W32) = u >>> 7 <<< 7 := by
    refine BitVec.eq_of_getLsbD_eq fun i h => ?_
    rw [BitVec.getLsbD_and, hmask i h, BitVec.getLsbD_shiftLeft, BitVec.getLsbD_ushiftRight]
    grind
  rw [hshift, ← BitVec.toNat_inj, BitVec.toNat_shiftLeft, BitVec.toNat_ushiftRight, Nat.shiftRight_eq_div_pow,
    Nat.shiftLeft_eq, show (0 : W32).toNat = 0 from rfl]
  omega

/-- A value of one group is its own encoding. -/
theorem encodeGroups_of_lt {u : W32} (h : u.toNat < 128) (n : Nat) : encodeGroups (n + 1) u = [trunc 8 u] := by
  rw [encodeGroups, if_pos ((and_mask_eq_zero_iff u).mpr h)]

/-- Of any other value the encoding gives the lowest group first, then the rest. -/
theorem encodeGroups_of_le {u : W32} (h : 128 ≤ u.toNat) (n : Nat) :
    encodeGroups (n + 1) u = trunc 8 (u &&& 0x7F ||| 0x80) :: encodeGroups n (u >>> 7) := by
  rw [encodeGroups, if_neg fun h0 => Nat.not_lt.mpr h ((and_mask_eq_zero_iff u).mp h0)]

/-- The last byte of an encoding as a number. -/
theorem toNat_lastByte {u : W32} (h : u.toNat < 128) : (trunc 8 u).toNat = u.toNat := by
  rw [trunc_eq, BitVec.toNat_ofNat]
  omega

/-- Every other byte of an encoding as a number. -/
theorem toNat_continuedByte (u : W32) : (trunc 8 (u &&& 0x7F ||| 0x80)).toNat = 128 + u.toNat % 128 := by
  have hand : (u &&& 0x7F).toNat = u.toNat % 128 := Nat.and_two_pow_sub_one_eq_mod u.toNat 7
  have hlt : u.toNat % 128 < 2 ^ 7 := Nat.mod_lt _ (by decide)
  have hor : 128 + u.toNat % 128 = 128 ||| u.toNat % 128 := Nat.two_pow_add_eq_or_of_lt hlt 1
  have hnat : (u &&& 0x7F ||| 0x80).toNat = 128 + u.toNat % 128 := by
    rw [BitVec.toNat_or, hand, hor, Nat.lor_comm]
    rfl
  rw [trunc_eq, BitVec.toNat_ofNat, hnat]
  omega

/-- What is left of a value after its lowest group. -/
theorem toNat_shiftRight_group (u : W32) : (u >>> 7).toNat = u.toNat / 128 := by
  rw [BitVec.toNat_ushiftRight, Nat.shiftRight_eq_div_pow]

/-- One group more is a factor of 128. -/
theorem two_pow_group_succ (n : Nat) : 2 ^ (7 * (n + 1)) = 2 ^ (7 * n) * 128 := pow_add 2 (7 * n) 7

/-- A bound of `n + 1` groups on a value leaves one of `n` groups on what is left after its lowest group. -/
theorem shiftRight_group_lt {u : W32} {n : Nat} (h : u.toNat < 2 ^ (7 * (n + 1))) : (u >>> 7).toNat < 2 ^ (7 * n) := by
  rw [toNat_shiftRight_group]
  exact Nat.div_lt_of_lt_mul (by rwa [Nat.mul_comm, ← two_pow_group_succ])

/-- The loop of R161 writes one VarInt when it has room for the groups. -/
theorem isVarInt_encodeGroups {n : Nat} {u : W32} (h : u.toNat < 2 ^ (7 * (n + 1))) :
    IsVarInt (encodeGroups (n + 1) u) := by
  induction n generalizing u with
  | zero =>
    rw [encodeGroups_of_lt h]
    exact .last (by rwa [toNat_lastByte h])
  | succ n ih =>
    obtain hlt | hle := Nat.lt_or_ge u.toNat 128
    · rw [encodeGroups_of_lt hlt]
      exact .last (by rwa [toNat_lastByte hlt])
    · rw [encodeGroups_of_le hle]
      exact .more (by rw [toNat_continuedByte]; omega) (ih (shiftRight_group_lt h))

/-- The groups that the loop writes are those of the value. -/
theorem natGroups_encodeGroups {n : Nat} {u : W32} (h : u.toNat < 2 ^ (7 * n)) :
    natGroups (encodeGroups n u) = u.toNat := by
  induction n generalizing u with
  | zero => exact (Nat.lt_one_iff.mp h).symm
  | succ n ih =>
    obtain hlt | hle := Nat.lt_or_ge u.toNat 128
    · rw [encodeGroups_of_lt hlt, natGroups_cons, toNat_lastByte hlt]
      exact Nat.mod_eq_of_lt hlt
    · rw [encodeGroups_of_le hle, natGroups_cons, toNat_continuedByte, ih (shiftRight_group_lt h),
        toNat_shiftRight_group]
      omega

/-- The loop writes a further byte exactly when the value needs a further group. -/
theorem lt_length_encodeGroups_iff {n k : Nat} {u : W32} (h : u.toNat < 2 ^ (7 * n)) :
    k + 1 < (encodeGroups n u).length ↔ 2 ^ (7 * (k + 1)) ≤ u.toNat := by
  induction n generalizing k u with
  | zero =>
    have h0 : u.toNat = 0 := Nat.lt_one_iff.mp h
    simp [encodeGroups, h0]
  | succ n ih =>
    obtain hlt | hle := Nat.lt_or_ge u.toNat 128
    · have hpow : 2 ^ 7 ≤ 2 ^ (7 * (k + 1)) := Nat.pow_le_pow_right (by decide) (by omega)
      rw [encodeGroups_of_lt hlt, List.length_singleton]
      omega
    · rw [encodeGroups_of_le hle, List.length_cons, Nat.add_lt_add_iff_right]
      cases k with
      | zero =>
        cases n with
        | zero => exact absurd h (Nat.not_lt.mpr hle)
        | succ n => exact iff_of_true (isVarInt_encodeGroups (shiftRight_group_lt h)).length_pos hle
      | succ k =>
        rw [ih (shiftRight_group_lt h), toNat_shiftRight_group, Nat.le_div_iff_mul_le (by decide),
          two_pow_group_succ (k + 1)]

/-- Every `i32` is within the 35 bits that five groups hold. -/
theorem toNat_lt_five_groups (v : W32) : v.toNat < 2 ^ (7 * 5) := v.isLt.trans (by decide)

/-- `encode_varint` writes one VarInt (R160). -/
theorem isVarInt_encodeVarint (v : W32) : IsVarInt (encodeVarint v) := isVarInt_encodeGroups (toNat_lt_five_groups v)

/-- The groups of the encoding are those of the value (R160). -/
theorem natGroups_encodeVarint (v : W32) : natGroups (encodeVarint v) = v.toNat :=
  natGroups_encodeGroups (toNat_lt_five_groups v)

/-- `varint_len` by the size of the value (R162). -/
theorem varintLen_eq (v : W32) :
    varintLen v = (if v.toNat < 2 ^ 7 then 1 else if v.toNat < 2 ^ 14 then 2 else if v.toNat < 2 ^ 21 then 3
      else if v.toNat < 2 ^ 28 then 4 else 5) := by
  obtain ⟨hpos, hle⟩ : 0 < varintLen v ∧ varintLen v ≤ 5 := encodeVarint_length v
  have hiff (k : Nat) : k + 1 < varintLen v ↔ 2 ^ (7 * (k + 1)) ≤ v.toNat :=
    lt_length_encodeGroups_iff (toNat_lt_five_groups v)
  have h1 := hiff 0
  have h2 := hiff 1
  have h3 := hiff 2
  have h4 := hiff 3
  split_ifs <;> omega

/-- Settles O38, by what the loop of the encoding writes. -/
theorem varIntEncodingIsShortest : Obligations.VarIntEncodingIsShortest :=
  ⟨fun v => ⟨natGroups_encodeVarint v, (isVarInt_encodeVarint v).le_getElem_iff, varintLen_eq v⟩, by decide, by decide⟩

/-! ### The decoding -/

/-- A group added above the bits of the accumulator. -/
theorem addGroup_ofNat {a i : Nat} (ha : a < 2 ^ (7 * i)) (b : Byte) :
    addGroup (BitVec.ofNat 32 a) i b = BitVec.ofNat 32 (a + 2 ^ (7 * i) * (b.toNat % 128)) := by
  rw [addGroup_eq, ← BitVec.ofNat_or, Nat.lor_comm, Nat.mul_comm, ← Nat.two_pow_add_eq_or_of_lt ha, Nat.add_comm]

/-- The accumulator with a group more keeps within the groups taken. -/
theorem add_group_lt {a i : Nat} (ha : a < 2 ^ (7 * i)) (g : Nat) :
    a + 2 ^ (7 * i) * (g % 128) < 2 ^ (7 * (i + 1)) := by
  have hg : g % 128 + 1 ≤ 128 := Nat.mod_lt _ (by decide)
  calc a + 2 ^ (7 * i) * (g % 128) < 2 ^ (7 * i) * (g % 128 + 1) := by rw [Nat.mul_succ]; omega
    _ ≤ 2 ^ (7 * i) * 128 := Nat.mul_le_mul_left _ hg
    _ = 2 ^ (7 * (i + 1)) := (two_pow_group_succ i).symm

/-- The loop of R163 ends at a byte below 128. -/
theorem decodeGroups_cons_of_lt {b : Byte} (hb : b.toNat < 128) (n i : Nat) (acc : W32) (s : Bytes) :
    decodeGroups (n + 1) i acc (b :: s) = .value (addGroup acc i b) (i + 1) := by
  rw [decodeGroups, if_neg (by rw [continues_iff]; omega)]

/-- The loop of R163 goes on after a byte of 128 or more. -/
theorem decodeGroups_cons_of_le {b : Byte} (hb : 128 ≤ b.toNat) (n i : Nat) (acc : W32) (s : Bytes) :
    decodeGroups (n + 1) i acc (b :: s) = decodeGroups n (i + 1) (addGroup acc i b) s := by
  rw [decodeGroups, if_pos ((continues_iff b).mpr hb)]

/-- The loop takes a VarInt of no more bytes than allowed to its number, whatever follows it. -/
theorem IsVarInt.decodeGroups_append {w : Bytes} (hw : IsVarInt w) (t : Bytes) {n i a : Nat} (hn : w.length ≤ n)
    (ha : a < 2 ^ (7 * i)) :
    decodeGroups n i (BitVec.ofNat 32 a) (w ++ t) =
      .value (BitVec.ofNat 32 (a + 2 ^ (7 * i) * natGroups w)) (i + w.length) := by
  induction hw generalizing n i a with
  | @last b hb =>
    obtain ⟨n, rfl⟩ : ∃ m, n = m + 1 := Nat.exists_eq_add_of_le' hn
    rw [List.singleton_append, decodeGroups_cons_of_lt hb, addGroup_ofNat ha]
    rfl
  | @more b w hb hw ih =>
    obtain ⟨n, rfl⟩ : ∃ m, n = m + 1 := Nat.exists_eq_add_of_le' ((Nat.succ_pos _).trans_le hn)
    have hnum : a + 2 ^ (7 * i) * (b.toNat % 128) + 2 ^ (7 * (i + 1)) * natGroups w =
        a + 2 ^ (7 * i) * natGroups (b :: w) := by
      rw [natGroups_cons, two_pow_group_succ]
      ring
    rw [List.cons_append, decodeGroups_cons_of_le hb, addGroup_ofNat ha,
      ih (Nat.le_of_succ_le_succ hn) (add_group_lt ha _), hnum, List.length_cons, Nat.add_right_comm, Nat.add_assoc]

/-- `decode_varint` of a VarInt of at most five bytes, whatever follows it. -/
theorem IsVarInt.decodeVarint_append {w : Bytes} (hw : IsVarInt w) (hn : w.length ≤ 5) (t : Bytes) :
    decodeVarint (w ++ t) = .value (BitVec.ofNat 32 (natGroups w)) w.length := by
  simpa [decodeVarint] using hw.decodeGroups_append t (i := 0) (a := 0) hn Nat.one_pos

/-- As many bytes of 128 or more as are allowed are too large. -/
theorem decodeGroups_tooLarge {n i : Nat} {acc : W32} {s : Bytes} (hn : n ≤ s.length)
    (h : ∀ b ∈ s.take n, 128 ≤ b.toNat) : decodeGroups n i acc s = .tooLarge := by
  induction n generalizing i acc s with
  | zero => rfl
  | succ n ih =>
    cases s with
    | nil => exact absurd hn (Nat.not_succ_le_zero n)
    | cons b s =>
      obtain ⟨hb, hs⟩ := List.forall_mem_cons.mp h
      rw [decodeGroups_cons_of_le hb]
      exact ih (Nat.le_of_succ_le_succ hn) hs

/-- Fewer bytes than allowed, all of 128 or more, are insufficient. -/
theorem decodeGroups_insufficient {n i : Nat} {acc : W32} {s : Bytes} (hn : s.length < n)
    (h : ∀ b ∈ s, 128 ≤ b.toNat) : decodeGroups n i acc s = .insufficient := by
  induction s generalizing n i acc with
  | nil =>
    obtain ⟨n, rfl⟩ : ∃ m, n = m + 1 := Nat.exists_eq_add_of_le' hn
    rfl
  | cons b s ih =>
    obtain ⟨n, rfl⟩ : ∃ m, n = m + 1 := Nat.exists_eq_add_of_le' ((Nat.succ_pos _).trans hn)
    obtain ⟨hb, hs⟩ := List.forall_mem_cons.mp h
    rw [decodeGroups_cons_of_le hb]
    exact ih (Nat.lt_of_succ_lt_succ hn) hs

/-- Settles O39: the bytes up to the first below 128 are a VarInt, which the decoding takes to its number. -/
theorem varIntDecodingStopsAtTheFifthByte : Obligations.VarIntDecodingStopsAtTheFifthByte := by
  refine fun s => ⟨fun k h h5 hk hlo => ?_, decodeGroups_tooLarge, decodeGroups_insufficient⟩
  have hlen : (s.take (k + 1)).length = k + 1 := List.length_take_of_le h
  have hd := (isVarInt_take h hk hlo).decodeVarint_append (by rw [hlen]; exact h5) (s.drop (k + 1))
  rwa [List.take_append_drop, hlen] at hd

/-- Settles O40: the encoding is a VarInt of the value's groups, which the decoding takes to its number. The converse
fails at two bytes whose second group is 0: the encoding of 0 has one byte. -/
theorem varIntRoundTrip : Obligations.VarIntRoundTrip := by
  refine ⟨fun v t => ?_, [0x80, 0x00], 0, 2, by decide, by decide⟩
  rw [(isVarInt_encodeVarint v).decodeVarint_append (encodeVarint_length v).2, natGroups_encodeVarint,
    BitVec.ofNat_toNat, BitVec.setWidth_eq]
  rfl

/-! ### ENC.VARINT and DEC.VARINT -/

/-- `decode_varint` with a value, as its users see it. -/
theorem takeVarint_of_value {s : Bytes} {v : W32} {n : Nat} (h : decodeVarint s = .value v n) :
    takeVarint s = .ok (v, n) := by
  rw [takeVarint, h]

/-- A VarInt cut short, as its users see it. -/
theorem takeVarint_of_insufficient {s : Bytes} (h : decodeVarint s = .insufficient) :
    takeVarint s = .error ⟨.insufficientBytes, word32 s.length⟩ := by
  rw [takeVarint, h]

/-- A VarInt too large, as its users see it. -/
theorem takeVarint_of_tooLarge {s : Bytes} (h : decodeVarint s = .tooLarge) :
    takeVarint s = .error ⟨.varIntTooLarge, 0⟩ := by
  rw [takeVarint, h]

/-- ENC.VARINT is `BldAppend` of an encoding (R165). -/
theorem exec_encVarint (ra : Reg) (s : State) :
    exec (.encVarint ra) s = .next (s.perform (bldAppend (encodeVarint (BitVec.ofNat 32 s.x[ra].toNat)) s)) := by
  rw [← trunc_eq]
  rfl

/-- DEC.VARINT with a VarInt at the cursor. -/
theorem exec_decVarint_ok {s : State} (hc : s.closed = false) (ra : Reg) {v : W32} {n : Nat}
    (h : takeVarint s.payRest = .ok (v, n)) :
    exec (.decVarint ra) s = .next ((s.setReg ra (sext64 v)).advance n).completeOk :=
  congrArg _ (perform_ok hc (by rw [h]; rfl))

/-- DEC.VARINT with none. -/
theorem exec_decVarint_error {s : State} (hc : s.closed = false) (ra : Reg) {e : Raise}
    (h : takeVarint s.payRest = .error e) : exec (.decVarint ra) s = .next (s.completeErr e) :=
  congrArg _ (perform_error hc (by rw [h]; rfl))

/-- Settles O41, by the results of `BldAppend` and of `decode_varint`. -/
theorem varIntCommandsAppendAndRead : Obligations.VarIntCommandsAppendAndRead := by
  refine ⟨fun ra s hc => ⟨mkWord_register 0x10 ra, fun h => ?_, fun h => ?_⟩,
    fun ra s hc => ⟨mkWord_register 0x11 ra, fun v n h => ?_, fun h => ?_, fun h => ?_⟩⟩
  · rw [exec_encVarint, perform_ok hc (bldAppend_ok h)]
    rfl
  · rw [exec_encVarint, perform_error hc (bldAppend_error h)]
    rfl
  · exact exec_decVarint_ok hc ra (takeVarint_of_value h)
  · rw [exec_decVarint_error hc ra (takeVarint_of_insufficient h), payRest_length]
    rfl
  · exact exec_decVarint_error hc ra (takeVarint_of_tooLarge h)

end Sys2Proof.Machine
end

section
/-! PROOFS. The fixed-width types, there and back, and the booleans (`41_fixed_int_bool.md`, `42_float.md`). -/

namespace Sys2Proof.Machine

/-! ### The extension of a decoded pattern -/

/-- The extension of the signed and of the unsigned types (R182 to R197). -/
def extendWord (signed : Bool) {w : Nat} (v : BitVec w) : W64 :=
  match signed with
  | true => sext64 v
  | false => zext64 v

/-- A 64-bit pattern needs no extension (R197, R214). -/
theorem extendWord_full (signed : Bool) (v : W64) : extendWord signed v = v := by
  cases signed with
  | false => exact BitVec.setWidth_eq v
  | true => exact BitVec.signExtend_eq v

/-- An extension keeps the bits that it extends. -/
theorem trunc_extendWord {w : Nat} (h : w ≤ 64) (signed : Bool) (v : BitVec w) : trunc w (extendWord signed v) = v := by
  cases signed with
  | false =>
    rw [extendWord, trunc, zext64, BitVec.setWidth_setWidth_of_le v h, BitVec.setWidth_eq]
  | true =>
    refine BitVec.eq_of_getLsbD_eq fun i hi => ?_
    rw [extendWord, trunc, sext64, BitVec.getLsbD_setWidth, BitVec.getLsbD_signExtend, if_pos hi, decide_eq_true hi,
      decide_eq_true (hi.trans_le h), Bool.true_and, Bool.true_and]

/-- The extension of an `n`-byte pattern as arithmetic on its number. -/
theorem extendWord_ofNat {n v : Nat} (hn : 0 < n) (hv : v < 2 ^ (8 * n)) (signed : Bool) :
    extendWord signed (BitVec.ofNat (8 * n) v) = extended n signed v := by
  have hnum : (BitVec.ofNat (8 * n) v).toNat = v := Nat.mod_eq_of_lt hv
  cases signed with
  | false =>
    rw [extendWord, zext64_eq, hnum]
    rfl
  | true =>
    have htop : 2 ^ (8 * n) = 2 * 2 ^ (8 * n - 1) := by
      rw [← Nat.pow_succ']
      congr 1
      omega
    rw [extendWord, sext64_eq, BitVec.toInt_eq_toNat_cond, hnum, extended]
    congr 1
    obtain hlo | hhi := Nat.lt_or_ge v (2 ^ (8 * n - 1))
    · rw [if_pos (by omega), if_neg fun h => Nat.not_le.mpr hlo h.2]
    · rw [if_neg (by omega), if_pos ⟨rfl, hhi⟩]
      push_cast
      rfl

/-! ### Big-endian forms -/

/-- `n` bytes hold `8 * n` bits. -/
theorem pow_256_eq (n : Nat) : 256 ^ n = 2 ^ (8 * n) := (pow_mul 2 8 n).symm

/-- The big-endian form of a number is a byte sequence exactly when the number ends in the sequence's number. -/
theorem bytesBE_eq_iff (v : Nat) (b : Bytes) : bytesBE b.length v = b ↔ v % 2 ^ (8 * b.length) = natBE b := by
  rw [← pow_256_eq, ← natBE_bytesBE]
  constructor
  · intro h
    rw [h]
  · intro h
    have hb := bytesBE_natBE (bytesBE b.length v)
    rwa [bytesBE_length, h, bytesBE_natBE, eq_comm] at hb

/-- The big-endian form of a decoded register is the bytes that were decoded. -/
theorem bytesBE_extended {b : Bytes} (h0 : 0 < b.length) (h8 : b.length ≤ 8) (signed : Bool) :
    bytesBE b.length (extended b.length signed (natBE b)).toNat = b := by
  have hlt : natBE b < 2 ^ (8 * b.length) := pow_256_eq b.length ▸ natBE_lt b
  rw [bytesBE_eq_iff, ← extendWord_ofNat h0 hlt, ← BitVec.toNat_ofNat, ← trunc_eq, trunc_extendWord (by omega)]
  exact Nat.mod_eq_of_lt hlt

/-! ### The commands of a fixed width -/

/-- A type of `n` bytes with its two commands (R205): at most a register wide, and each command the shared
operation of that width. -/
structure FixedWidth (enc dec : Reg → Instr) (n : Nat) (signed : Bool) : Prop where
  pos : 0 < n
  le : n ≤ 8
  exec_enc : ∀ (ra : Reg) (s : State), exec (enc ra) s = .next (s.perform (encFixed n ra s))
  exec_dec : ∀ (ra : Reg) (s : State), exec (dec ra) s = .next (s.perform (decFixed n (extendWord signed) ra s))

/-- The fixed-width types with their widths (R180, R185, R190, R195, R210). -/
def fixedWidthTypes : List ((Reg → Instr) × (Reg → Instr) × Nat × Bool) :=
  [(.encByte, .decByte, 1, true), (.encUbyte, .decUbyte, 1, false), (.encShort, .decShort, 2, true),
    (.encUshort, .decUshort, 2, false), (.encInt, .decInt, 4, true), (.encLong, .decLong, 8, true),
    (.encFloat, .decFloat, 4, false), (.encDouble, .decDouble, 8, false)]

/-- Each of the types is one: its commands are the shared operations, the two of 64 bits without an extension. -/
theorem fixedWidth_of_mem : ∀ p ∈ fixedWidthTypes, FixedWidth p.1 p.2.1 p.2.2.1 p.2.2.2 := by
  have hfull (signed : Bool) : @extendWord signed (8 * 8) = id := funext (extendWord_full signed)
  have hlong (ra : Reg) (s : State) :
      exec (.decLong ra) s = .next (s.perform (decFixed 8 (extendWord true) ra s)) := by rw [hfull]; rfl
  have hdouble (ra : Reg) (s : State) :
      exec (.decDouble ra) s = .next (s.perform (decFixed 8 (extendWord false) ra s)) := by rw [hfull]; rfl
  simp only [fixedWidthTypes, List.forall_mem_cons]
  refine ⟨?_, ?_, ?_, ?_, ?_, ⟨by decide, by decide, fun _ _ => rfl, hlong⟩, ?_,
    ⟨by decide, by decide, fun _ _ => rfl, hdouble⟩, List.forall_mem_nil _⟩
  all_goals exact ⟨by decide, by decide, fun _ _ => rfl, fun _ _ => rfl⟩

/-- PAY.LOAD in an open block (R301). -/
theorem exec_payLoad_ok {s : State} (hc : s.closed = false) : exec .payLoad s = .next s.loadPay.completeOk :=
  congrArg _ (perform_ok hc rfl)

/-- After PAY.LOAD all of BLD is at the cursor (R301). -/
theorem payPeek_loadPay (s : State) : payPeek s.bld.length s.loadPay.completeOk = .ok s.bld :=
  payPeek_eq_ok.2 (by simp)

namespace FixedWidth

variable {enc dec : Reg → Instr} {n : Nat} {signed : Bool}

/-- An ENC of a fixed width with room in BLD. -/
theorem exec_enc_ok (hf : FixedWidth enc dec n signed) {s : State} (hc : s.closed = false)
    (h : s.bld.length + n ≤ s.params.bldCap) (ra : Reg) :
    exec (enc ra) s = .next (s.appendBld (bytesBE n (s.reg ra).toNat)).completeOk := by
  have hroom : s.bld.length + (bytesBE n (s.reg ra).toNat).length ≤ s.params.bldCap := by rwa [bytesBE_length]
  rw [hf.exec_enc, encFixed, beBytes_eq, perform_ok hc (bldAppend_ok hroom)]

/-- A DEC of a fixed width with its bytes at the cursor. -/
theorem exec_dec_ok (hf : FixedWidth enc dec n signed) {s : State} (hc : s.closed = false) {b : Bytes}
    (h : payPeek n s = .ok b) (ra : Reg) :
    exec (dec ra) s = .next ((s.setReg ra (extended n signed (natBE b))).advance n).completeOk := by
  obtain rfl : b.length = n := payPeek_length h
  have hb : fromBE (8 * b.length) b = BitVec.ofNat _ (natBE b) := fromBE_eq _ b le_rfl
  rw [hf.exec_dec, ← extendWord_ofNat hf.pos (pow_256_eq b.length ▸ natBE_lt b), ← hb]
  exact congrArg _ (perform_ok hc (by rw [decFixed, h]; rfl))

/-- From register to register: the low bits, extended (R206). -/
theorem enc_load_dec (hf : FixedWidth enc dec n signed) {s : State} (hc : s.closed = false) (hbld : s.bld = [])
    (h : n ≤ s.params.bldCap) (ra rd : Reg) :
    ∃ t u v : State, exec (enc ra) s = .next t ∧ exec .payLoad t = .next u ∧ exec (dec rd) u = .next v ∧
      v.err = 0 ∧ v.x[rd] = extended n signed (s.x[ra].toNat % 2 ^ (8 * n)) := by
  have hroom : s.bld.length + n ≤ s.params.bldCap := by simpa [hbld] using h
  let t : State := (s.appendBld (bytesBE n (s.reg ra).toNat)).completeOk
  have hbytes : t.bld = bytesBE n (s.reg ra).toNat := by simp [t, hbld]
  have hpeek : payPeek n t.loadPay.completeOk = .ok (bytesBE n (s.reg ra).toNat) := by
    simpa only [hbytes, bytesBE_length] using payPeek_loadPay t
  refine ⟨t, _, _, hf.exec_enc_ok hc hroom ra, exec_payLoad_ok (s := t) hc,
    hf.exec_dec_ok (s := t.loadPay.completeOk) hc hpeek rd, rfl, ?_⟩
  rw [natBE_bytesBE, pow_256_eq]
  exact reg_setReg_self t.loadPay.completeOk rd _

/-- From bytes to bytes: those that were decoded (R206). -/
theorem dec_enc (hf : FixedWidth enc dec n signed) {s : State} (hc : s.closed = false)
    (hpay : s.rpos + n ≤ s.pay.length) (hroom : s.bld.length + n ≤ s.params.bldCap) (rd : Reg) :
    ∃ t u : State, exec (dec rd) s = .next t ∧ exec (enc rd) t = .next u ∧ u.err = 0 ∧
      u.bld = s.bld ++ (s.pay.drop s.rpos).take n := by
  obtain ⟨b, hpeek⟩ : ∃ b, payPeek n s = .ok b := ⟨_, payPeek_ok hpay⟩
  obtain ⟨-, hb⟩ := payPeek_eq_ok.1 hpeek
  obtain rfl : b.length = n := payPeek_length hpeek
  let t : State := ((s.setReg rd (extended b.length signed (natBE b))).advance b.length).completeOk
  have hreg : t.reg rd = extended b.length signed (natBE b) := reg_setReg_self s rd _
  refine ⟨t, _, hf.exec_dec_ok hc hpeek rd, hf.exec_enc_ok (s := t) hc hroom rd, rfl, ?_⟩
  rw [hreg, bytesBE_extended hf.pos hf.le, ← hb]
  rfl

end FixedWidth

/-- Settles O44, by the two round trips of a type of a fixed width. -/
theorem fixedWidthRoundTrip : Obligations.FixedWidthRoundTrip := by
  intro p hp ra rd s hc
  have hf : FixedWidth p.1 p.2.1 p.2.2.1 p.2.2.2 := fixedWidth_of_mem p hp
  exact ⟨fun hbld h => hf.enc_load_dec hc hbld h ra rd, fun hpay hroom => hf.dec_enc hc hpay hroom rd⟩

/-! ### ENC.BOOL and DEC.BOOL -/

/-- ENC.BOOL is `BldAppend` of one byte (R201). -/
theorem exec_encBool (ra : Reg) (s : State) :
    exec (.encBool ra) s = .next (s.perform (bldAppend [if s.x[ra].toNat = 0 then 0x00 else 0x01] s)) := by
  have hzero : s.x[ra].toNat = 0 ↔ s.reg ra = 0 := BitVec.toNat_inj (y := 0)
  simp only [hzero]
  rfl

/-- A boolean byte is 0 or 1 and stands for that number (R202). -/
theorem boolValue_of_le {b : Byte} (h : b.toNat ≤ 1) : boolValue b = .ok (BitVec.ofNat 64 b.toNat) := by
  obtain h0 | h1 : b.toNat = 0 ∨ b.toNat = 1 := by omega
  · obtain rfl : b = 0x00 := BitVec.eq_of_toNat_eq h0
    rfl
  · obtain rfl : b = 0x01 := BitVec.eq_of_toNat_eq h1
    rfl

/-- Any other byte is none and is recorded (R202). -/
theorem boolValue_of_lt {b : Byte} (h : 1 < b.toNat) :
    boolValue b = .error ⟨.badBoolean, BitVec.ofNat 32 b.toNat⟩ := by
  have h0 : b ≠ 0x00 := by rintro rfl; exact absurd h (by decide)
  have h1 : b ≠ 0x01 := by rintro rfl; exact absurd h (by decide)
  rw [boolValue, if_neg h0, if_neg h1, ← trunc_eq, trunc]

/-- One byte is its own big-endian value. -/
theorem fromBE_singleton (b : Byte) : fromBE 8 [b] = b := by
  simp [fromBE]

/-- `PayPeek` of one byte is the byte at the cursor. -/
theorem payPeek_one {s : State} (h : s.rpos < s.pay.length) : payPeek 1 s = .ok [s.pay[s.rpos]] := by
  rw [payPeek_ok h, List.take_one_drop_eq_of_lt_length h, List.get_eq_getElem]

/-- DEC.BOOL with no byte at the cursor. -/
theorem exec_decBool_short {s : State} (hc : s.closed = false) (ra : Reg) (h : s.pay.length ≤ s.rpos) :
    exec (.decBool ra) s =
      .next (s.completeErr ⟨.insufficientBytes, BitVec.ofNat 32 (s.pay.length - s.rpos)⟩) :=
  congrArg _ (perform_error hc (by rw [payPeek_error (Nat.lt_succ_of_le h)]; rfl))

/-- DEC.BOOL with a byte at the cursor is the test of that byte (R202). -/
theorem exec_decBool {s : State} (ra : Reg) (h : s.rpos < s.pay.length) :
    exec (.decBool ra) s =
      .next (s.perform ((boolValue s.pay[s.rpos]).map fun v => (s.setReg ra v).advance 1)) := by
  rw [exec, execDecBool, payPeek_one h]
  change Host.Outcome.next (s.perform (boolValue (fromBE 8 [s.pay[s.rpos]]) >>= _)) = _
  rw [fromBE_singleton]
  rfl

/-- Settles O45, by the results of `BldAppend`, of `PayPeek` and of the test for a boolean byte. -/
theorem booleansAreZeroOrOne : Obligations.BooleansAreZeroOrOne := by
  refine ⟨fun ra s hc => ⟨mkWord_register 0x2C ra, fun h => ?_, fun h => ?_⟩,
    fun ra s hc => ⟨mkWord_register 0x2D ra, exec_decBool_short hc ra, fun h => ⟨fun hb => ?_, fun hb => ?_⟩⟩⟩
  · rw [exec_encBool]
    exact congrArg _ (perform_ok hc (bldAppend_ok (Nat.succ_le_of_lt h)))
  · rw [exec_encBool]
    exact congrArg _ (perform_error hc (bldAppend_error (Nat.lt_succ_of_le h)))
  · rw [exec_decBool ra h, boolValue_of_le hb]
    exact congrArg _ (perform_ok hc rfl)
  · rw [exec_decBool ra h, boolValue_of_lt hb]
    exact congrArg _ (perform_error hc rfl)

end Sys2Proof.Machine
end

section
/-! PROOFS. Strings and raw bytes between SCR, BLD and PAY (`43_string_uuid_raw.md` sections 1 and 2). -/

namespace Sys2Proof.Machine

/-! ### ENC.STRING and ENC.RAW -/

/-- A byte count below `2^31` (R221). -/
theorem byteCount_ok {n : W64} (h : n.toNat < 2 ^ 31) : byteCount n = .ok n.toNat := if_pos h

/-- A byte count no command takes (R221). -/
theorem byteCount_error {n : W64} (h : 2 ^ 31 ≤ n.toNat) :
    byteCount n = .error ⟨.badOperand, BitVec.ofNat 32 n.toNat⟩ := by
  rw [byteCount, if_neg (Nat.not_lt.2 h), trunc_eq]

/-- The shared rule of ENC.STRING and ENC.RAW: what `pre` makes of the count, then the bytes of SCR (R221, R224). -/
def encScr (pre : Nat → Bytes) (ra rb : Reg) (s : State) : Effect := do
  let n ← byteCount (s.reg ra)
  let b ← memRead (s.reg rb) n s
  bldAppend (pre n ++ b) s

/-- ENC.STRING puts the VarInt of the count first (R221). -/
theorem exec_encString (ra rb : Reg) (s : State) :
    exec (.encString ra rb) s = .next (s.perform (encScr (fun n => encodeVarint (word32 n)) ra rb s)) := rfl

/-- ENC.RAW puts nothing first (R224). -/
theorem exec_encRaw (ra rb : Reg) (s : State) :
    exec (.encRaw ra rb) s = .next (s.perform (encScr (fun _ => []) ra rb s)) := rfl

section
variable {pre : Nat → Bytes} {ra rb : Reg} {s : State}

/-- A count no command takes is the first error. -/
theorem encScr_badOperand (h : 2 ^ 31 ≤ (s.reg ra).toNat) :
    encScr pre ra rb s = .error ⟨.badOperand, BitVec.ofNat 32 (s.reg ra).toNat⟩ := by
  rw [encScr, byteCount_error h]
  rfl

/-- An access outside SCR is the second. -/
theorem encScr_scrBounds (hn : (s.reg ra).toNat < 2 ^ 31)
    (h : s.params.scrSize < (s.reg rb).toNat + (s.reg ra).toNat) :
    encScr pre ra rb s = .error ⟨.scrBounds, BitVec.ofNat 32 (s.reg rb).toNat⟩ := by
  rw [encScr, byteCount_ok hn, ← trunc_eq]
  exact congrArg (· >>= fun b => bldAppend (pre (s.reg ra).toNat ++ b) s) (memRead_error h)

/-- With a count and an access that are legal, `BldAppend` of those bytes is left. -/
theorem encScr_append (hn : (s.reg ra).toNat < 2 ^ 31)
    (h : (s.reg rb).toNat + (s.reg ra).toNat ≤ s.params.scrSize) :
    encScr pre ra rb s = bldAppend (pre (s.reg ra).toNat ++
      (List.range (s.reg ra).toNat).map fun k => s.scrByte ((s.reg rb).toNat + k)) s := by
  rw [encScr, byteCount_ok hn, ← scrBytes_eq_map]
  exact congrArg (· >>= fun b => bldAppend (pre (s.reg ra).toNat ++ b) s) (memRead_ok h)

end

/-- Settles O46, by the shared rule of the two commands: its errors in order, then what `BldAppend` can do. -/
theorem stringAndRawEncodesReadScr : Obligations.StringAndRawEncodesReadScr := by
  intro ra rb s hc n a text
  refine ⟨mkWord_registers 0x40 (by decide) ra rb, mkWord_registers 0x44 (by decide) ra rb, fun p hp => ?_⟩
  obtain ⟨pre, hexec, hbytes⟩ : ∃ pre : Nat → Bytes,
      exec p.1 s = .next (s.perform (encScr pre ra rb s)) ∧ p.2 = pre n ++ text := by
    obtain rfl | rfl := by simpa using hp
    · exact ⟨_, exec_encString ra rb s, rfl⟩
    · exact ⟨_, exec_encRaw ra rb s, rfl⟩
  rw [hexec, hbytes]
  refine ⟨fun h => ?_, fun hn h => ?_, fun hn ha h => ?_, fun hn ha h => ?_⟩
  · exact congrArg _ (perform_error hc (encScr_badOperand h))
  · exact congrArg _ (perform_error hc (encScr_scrBounds hn h))
  · exact congrArg _ (perform_error hc ((encScr_append hn ha).trans (bldAppend_error h)))
  · exact congrArg _ (perform_ok hc ((encScr_append hn ha).trans (bldAppend_ok h)))

/-! ### DEC.STRING and DEC.RAW -/

/-- The shared end of DEC.STRING and DEC.RAW: of the `m` bytes at the cursor all but the first `k` go to SCR, then `f`
is written (R223, R225). -/
def payToScr (a : W64) (k m : Nat) (f : State → State) (s : State) : Effect := do
  let b ← payPeek m s
  let t ← memWrite a (b.drop k) s
  .ok (f t)

section
variable {a : W64} {k n : Nat} {f : State → State} {s : State}

/-- Too few bytes in PAY is the first error. -/
theorem payToScr_short (h : s.pay.length < s.rpos + (k + n)) :
    payToScr a k (k + n) f s = .error ⟨.insufficientBytes, word32 (s.pay.length - s.rpos)⟩ := by
  rw [payToScr, payPeek_error h]
  rfl

/-- With enough bytes there, the write to SCR is left. -/
theorem payToScr_eq (h : s.rpos + (k + n) ≤ s.pay.length) :
    payToScr a k (k + n) f s =
      memWrite a ((s.pay.drop (s.rpos + k)).take n) s >>= fun t => .ok (f t) := by
  rw [payToScr, payPeek_ok h]
  change memWrite a (((s.pay.drop s.rpos).take (k + n)).drop k) s >>= _ = _
  rw [List.drop_take, List.drop_drop, Nat.add_sub_cancel_left]

/-- The bytes that go to SCR are as many as were asked for. -/
theorem length_payBytes {p : Nat} (h : p + n ≤ s.pay.length) : ((s.pay.drop p).take n).length = n := by
  rw [List.length_take, List.length_drop]
  omega

/-- An access outside SCR is the second error. -/
theorem payToScr_scrBounds (h : s.rpos + (k + n) ≤ s.pay.length) (ha : s.params.scrSize < a.toNat + n) :
    payToScr a k (k + n) f s = .error ⟨.scrBounds, BitVec.ofNat 32 a.toNat⟩ := by
  have hlen := length_payBytes (p := s.rpos + k) (by omega : _ + n ≤ s.pay.length)
  rw [payToScr_eq h, memWrite_error (by rwa [hlen]), trunc_eq]
  rfl

/-- SCR with `n` bytes of PAY from position `p` on written at an offset. -/
def State.copyPay (s : State) (a p n : Nat) : State :=
  s.setScr (Memory.insertAll s.scr a ((s.pay.drop p).take n))

/-- What the shared end writes. -/
theorem payToScr_ok (h : s.rpos + (k + n) ≤ s.pay.length) (ha : a.toNat + n ≤ s.params.scrSize) :
    payToScr a k (k + n) f s = .ok (f (s.copyPay a.toNat (s.rpos + k) n)) := by
  have hlen := length_payBytes (p := s.rpos + k) (by omega : _ + n ≤ s.pay.length)
  rw [payToScr_eq h, memWrite_ok (by rwa [hlen])]
  rfl

/-- Every byte of SCR after such a write. -/
theorem scrByte_copyPay {a p : Nat} (h : p + n ≤ s.pay.length) (c : Nat) :
    (s.copyPay a p n).scrByte c = if a ≤ c ∧ c < a + n then s.pay.getD (p + (c - a)) 0 else s.scrByte c := by
  rw [State.copyPay, scrByte_setScr_insertAll, length_payBytes h]
  split_ifs with hc
  · rw [List.getD_eq_getElem?_getD, List.getElem?_take_of_lt (by omega), List.getElem?_drop,
      List.getD_eq_getElem?_getD]
  · rfl

end

/-- DEC.STRING without a count (R223). -/
theorem exec_decString_error {s : State} (hc : s.closed = false) (ra rb : Reg) {e : Raise}
    (h : takeVarint s.payRest = .error e) : exec (.decString ra rb) s = .next (s.completeErr e) :=
  congrArg _ (perform_error hc (by rw [h]; rfl))

/-- DEC.STRING with a negative count (R223). -/
theorem exec_decString_negative {s : State} (hc : s.closed = false) (ra rb : Reg) {v : W32} {k : Nat}
    (h : decodeVarint s.payRest = .value v k) (hv : v.toInt < 0) :
    exec (.decString ra rb) s = .next (s.completeErr ⟨.negativeLength, v⟩) := by
  have hcount : stringCount v = .error ⟨.negativeLength, v⟩ := if_pos hv
  refine congrArg _ (perform_error hc ?_)
  rw [takeVarint_of_value h]
  change stringCount v >>= _ = _
  rw [hcount]
  rfl

/-- DEC.STRING with a count copies the bytes behind it to SCR, then writes the count (R223). -/
theorem exec_decString_count {s : State} (ra rb : Reg) {v : W32} {k : Nat}
    (h : decodeVarint s.payRest = .value v k) (hv : 0 ≤ v.toInt) :
    exec (.decString ra rb) s = .next (s.perform (payToScr (s.reg rb) k (k + v.toNat)
      (fun t => (t.setReg ra (BitVec.ofNat 64 v.toNat)).advance (k + v.toNat)) s)) := by
  have hcount : stringCount v = .ok v.toNat := if_neg (Int.not_lt.2 hv)
  have hword : zext64 (word32 v.toNat) = BitVec.ofNat 64 v.toNat := by
    rw [word32, BitVec.ofNat_toNat, BitVec.setWidth_eq, zext64_eq]
  rw [exec, execDecString, takeVarint_of_value h, ← hword]
  change Host.Outcome.next (s.perform (stringCount v >>= _)) = _
  rw [hcount]
  rfl

/-- Settles O47, by the results of `decode_varint`, the test of the count, and the shared end of the two commands. -/
theorem decStringWritesScr : Obligations.DecStringWritesScr := by
  intro ra rb s hc rest a
  refine ⟨mkWord_registers 0x41 (by decide) ra rb, fun h => ?_, fun h => ?_,
    fun v k h => ⟨exec_decString_negative hc ra rb h, fun hv hp => ?_, fun hv hp ha => ?_, fun hv hp ha => ?_⟩⟩
  · rw [exec_decString_error hc ra rb (takeVarint_of_insufficient h), payRest_length]
    rfl
  · exact exec_decString_error hc ra rb (takeVarint_of_tooLarge h)
  · rw [exec_decString_count ra rb h hv]
    exact congrArg _ (perform_error hc (payToScr_short (by omega)))
  · rw [exec_decString_count ra rb h hv]
    exact congrArg _ (perform_error hc (payToScr_scrBounds (by omega) ha))
  · rw [exec_decString_count ra rb h hv]
    exact ⟨_, congrArg _ (perform_ok hc (payToScr_ok (by omega) ha)), rfl, scrByte_copyPay hp⟩

/-- DEC.RAW with a count that no command takes (R225). -/
theorem exec_decRaw_badOperand {s : State} (hc : s.closed = false) (ra rb : Reg) (h : 2 ^ 31 ≤ (s.reg ra).toNat) :
    exec (.decRaw ra rb) s = .next (s.completeErr ⟨.badOperand, BitVec.ofNat 32 (s.reg ra).toNat⟩) :=
  congrArg _ (perform_error hc (by rw [byteCount_error h]; rfl))

/-- DEC.RAW with a count copies bytes to SCR (R225). -/
theorem exec_decRaw_count {s : State} (ra rb : Reg) (h : s.x[ra].toNat < 2 ^ 31) :
    exec (.decRaw ra rb) s = .next (s.perform (payToScr s.x[rb] 0 (0 + s.x[ra].toNat)
      (fun t => t.advance s.x[ra].toNat) s)) := by
  have hcount : byteCount (s.reg ra) = .ok s.x[ra].toNat := byteCount_ok h
  rw [exec, execDecRaw, hcount, Nat.zero_add]
  rfl

/-- Settles O48, by the test of the count and the shared end of the two commands. -/
theorem decRawWritesScr : Obligations.DecRawWritesScr := by
  intro ra rb s hc n a
  refine ⟨mkWord_registers 0x45 (by decide) ra rb, exec_decRaw_badOperand hc ra rb, fun hn hp => ?_,
    fun hn hp ha => ?_, fun hn hp ha => ?_⟩
  · rw [exec_decRaw_count ra rb hn]
    exact congrArg _ (perform_error hc (payToScr_short (by omega)))
  · rw [exec_decRaw_count ra rb hn]
    exact congrArg _ (perform_error hc (payToScr_scrBounds (by omega) ha))
  · rw [exec_decRaw_count ra rb hn]
    exact ⟨_, congrArg _ (perform_ok hc (payToScr_ok (by omega) ha)), rfl, scrByte_copyPay hp⟩

/-! ### There and back -/

/-- Settles O49: ENC.STRING leaves the count and the bytes in BLD (O46), PAY.LOAD puts them at the cursor, and
DEC.STRING reads the count back (O40) and copies the bytes behind it (O47). -/
theorem stringRoundTrip : Obligations.StringRoundTrip := by
  intro ra rb rc rd s hc hbld hv n a b ha hb hroom
  obtain ⟨-, -, -, -, -, -, hscr, -⟩ := hv
  let w : Bytes := encodeVarint (BitVec.ofNat 32 n)
  let text : Bytes := (List.range n).map fun k => s.scrByte (a + k)
  have hlen : (w ++ text).length = w.length + n := by simp [text]
  -- ENC.STRING
  obtain ⟨-, -, henc⟩ := stringAndRawEncodesReadScr ra rb s hc
  obtain ⟨-, -, -, hok⟩ := henc (.encString ra rb, w ++ text) List.mem_cons_self
  let t : State := (s.appendBld (w ++ text)).completeOk
  have ht : exec (.encString ra rb) s = .next t :=
    hok (by omega) ha (by rw [hbld, hlen, List.length_nil, Nat.zero_add]; exact hroom)
  -- PAY.LOAD
  let u : State := t.loadPay.completeOk
  have hu : exec .payLoad t = .next u := exec_payLoad_ok hc
  have hpay : u.pay = w ++ text := by simp [u, t, hbld]
  have hpos : u.rpos = 0 := rfl
  have hvarint : decodeVarint (u.pay.drop u.rpos) = .value (BitVec.ofNat 32 n) w.length := by
    rw [hpay]
    exact varIntRoundTrip.1 _ text
  have hnum : (BitVec.ofNat 32 n).toNat = n := Nat.mod_eq_of_lt (by omega)
  have hnonneg : 0 ≤ (BitVec.ofNat 32 n).toInt := by rw [BitVec.toInt_eq_toNat_cond, hnum]; omega
  have hend : u.rpos + w.length + n = u.pay.length := by rw [hpay, hlen, hpos, Nat.zero_add]
  -- DEC.STRING
  obtain ⟨-, -, -, hdec⟩ := decStringWritesScr rc rd u hc
  obtain ⟨-, -, -, hcopy⟩ := hdec _ _ hvarint
  rw [hnum] at hcopy
  obtain ⟨v, hv, hframe, hbytes⟩ := hcopy hnonneg hend.le hb
  refine ⟨t, u, v.completeOk, ht, hu, hv, rfl, ?_, ?_, fun k hk => ?_, fun c hout => ?_⟩
  · have hx : v.x = u.x.set rc.val (BitVec.ofNat 64 n) rc.isLt := congrArg State.x hframe
    have hcount : v.x[rc] = BitVec.ofNat 64 n := by simp [hx]
    rw [State.completeOk_x, hcount]
    exact Nat.mod_eq_of_lt (by omega)
  · have hrpos : v.rpos = u.rpos + (w.length + n) := congrArg State.rpos hframe
    have hkeep : v.pay = u.pay := by rw [hframe]
    rw [State.completeOk_rpos, State.completeOk_pay, hrpos, hkeep, ← hend, Nat.add_assoc]
  · have hk' : k < text.length := by simpa [text] using hk
    calc v.scrByte (b + k) = u.pay.getD (u.rpos + w.length + (b + k - b)) 0 :=
          (hbytes (b + k)).trans (if_pos ⟨Nat.le_add_right b k, Nat.add_lt_add_left hk b⟩)
      _ = text.getD k 0 := by
          rw [hpay, hpos, Nat.zero_add, Nat.add_sub_cancel_left, List.getD_append_right _ _ _ _ (by omega),
            Nat.add_sub_cancel_left]
      _ = s.scrByte (a + k) := by simp [text, hk]
  · exact (hbytes c).trans (if_neg hout)

end Sys2Proof.Machine
end

section
/-! PROOFS. The 128-bit identifier on the wire and as text (`43_string_uuid_raw.md` section 3). -/

namespace Sys2Proof.Machine

/-! ### The wire form -/

/-- The wire form has 16 bytes (R226). -/
theorem uuidBytes_length (hi lo : W64) : (uuidBytes hi lo).length = 16 := by simp [uuidBytes]

/-- DEC.UUID with 16 bytes at the cursor (R228). -/
theorem exec_decUuid_ok {s : State} (hc : s.closed = false) (ra : Reg) (h : s.rpos + 16 ≤ s.pay.length) :
    exec (.decUuid ra) s = .next (((s.setReg ra (BitVec.ofNat 64 (natBE ((s.pay.drop s.rpos).take 8)))).setReg
      (pairLow ra) (BitVec.ofNat 64 (natLE ((s.pay.drop (s.rpos + 8)).take 8)))).advance 16).completeOk := by
  have hhi := fromBE_eq 64 ((s.pay.drop s.rpos).take 8) (by rw [List.length_take]; omega)
  have hlo := fromLE_eq 64 ((s.pay.drop (s.rpos + 8)).take 8) (by rw [List.length_take]; omega)
  refine congrArg _ (perform_ok hc ?_)
  rw [payPeek_ok h, ← hhi, ← hlo, ← List.drop_drop]
  change Except.ok _ = _
  rw [List.take_take, List.drop_take]
  rfl

/-- DEC.UUID with fewer (R228). -/
theorem exec_decUuid_short {s : State} (hc : s.closed = false) (ra : Reg) (h : s.pay.length < s.rpos + 16) :
    exec (.decUuid ra) s =
      .next (s.completeErr ⟨.insufficientBytes, BitVec.ofNat 32 (s.pay.length - s.rpos)⟩) :=
  congrArg _ (perform_error hc (by rw [payPeek_error h]; rfl))

/-- ENC.UUID is `BldAppend` of the wire form (R227). -/
theorem exec_encUuid (ra : Reg) (s : State) :
    exec (.encUuid ra) s = .next (s.perform (bldAppend (uuidBytes (s.reg ra) (s.reg (pairLow ra))) s)) := rfl

/-- Settles O50, by the byte orders as numbers and the results of `BldAppend` and `PayPeek`. -/
theorem uuidWireOrderIsMixed : Obligations.UuidWireOrderIsMixed := by
  intro ra s h _ hc
  have hwire : uuidBytes (s.reg ra) (s.reg (pairLow ra)) =
      bytesBE 8 s.x[ra].toNat ++ bytesLE 8 s.x[ra.val + 1].toNat := by
    rw [uuidBytes, beBytes_eq, leBytes_eq, pairLow_eq ra h]
    rfl
  refine ⟨mkWord_register 0x42 ra, mkWord_register 0x43 ra, fun hroom => ?_, fun hroom => ?_, fun hpay => ?_,
    exec_decUuid_short hc ra⟩
  · rw [exec_encUuid, perform_ok hc (bldAppend_ok (by rwa [uuidBytes_length])), hwire]
    rfl
  · rw [exec_encUuid, perform_error hc (bldAppend_error (by rwa [uuidBytes_length])), uuidBytes_length]
    rfl
  · rw [exec_decUuid_ok hc ra hpay, pairLow_eq ra h]
    rfl

/-! ### The text -/

/-- A digit's character as the canonical text has it (R229). -/
theorem hexChar_trunc {w : Nat} (v : BitVec w) :
    hexChar (trunc 4 v) =
      BitVec.ofNat 8 (if v.toNat % 16 < 10 then 0x30 + v.toNat % 16 else 0x61 + (v.toNat % 16 - 10)) := by
  have key : ∀ d : BitVec 4,
      hexChar d = BitVec.ofNat 8 (if d.toNat < 10 then 0x30 + d.toNat else 0x61 + (d.toNat - 10)) := by decide
  have hd : (trunc 4 v).toNat = v.toNat % 16 := by rw [trunc_eq, BitVec.toNat_ofNat]
  rw [key, hd]

/-- Numbers with the same `n` low hexadecimal digits have the same digit at each of those places. -/
theorem hexDigit_eq_of_mod_eq {x y n k : Nat} (h : x % 16 ^ n = y % 16 ^ n) (hk : k < n) :
    x / 16 ^ k % 16 = y / 16 ^ k % 16 := by
  have hdvd : 16 ^ (k + 1) ∣ 16 ^ n := pow_dvd_pow 16 hk
  have key (z : Nat) : z / 16 ^ k % 16 = z % 16 ^ n % 16 ^ (k + 1) / 16 ^ k := by
    rw [Nat.mod_mod_of_dvd _ hdvd, pow_succ, Nat.mod_mul_right_div_self]
  rw [key, key, h]

/-- A group of `n` digits at character positions `i` on: it is the part of the canonical text there, when its value
has the digits of the identifier that stand `j` digits from the end. -/
theorem hexText_eq_map_textChar {w n i j v : Nat} {g : BitVec w}
    (hpos : ∀ c, i ≤ c → c < i + n → c ∉ hyphenPositions ∧ 31 - digitIndex c = j + (i + n - 1 - c))
    (hval : g.toNat % 16 ^ n = v / 16 ^ j % 16 ^ n) :
    hexText n g = (List.range' i n).map (textChar v) := by
  induction n generalizing i with
  | zero => rfl
  | succ n ih =>
    obtain ⟨hi, hidx⟩ := hpos i le_rfl (by omega)
    have hplace : j + (i + (n + 1) - 1 - i) = j + n := by omega
    have hrest : g.toNat % 16 ^ n = v / 16 ^ j % 16 ^ n := by
      have hdvd : 16 ^ n ∣ 16 ^ (n + 1) := pow_dvd_pow 16 n.le_succ
      rw [← Nat.mod_mod_of_dvd g.toNat hdvd, hval, Nat.mod_mod_of_dvd _ hdvd]
    have hhead : hexChar (trunc 4 (g >>> (4 * n))) = textChar v i := by
      rw [textChar, if_neg hi, hexChar_trunc, hidx, hplace, BitVec.toNat_ushiftRight, Nat.shiftRight_eq_div_pow,
        pow_mul, pow_add, ← Nat.div_div_eq_div_mul, ← hexDigit_eq_of_mod_eq hval n.lt_succ_self]
      rfl
    have htail : hexText n g = (List.range' (i + 1) n).map (textChar v) :=
      ih (fun c hlo hhi => by
        obtain ⟨hc, hcidx⟩ := hpos c (by omega) (by omega)
        exact ⟨hc, by omega⟩) hrest
    rw [List.range'_succ, List.map_cons, ← hhead, ← htail]
    rfl

/-- The canonical text, character by character (R229): each of its five groups is a part of the list of characters. -/
theorem uuidText_eq (hi lo : W64) :
    uuidText hi lo = (List.range 36).map (textChar (hi.toNat * 2 ^ 64 + lo.toNat)) := by
  have hlo := lo.isLt
  have hpart (x : W64) (k : Nat) : (x >>> k).toNat = x.toNat / 2 ^ k := by
    rw [BitVec.toNat_ushiftRight, Nat.shiftRight_eq_div_pow]
  have hsplit : List.range 36 = List.range' 0 8 ++ [8] ++ List.range' 9 4 ++ [13] ++ List.range' 14 4 ++ [18] ++
      List.range' 19 4 ++ [23] ++ List.range' 24 12 := by decide
  rw [hsplit]
  simp only [List.map_append, List.map_cons, List.map_nil]
  rw [← hexText_eq_map_textChar (g := hi >>> 32) (j := 24) (by decide) (by rw [hpart]; omega),
    ← hexText_eq_map_textChar (g := hi >>> 16) (j := 20) (by decide) (by rw [hpart]; omega),
    ← hexText_eq_map_textChar (g := hi) (j := 16) (by decide) (by omega),
    ← hexText_eq_map_textChar (g := lo >>> 48) (j := 12) (by decide) (by rw [hpart]; omega),
    ← hexText_eq_map_textChar (g := lo) (j := 0) (by decide) (by omega)]
  rfl

/-- UUID.FMT is the write of the canonical text (R230). -/
theorem exec_uuidFmt (ra rb : Reg) (s : State) :
    exec (.uuidFmt ra rb) s =
      .next (s.perform (memWrite (s.reg rb) (uuidText (s.reg ra) (s.reg (pairLow ra))) s)) := rfl

/-- A write to SCR writes nothing else. -/
theorem setScr_frame (s : State) (m : Mem) : s.setScr m = { s with scr := (s.setScr m).scr } := rfl

/-- Settles O51, by the characters of the canonical text and the results of the write. -/
theorem uuidFmtWritesTheText : Obligations.UuidFmtWritesTheText := by
  intro ra rb s h _ hc v a
  have htext : uuidText (s.reg ra) (s.reg (pairLow ra)) = (List.range 36).map (textChar v) := by
    rw [uuidText_eq, pairLow_eq ra h]
    rfl
  have hlen : ((List.range 36).map (textChar v)).length = 36 := by rw [List.length_map, List.length_range]
  rw [exec_uuidFmt, htext]
  refine ⟨mkWord_registers 0x46 (by decide) ra rb, fun ha => ?_, fun ha => ?_⟩
  · rw [perform_error hc (memWrite_error (by rwa [hlen])), trunc_eq]
    rfl
  · have hbound : (s.reg rb).toNat + ((List.range 36).map (textChar v)).length ≤ s.params.scrSize := hlen.symm ▸ ha
    refine ⟨_, congrArg _ (perform_ok hc (memWrite_ok hbound)), setScr_frame _ _, fun c => ?_⟩
    rw [scrByte_setScr_insertAll, hlen]
    refine ite_congr rfl (fun hin => ?_) fun _ => rfl
    have hk : c - a < 36 := by omega
    rw [List.getD_eq_getElem _ _ (by rwa [hlen]), List.getElem_map, List.getElem_range]
    rfl

/-! ### Reading the text -/

/-- The model's test for a hyphen's place is membership in their list (R229). -/
theorem hyphenAt_iff (i : Nat) : hyphenAt i = true ↔ i ∈ hyphenPositions := by
  simp [hyphenAt, hyphenPositions, or_assoc]

/-- The value of a character as a number (R231). -/
theorem hexValue_eq (c : Byte) : hexValue c = (charDigit c.toNat).map (BitVec.ofNat 4) := by
  revert c
  decide

/-- A character that may not stand where it does ends the reading (R231). -/
theorem scanUuid_of_not_charOk {i : Nat} {c : Byte} (h : ¬ CharOk i c) (s : Bytes) :
    scanUuid i (c :: s) = .error i := by
  unfold CharOk at h
  rw [scanUuid]
  split_ifs at h with hi
  · rw [if_pos ((hyphenAt_iff i).mpr hi)]
    exact if_neg h
  · rw [if_neg (mt (hyphenAt_iff i).mp hi), hexValue_eq, Option.not_isSome_iff_eq_none.mp h]
    rfl

/-- A hyphen in its place is passed over (R231). -/
theorem scanUuid_hyphen {i : Nat} {c : Byte} (hi : i ∈ hyphenPositions) (h : CharOk i c) (s : Bytes) :
    scanUuid i (c :: s) = scanUuid (i + 1) s := by
  rw [CharOk, if_pos hi] at h
  rw [scanUuid, if_pos ((hyphenAt_iff i).mpr hi)]
  exact if_pos h

/-- The digit that a character stands for, 0 when it stands for none. -/
def digitOf (c : Byte) : BitVec 4 := BitVec.ofNat 4 ((charDigit c.toNat).getD 0)

theorem digitOf_toNat (c : Byte) : (digitOf c).toNat = (charDigit c.toNat).getD 0 := by
  revert c
  decide

/-- A digit in its place is read (R231). -/
theorem scanUuid_digit {i : Nat} {c : Byte} (hi : i ∉ hyphenPositions) (h : CharOk i c) (s : Bytes) :
    scanUuid i (c :: s) = (scanUuid (i + 1) s).map (digitOf c :: ·) := by
  rw [CharOk, if_neg hi] at h
  obtain ⟨d, hd⟩ := Option.isSome_iff_exists.mp h
  rw [scanUuid, if_neg (mt (hyphenAt_iff i).mp hi), hexValue_eq, digitOf, hd]
  rfl

/-- The digits of a text of `n` characters from position `i` on: those of the characters that are no hyphens. -/
def textDigits (text : Nat → Byte) (n i : Nat) : List (BitVec 4) :=
  ((List.range' i n).filter (· ∉ hyphenPositions)).map fun k => digitOf (text k)

section
variable {text : Nat → Byte} {n i : Nat}

theorem textDigits_hyphen (hi : i ∈ hyphenPositions) : textDigits text (n + 1) i = textDigits text n (i + 1) := by
  simp [textDigits, List.range'_succ, hi]

theorem textDigits_digit (hi : i ∉ hyphenPositions) :
    textDigits text (n + 1) i = digitOf (text i) :: textDigits text n (i + 1) := by
  simp [textDigits, List.range'_succ, hi]

/-- A text whose characters may all stand where they do is read to its digits (R231). -/
theorem scanUuid_ok (h : ∀ k, i ≤ k → k < i + n → CharOk k (text k)) :
    scanUuid i ((List.range' i n).map text) = .ok (textDigits text n i) := by
  induction n generalizing i with
  | zero => rfl
  | succ n ih =>
    have hhead : CharOk i (text i) := h i le_rfl (by omega)
    have htail := ih (i := i + 1) fun k hlo hhi => h k (by omega) (by omega)
    rw [List.range'_succ, List.map_cons]
    by_cases hi : i ∈ hyphenPositions
    · rw [scanUuid_hyphen hi hhead, htail, textDigits_hyphen hi]
    · rw [scanUuid_digit hi hhead, htail, textDigits_digit hi]
      rfl

/-- The reading ends at the first character that may not stand where it does (R231). -/
theorem scanUuid_error {j : Nat} (hlo : i ≤ j) (hhi : j < i + n) (hbad : ¬ CharOk j (text j))
    (h : ∀ k, i ≤ k → k < j → CharOk k (text k)) : scanUuid i ((List.range' i n).map text) = .error j := by
  induction n generalizing i with
  | zero => omega
  | succ n ih =>
    rw [List.range'_succ, List.map_cons]
    obtain rfl | hlt := hlo.eq_or_lt
    · exact scanUuid_of_not_charOk hbad _
    · have hhead : CharOk i (text i) := h i le_rfl hlt
      have htail := ih (i := i + 1) hlt (by omega) fun k hlo => h k (by omega)
      by_cases hi : i ∈ hyphenPositions
      · rw [scanUuid_hyphen hi hhead, htail]
      · rw [scanUuid_digit hi hhead, htail]
        rfl

end

/-! ### The number of the digits -/

/-- The number of a sequence of hexadecimal digits behind an accumulator, the first the most significant. -/
def digitsNumber (acc : Nat) (d : List (BitVec 4)) : Nat := d.foldl (fun acc v => 16 * acc + v.toNat) acc

theorem digitsNumber_cons (acc : Nat) (v : BitVec 4) (d : List (BitVec 4)) :
    digitsNumber acc (v :: d) = digitsNumber (16 * acc + v.toNat) d := rfl

theorem digitsNumber_append (acc : Nat) (d e : List (BitVec 4)) :
    digitsNumber acc (d ++ e) = digitsNumber (digitsNumber acc d) e := List.foldl_append

/-- The accumulator stands above the digits. -/
theorem digitsNumber_acc (acc : Nat) (d : List (BitVec 4)) :
    digitsNumber acc d = acc * 16 ^ d.length + digitsNumber 0 d := by
  induction d generalizing acc with
  | nil => simp [digitsNumber]
  | cons v d ih =>
    rw [digitsNumber_cons, digitsNumber_cons, ih, ih (16 * 0 + v.toNat), List.length_cons]
    ring

/-- The number of `n` digits is below `16^n`. -/
theorem digitsNumber_lt (d : List (BitVec 4)) : digitsNumber 0 d < 16 ^ d.length := by
  induction d with
  | nil => exact Nat.one_pos
  | cons v d ih =>
    have hv : v.toNat + 1 ≤ 16 := v.isLt
    calc digitsNumber 0 (v :: d) = v.toNat * 16 ^ d.length + digitsNumber 0 d := by
          rw [digitsNumber_cons, digitsNumber_acc, Nat.mul_zero, Nat.zero_add]
      _ < (v.toNat + 1) * 16 ^ d.length := by rw [Nat.succ_mul]; omega
      _ ≤ 16 * 16 ^ d.length := Nat.mul_le_mul_right _ hv
      _ = 16 ^ (v :: d).length := by rw [List.length_cons, Nat.pow_succ']

/-- One digit more in a half of an identifier (R231). -/
theorem shiftLeft_or_digit (m : Nat) (v : BitVec 4) :
    BitVec.ofNat 64 m <<< 4 ||| v.setWidth 64 = BitVec.ofNat 64 (16 * m + v.toNat) := by
  have hv : v.toNat < 2 ^ 4 := v.isLt
  have hshift : (m % 2 ^ 64) <<< 4 % 2 ^ 64 = 2 ^ 4 * (m % 2 ^ 60) := by rw [Nat.shiftLeft_eq]; omega
  apply BitVec.eq_of_toNat_eq
  rw [BitVec.toNat_or, BitVec.toNat_shiftLeft, BitVec.toNat_ofNat, BitVec.toNat_ofNat, BitVec.toNat_setWidth, hshift,
    Nat.mod_eq_of_lt (by omega : v.toNat < 2 ^ 64), ← Nat.two_pow_add_eq_or_of_lt hv]
  omega

/-- A half of an identifier is the number of its digits (R231). -/
theorem digitsValue_eq (d : List (BitVec 4)) : digitsValue d = BitVec.ofNat 64 (digitsNumber 0 d) := by
  have key (m : Nat) : d.foldl (fun (acc : W64) v => acc <<< 4 ||| v.setWidth 64) (BitVec.ofNat 64 m) =
      BitVec.ofNat 64 (digitsNumber m d) := by
    induction d generalizing m with
    | nil => rfl
    | cons v d ih => rw [List.foldl_cons, shiftLeft_or_digit, ih, digitsNumber_cons]
  exact key 0

/-- The two halves of 32 digits are those of their number. -/
theorem digitsValue_halves {d : List (BitVec 4)} (h : d.length = 32) :
    digitsValue (d.take 16) = BitVec.ofNat 64 (digitsNumber 0 d / 2 ^ 64) ∧
    digitsValue (d.drop 16) = BitVec.ofNat 64 (digitsNumber 0 d % 2 ^ 64) := by
  have hlen : (d.drop 16).length = 16 := by rw [List.length_drop, h]
  have hpow : 16 ^ 16 = 2 ^ 64 := by decide
  have hlow := digitsNumber_lt (d.drop 16)
  rw [hlen, hpow] at hlow
  have hnum : digitsNumber 0 d = digitsNumber 0 (d.take 16) * 2 ^ 64 + digitsNumber 0 (d.drop 16) := by
    conv_lhs => rw [← List.take_append_drop 16 d, digitsNumber_append, digitsNumber_acc, hlen, hpow]
  rw [digitsValue_eq, digitsValue_eq]
  constructor <;> congr 1 <;> omega

/-- The number of a text is that of its digits. -/
theorem textNumber_eq (text : Nat → Byte) (n i acc : Nat) :
    textNumber text n i acc = digitsNumber acc (textDigits text n i) := by
  induction n generalizing i acc with
  | zero => rfl
  | succ n ih =>
    rw [textNumber, ih]
    by_cases hi : i ∈ hyphenPositions
    · rw [if_pos hi, textDigits_hyphen hi]
    · rw [if_neg hi, textDigits_digit hi, digitsNumber_cons, digitOf_toNat]

/-- The 36 characters hold 32 digits (R229). -/
theorem textDigits_length (text : Nat → Byte) : (textDigits text 36 0).length = 32 := by
  rw [textDigits, List.length_map]
  decide

/-! ### UUID.PARSE -/

section
variable {s : State} {ra rb : Reg}

/-- UUID.PARSE within SCR reads the text byte by byte (R231). -/
theorem memRead_text (ha : (s.reg rb).toNat + 36 ≤ s.params.scrSize) :
    memRead (s.reg rb) 36 s = .ok ((List.range' 0 36).map fun i => s.scrByte ((s.reg rb).toNat + i)) := by
  rw [memRead_ok ha, scrBytes_eq_map, List.range_eq_range']

/-- UUID.PARSE within SCR is what the text it reads stands for (R231). -/
theorem exec_uuidParse (ha : (s.reg rb).toNat + 36 ≤ s.params.scrSize) :
    exec (.uuidParse ra rb) s =
      .next (s.perform ((parseUuid ((List.range' 0 36).map fun i => s.scrByte ((s.reg rb).toNat + i))).map
        fun p => (s.setReg ra p.1).setReg (pairLow ra) p.2)) := by
  rw [exec, execUuidParse, memRead_text ha]
  rfl

/-- UUID.PARSE outside SCR (R231). -/
theorem exec_uuidParse_scrBounds (hc : s.closed = false) (ha : s.params.scrSize < (s.reg rb).toNat + 36) :
    exec (.uuidParse ra rb) s = .next (s.completeErr ⟨.scrBounds, BitVec.ofNat 32 (s.reg rb).toNat⟩) :=
  congrArg _ (perform_error hc (by rw [memRead_error ha, trunc_eq]; rfl))

end

/-- The identifier of a text whose characters may all stand where they do (R231). -/
theorem parseUuid_ok {text : Nat → Byte} (h : ∀ i < 36, CharOk i (text i)) :
    parseUuid ((List.range' 0 36).map text) =
      .ok (BitVec.ofNat 64 (textNumber text 36 0 0 / 2 ^ 64), BitVec.ofNat 64 (textNumber text 36 0 0 % 2 ^ 64)) := by
  obtain ⟨hhi, hlo⟩ := digitsValue_halves (textDigits_length text)
  rw [parseUuid, scanUuid_ok fun k _ hk => h k (by omega), textNumber_eq, ← hhi, ← hlo]

/-- The error of a text with a first character that may not stand where it does (R231). -/
theorem parseUuid_error {text : Nat → Byte} {i : Nat} (hi : i < 36) (hbad : ¬ CharOk i (text i))
    (h : ∀ j < i, CharOk j (text j)) :
    parseUuid ((List.range' 0 36).map text) = .error ⟨.badUuidText, BitVec.ofNat 32 i⟩ := by
  rw [parseUuid, scanUuid_error i.zero_le (by omega) hbad fun k _ hk => h k hk]
  rfl

/-- Settles O52, by what the reading of the text answers. -/
theorem uuidParseReadsTheText : Obligations.UuidParseReadsTheText := by
  intro ra rb s h _ hc a text v
  refine ⟨mkWord_registers 0x47 (by decide) ra rb, exec_uuidParse_scrBounds hc, fun ha hok => ?_,
    fun i hi ha hfirst hbad => ?_⟩
  · rw [exec_uuidParse ha, pairLow_eq ra h]
    exact congrArg _ (perform_ok hc (congrArg _ (parseUuid_ok hok)))
  · rw [exec_uuidParse ha]
    exact congrArg _ (perform_error hc (congrArg _ (parseUuid_error hi hbad hfirst)))

end Sys2Proof.Machine
end

section
/-! PROOFS. What the bytes of a frame hold: the body (R260), the opcode (R261) and the two formats
(`44_framer.md` section 3). -/

namespace Sys2Proof.Machine

/-! ### The opcode -/

/-- What the uncompressed content holds, by what its first field decodes to (R261). -/
theorem frameOpcode_of_decodeVarint (d : W32) (inner : Bytes) :
    (∀ o n, decodeVarint inner = .value o n → frameOpcode d inner = .ok ⟨o, inner.drop n, d⟩) ∧
    (decodeVarint inner = .insufficient →
      frameOpcode d inner = .error ⟨⟨.insufficientBytes, word32 inner.length⟩, d⟩) ∧
    (decodeVarint inner = .tooLarge → frameOpcode d inner = .error ⟨⟨.varIntTooLarge, 0⟩, d⟩) := by
  refine ⟨fun o n h => ?_, fun h => ?_, fun h => ?_⟩
  · rw [frameOpcode, takeVarint_of_value h]
  · rw [frameOpcode, takeVarint_of_insufficient h]
  · rw [frameOpcode, takeVarint_of_tooLarge h]

/-! ### The body -/

section
variable {zip : ZipUnit} {payCap : Nat} {buf : Bytes}

/-- A body without a complete data length has the data length 0 in its error (R260, R265). -/
theorem frameBody_dlenError {e : Raise} (h : takeVarint buf = .error e) :
    frameBody zip payCap buf = .error ⟨e, 0⟩ := by
  rw [frameBody, h]

/-- The data length 0 says that the rest is not compressed (R260). -/
theorem frameBody_uncompressed {m : Nat} (h : decodeVarint buf = .value 0 m) :
    frameBody zip payCap buf = .ok (0, buf.drop m) := by
  simp only [frameBody, takeVarint_of_value h, if_true]

variable {d : W32} {m : Nat} (hv : decodeVarint buf = .value d m)
include hv

/-- A data length above the capacity is refused before anything is inflated (R260). -/
theorem frameBody_dataTooLarge (hcap : (payCap : Int) < d.toInt) :
    frameBody zip payCap buf = .error ⟨⟨.dataTooLarge, d⟩, d⟩ := by
  have hd : d ≠ 0 := by
    rintro rfl
    exact absurd hcap (not_lt.mpr (Int.natCast_nonneg payCap))
  simp only [frameBody, takeVarint_of_value hv, if_neg hd, if_pos hcap]

/-- A data length other than 0 within the capacity, a negative one too, has the rest inflated and checked against it
(R260). -/
theorem frameBody_compressed (hd : d ≠ 0) (hcap : d.toInt ≤ payCap) :
    (zip.inflate (buf.drop m) = none → frameBody zip payCap buf = .error ⟨⟨.inflateFailed, 0⟩, d⟩) ∧
    ∀ z, zip.inflate (buf.drop m) = some z →
      ((z.length : Int) ≠ d.toInt →
        frameBody zip payCap buf = .error ⟨⟨.lengthMismatch, word32 z.length⟩, d⟩) ∧
      ((z.length : Int) = d.toInt → frameBody zip payCap buf = .ok (d, z)) := by
  simp only [frameBody, takeVarint_of_value hv, if_neg hd, if_neg (not_lt.mpr hcap)]
  refine ⟨fun hz => ?_, fun z hz => ⟨fun hne => ?_, fun heq => ?_⟩⟩
  · rw [hz]
  · simp only [hz, if_neg hne]
  · simp only [hz, if_pos heq]

end

/-! ### The frame -/

section
variable {zip : ZipUnit} {payCap : Nat} {tl : W32} {buf : Bytes}

/-- A frame of the plain format is its content, with the data length 0 (R257, R259). -/
theorem parseFrame_plain (ht : tl.toInt < 0) : parseFrame zip payCap tl buf = frameOpcode 0 buf := by
  rw [parseFrame, if_pos ht]

/-- An error of the body is the error of a frame of the compression-capable format (R260). -/
theorem parseFrame_bodyError {e : FrameError} (ht : 0 ≤ tl.toInt) (h : frameBody zip payCap buf = .error e) :
    parseFrame zip payCap tl buf = .error e := by
  rw [parseFrame, if_neg (not_lt.mpr ht), h]

/-- A frame of the compression-capable format holds what the content of its body holds (R260, R261). -/
theorem parseFrame_body {d : W32} {inner : Bytes} (ht : 0 ≤ tl.toInt)
    (h : frameBody zip payCap buf = .ok (d, inner)) : parseFrame zip payCap tl buf = frameOpcode d inner := by
  rw [parseFrame, if_neg (not_lt.mpr ht), h]

end

/-- Settles O55: the content of a frame is in each format what `frameOpcode` finds, and the errors before it are those
of the body. -/
theorem framePartsFollowTheFormat : Obligations.FramePartsFollowTheFormat := by
  intro zip payCap tl buf content
  have hcontent : ∀ {d inner}, parseFrame zip payCap tl buf = frameOpcode d inner → content d inner := by
    intro d inner h
    simp only [content, h]
    exact frameOpcode_of_decodeVarint d inner
  refine ⟨fun ht => hcontent (parseFrame_plain ht), fun ht => ⟨fun h => ?_, fun h => ?_, fun d m hv =>
    ⟨?_, fun hcap => ?_, fun hd hcap => ?_⟩⟩⟩
  · exact parseFrame_bodyError ht (frameBody_dlenError (takeVarint_of_insufficient h))
  · exact parseFrame_bodyError ht (frameBody_dlenError (takeVarint_of_tooLarge h))
  · rintro rfl
    exact hcontent (parseFrame_body ht (frameBody_uncompressed hv))
  · exact parseFrame_bodyError ht (frameBody_dataTooLarge hv hcap)
  · obtain ⟨hfailed, hinflated⟩ := frameBody_compressed (zip := zip) hv hd hcap
    refine ⟨fun hz => parseFrame_bodyError ht (hfailed hz), fun z hz => ?_⟩
    obtain ⟨hmismatch, hmatch⟩ := hinflated z hz
    exact ⟨fun hne => parseFrame_bodyError ht (hmismatch hne), fun heq => hcontent (parseFrame_body ht (hmatch heq))⟩

end Sys2Proof.Machine
end

section
/-! PROOFS. The system and buffer commands, and the two that write PHASE and THRESH (`45_dispatch_system.md` R294 to
R301). -/

namespace Sys2Proof.Machine

/-! ### Commands that skip the closed check -/

/-- Settles O32: NOP is the completion without error, with no closed check before it. -/
theorem nopOnlyCompletes : Obligations.NopOnlyCompletes :=
  ⟨by decide, fun _ => rfl⟩

/-- Settles O34: CONN.RESET is the completion of the new connection, with no closed check before it. -/
theorem connResetStartsANewConnection : Obligations.ConnResetStartsANewConnection :=
  ⟨by decide, fun _ => rfl⟩

/-! ### LDI -/

/-- The immediate of LDI as arithmetic on its number. -/
theorem immValue_eq (imm : BitVec 16) :
    immValue imm = BitVec.ofInt 64 (if imm.toNat < 32768 then (imm.toNat : Int) else imm.toNat - 65536) := by
  rw [immValue, sext64_eq, BitVec.toInt_eq_toNat_cond]
  congr 1
  split_ifs <;> omega

/-- LDI in an open block. -/
theorem exec_ldi {s : State} (hc : s.closed = false) (ra : Reg) (imm : BitVec 16) :
    exec (.ldi ra imm) s = .next (s.setReg ra (immValue imm)).completeOk :=
  congrArg _ (perform_ok hc rfl)

/-- Settles O33, by the value of the immediate. -/
theorem ldiLoadsASignedImmediate : Obligations.LdiLoadsASignedImmediate := by
  refine fun ra imm s hc => ⟨mkWord_immediate 0x01 ra imm, ?_⟩
  rw [exec_ldi hc, immValue_eq]
  rfl

/-! ### PHASE.SET and THRESH.SET -/

/-- The word of a command with an immediate and no register. -/
theorem mkWord_immediate_only (op : BitVec 8) (imm : BitVec 16) :
    mkWord op 0 0 imm = BitVec.ofNat 32 (op.toNat + 65536 * imm.toNat) :=
  mkWord_immediate op 0 imm

/-- The code of a phase in a word is its number. -/
theorem Phase.setWidth_code (p : Phase) : p.code.setWidth 32 = BitVec.ofNat 32 p.number := by
  cases p <;> rfl

section
variable {imm : BitVec 16}

/-- The operand 1 asks for Status. -/
theorem targetPhase_one (h : imm.toNat = 1) : targetPhase imm = .ok .status := by
  obtain rfl : imm = 1 := BitVec.eq_of_toNat_eq h
  rfl

/-- The operand 2 asks for Login. -/
theorem targetPhase_two (h : imm.toNat = 2) : targetPhase imm = .ok .login := by
  obtain rfl : imm = 2 := BitVec.eq_of_toNat_eq h
  rfl

/-- No other operand asks for a phase. -/
theorem targetPhase_other (h1 : imm.toNat ≠ 1) (h2 : imm.toNat ≠ 2) :
    targetPhase imm = .error ⟨.badOperand, BitVec.ofNat 32 imm.toNat⟩ := by
  have hne1 : imm ≠ 1 := fun h => h1 (congrArg BitVec.toNat h)
  have hne2 : imm ≠ 2 := fun h => h2 (congrArg BitVec.toNat h)
  rw [targetPhase, if_neg hne1, if_neg hne2, ← trunc_eq, trunc]

variable {s : State} (hc : s.closed = false)
include hc

/-- PHASE.SET with an operand that asks for no phase. -/
theorem exec_phaseSet_badOperand {e : Raise} (h : targetPhase imm = .error e) :
    exec (.phaseSet imm) s = .next (s.completeErr e) :=
  congrArg _ (perform_error hc (by rw [h]; rfl))

/-- PHASE.SET in a phase other than Handshake. -/
theorem exec_phaseSet_illegal {p : Phase} (h : targetPhase imm = .ok p) (hp : s.phase ≠ .handshake) :
    exec (.phaseSet imm) s = .next (s.completeErr ⟨.illegalTransition, BitVec.ofNat 32 s.phase.number⟩) := by
  rw [← Phase.setWidth_code]
  exact congrArg _ (perform_error hc (by rw [h]; exact if_neg hp))

/-- PHASE.SET in Handshake goes to the phase asked for. -/
theorem exec_phaseSet_handshake {p : Phase} (h : targetPhase imm = .ok p) (hp : s.phase = .handshake) :
    exec (.phaseSet imm) s = .next (s.setPhase p).completeOk :=
  congrArg _ (perform_ok hc (by rw [h]; exact if_pos hp))

/-- THRESH.SET in an open block. -/
theorem exec_threshSet (ra : Reg) :
    exec (.threshSet ra) s = .next (s.setThresh (trunc 32 (s.reg ra))).completeOk :=
  congrArg _ (perform_ok hc rfl)

end

/-- Settles O35: PHASE.SET by the phase its operand asks for and the phase it starts from. -/
theorem phaseSetAndThreshSetWriteTheirRegisters : Obligations.PhaseSetAndThreshSetWriteTheirRegisters := by
  refine ⟨fun imm s hc => ⟨mkWord_immediate_only 0x03 imm, fun h1 h2 => ?_, fun h hp => ?_, fun h hp => ?_,
    fun h hp => ?_⟩, fun ra s hc => ⟨mkWord_register 0x04 ra, ?_⟩⟩
  · exact exec_phaseSet_badOperand hc (targetPhase_other h1 h2)
  · obtain h1 | h2 := h
    · exact exec_phaseSet_illegal hc (targetPhase_one h1) hp
    · exact exec_phaseSet_illegal hc (targetPhase_two h2) hp
  · exact exec_phaseSet_handshake hc (targetPhase_one h) hp
  · exact exec_phaseSet_handshake hc (targetPhase_two h) hp
  · rw [exec_threshSet hc, trunc_eq]
    rfl

/-! ### BLD.CLR, PAY.LOAD and PAY.SEEK -/

section
variable {s : State} (hc : s.closed = false)
include hc

/-- BLD.CLR in an open block. -/
theorem exec_bldClr : exec .bldClr s = .next s.clearBld.completeOk := congrArg _ (perform_ok hc rfl)

/-- PAY.LOAD in an open block. -/
theorem exec_payLoad : exec .payLoad s = .next s.loadPay.completeOk := congrArg _ (perform_ok hc rfl)

/-- PAY.SEEK to an offset up to PLEN. -/
theorem exec_paySeek_ok {ra : Reg} (h : (s.reg ra).toNat ≤ s.plen) :
    exec (.paySeek ra) s = .next (s.setRpos (s.reg ra).toNat).completeOk :=
  congrArg _ (perform_ok hc (if_neg (Nat.not_lt.mpr h)))

/-- PAY.SEEK past PLEN. -/
theorem exec_paySeek_badSeek {ra : Reg} (h : s.plen < (s.reg ra).toNat) :
    exec (.paySeek ra) s = .next (s.completeErr ⟨.badSeek, trunc 32 (s.reg ra)⟩) :=
  congrArg _ (perform_error hc (if_pos h))

end

/-- Settles O36, command by command. -/
theorem bufferCommandsMoveBuffers : Obligations.BufferCommandsMoveBuffers := by
  refine ⟨by decide, by decide, mkWord_register 0x07, fun s hc => ⟨exec_bldClr hc, exec_payLoad hc, fun ra =>
    ⟨exec_paySeek_ok hc, fun h => ?_⟩⟩⟩
  rw [exec_paySeek_badSeek hc h, trunc_eq]
  rfl

end Sys2Proof.Machine
end

section
/-! PROOFS. Opcode routing: what an entry of RT matches, and what DISPATCH does with the entry it finds
(`45_dispatch_system.md` R290 to R293). -/

namespace Sys2Proof.Machine

/-! ### Routing entries as numbers -/

/-- The code of a phase as a number. -/
theorem Phase.toNat_code (p : Phase) : p.code.toNat = p.number := by
  cases p <;> rfl

/-- The VALID bit of an entry is the lowest digit of its CTL word to the base 2. -/
theorem RtEntry.valid_iff (e : RtEntry) : e.valid = true ↔ e.ctl.toNat % 2 = 1 := by
  rw [RtEntry.valid, BitVec.getLsbD, Nat.testBit_zero, decide_eq_true_iff]

/-- The PHASE field of an entry as a number. -/
theorem RtEntry.toNat_phase (e : RtEntry) : e.phase.toNat = e.ctl.toNat / 2 % 4 := by
  rw [RtEntry.phase, BitVec.extractLsb'_toNat, Nat.shiftRight_eq_div_pow]

/-- The ROUTE field of an entry is its route number. -/
theorem RtEntry.route_eq (e : RtEntry) : e.route = BitVec.ofNat 8 e.routeNumber := by
  refine BitVec.eq_of_toNat_eq ?_
  rw [RtEntry.route, BitVec.extractLsb'_toNat, Nat.shiftRight_eq_div_pow, RtEntry.routeNumber, BitVec.toNat_ofNat]
  exact (Nat.mod_mod _ _).symm

/-- The ROUTE field holds a number exactly when that is the route number. -/
theorem RtEntry.route_eq_ofNat_iff (e : RtEntry) {r : Nat} (hr : r < 256) :
    e.route = BitVec.ofNat 8 r ↔ e.routeNumber = r := by
  have hlt : e.routeNumber < 256 := Nat.mod_lt _ (by decide)
  rw [e.route_eq, ← BitVec.toNat_inj, BitVec.toNat_ofNat, BitVec.toNat_ofNat, Nat.mod_eq_of_lt hlt,
    Nat.mod_eq_of_lt hr]

/-- The entries DISPATCH looks for are those that match (R290). -/
theorem RtEntry.isFor_iff (e : RtEntry) (p : Phase) (opc : W32) : e.isFor p opc = true ↔ e.Matches p opc := by
  rw [RtEntry.isFor, Bool.and_eq_true, Bool.and_eq_true, beq_iff_eq, beq_iff_eq, e.valid_iff, ← BitVec.toNat_inj,
    e.toNat_phase, p.toNat_code, and_assoc, RtEntry.Matches]

/-! ### The entry found -/

section
variable {s : State}

/-- DISPATCH finds no entry when none matches. -/
theorem routeEntry_eq_none (h : ∀ e ∈ s.rt, ¬ e.Matches s.phase s.opc) : s.routeEntry = none :=
  List.find?_eq_none.mpr fun e he hfor => h e he ((e.isFor_iff _ _).mp hfor)

/-- DISPATCH finds the matching entry of least index (R293). -/
theorem routeEntry_eq_some {k : Nat} (h : k < s.rt.length) (hk : s.rt[k].Matches s.phase s.opc)
    (hlo : ∀ (j : Nat) (hj : j < k), ¬ s.rt[j].Matches s.phase s.opc) : s.routeEntry = some s.rt[k] := by
  refine List.find?_eq_some_iff_getElem.mpr ⟨(RtEntry.isFor_iff _ _ _).mpr hk, k, h, rfl, fun j hj => ?_⟩
  rw [Bool.not_eq_true', Bool.eq_false_iff]
  exact fun hfor => hlo j hj ((RtEntry.isFor_iff _ _ _).mp hfor)

end

/-! ### The actions -/

/-- Route 1 stores the VarInt at offset 0 of PAY in THRESH (R291). -/
theorem routeAction_one_ok {s : State} {v : W32} {n : Nat} (h : takeVarint s.pay = .ok (v, n)) :
    routeAction 1 s = .ok (s.setThresh v) := by
  rw [routeAction, if_pos rfl, setCompressionAction, h]
  rfl

/-- Route 1 without such a VarInt (R291). -/
theorem routeAction_one_error {s : State} {e : Raise} (h : takeVarint s.pay = .error e) :
    routeAction 1 s = .error e := by
  rw [routeAction, if_pos rfl, setCompressionAction, h]
  rfl

/-- Route 2 moves Login to Play (R291). -/
theorem routeAction_two_login {s : State} (h : s.phase = .login) : routeAction 2 s = .ok (s.setPhase .play) := by
  rw [routeAction, if_neg (by decide), if_pos rfl, loginSuccessAction, if_pos h]

/-- Route 2 does nothing in any other phase (R291). -/
theorem routeAction_two_other {s : State} (h : s.phase ≠ .login) : routeAction 2 s = .ok s := by
  rw [routeAction, if_neg (by decide), if_pos rfl, loginSuccessAction, if_neg h]

/-- The other routes have no action in the block (R291). -/
theorem routeAction_other {r : BitVec 8} (h1 : r ≠ 1) (h2 : r ≠ 2) (s : State) : routeAction r s = .ok s := by
  rw [routeAction, if_neg h1, if_neg h2]

/-! ### DISPATCH -/

section
variable {s : State} (hc : s.closed = false)
include hc

/-- DISPATCH whose rule raises nothing. -/
theorem exec_dispatch_ok {t : State} (h : dispatchRule s = .ok t) : exec .dispatch s = .next t.completeOk := by
  refine congrArg Host.Outcome.next ?_
  rw [h, performOr_ok hc]

/-- DISPATCH whose rule raises an error, whatever it is, has written 0 to ROUTE and nothing else (R290). -/
theorem exec_dispatch_error {e : Raise} (h : dispatchRule s = .error e) :
    exec .dispatch s = .next ((s.setRoute 0).completeErr e) := by
  refine congrArg Host.Outcome.next ?_
  rw [h, performOr_error hc]

/-- DISPATCH without a decoded frame (R290). -/
theorem exec_dispatch_noFrame (hf : s.fvalid = false) :
    exec .dispatch s = .next ((s.setRoute 0).completeErr ⟨.noFrame, 0⟩) := by
  refine exec_dispatch_error hc ?_
  rw [dispatchRule, hf]
  rfl

variable (hf : s.fvalid = true)
include hf

/-- DISPATCH with no entry for the frame in Login (R292). -/
theorem exec_dispatch_unknown (hn : s.routeEntry = none) (hp : s.phase = .login) :
    exec .dispatch s = .next ((s.setRoute 0).completeErr ⟨.unknownOpcode, s.opc⟩) := by
  refine exec_dispatch_error hc ?_
  rw [dispatchRule, hf, hn]
  exact if_pos hp

/-- DISPATCH with no entry for the frame in any other phase (R292). -/
theorem exec_dispatch_ignored (hn : s.routeEntry = none) (hp : s.phase ≠ .login) :
    exec .dispatch s = .next (s.setRoute 0).completeOk := by
  refine exec_dispatch_ok hc ?_
  rw [dispatchRule, hf, hn]
  exact if_neg hp

variable {e : RtEntry} (he : s.routeEntry = some e) {r : BitVec 8} (hr : e.route = r)
include he hr

/-- DISPATCH with an entry whose action succeeds (R290). -/
theorem exec_dispatch_routed {t : State} (ha : routeAction r s = .ok t) :
    exec .dispatch s = .next (t.setRoute r).completeOk := by
  refine exec_dispatch_ok hc ?_
  rw [dispatchRule, hf, he]
  simp only [hr, ha]
  rfl

/-- DISPATCH with an entry whose action raises an error (R290). -/
theorem exec_dispatch_actionError {x : Raise} (ha : routeAction r s = .error x) :
    exec .dispatch s = .next ((s.setRoute 0).completeErr x) := by
  refine exec_dispatch_error hc ?_
  rw [dispatchRule, hf, he]
  simp only [hr, ha]
  rfl

end

/-- Settles O37: without a frame, without an entry, and by the route number of the entry found. -/
theorem dispatchRoutesTheFrame : Obligations.DispatchRoutesTheFrame := by
  refine ⟨by decide, fun s hc => ⟨exec_dispatch_noFrame hc, fun hf hnone => ?_, fun k h hf hk hlo => ?_⟩⟩
  · have hn : s.routeEntry = none := routeEntry_eq_none hnone
    exact ⟨exec_dispatch_unknown hc hf hn, exec_dispatch_ignored hc hf hn⟩
  · have he : s.routeEntry = some s.rt[k] := routeEntry_eq_some h hk hlo
    have h1 : s.rt[k].route = 1 ↔ s.rt[k].routeNumber = 1 := s.rt[k].route_eq_ofNat_iff (by decide)
    have h2 : s.rt[k].route = 2 ↔ s.rt[k].routeNumber = 2 := s.rt[k].route_eq_ofNat_iff (by decide)
    refine ⟨fun hr1 hr2 => ?_, fun hr hp => ?_, fun hr hp => ?_, fun hr => ⟨fun v n hv => ?_, fun hv => ?_,
      fun hv => ?_⟩⟩
    · rw [exec_dispatch_routed hc hf he rfl (routeAction_other (mt h1.mp hr1) (mt h2.mp hr2) s), RtEntry.route_eq]
      rfl
    · exact exec_dispatch_routed hc hf he (h2.mpr hr) (routeAction_two_login hp)
    · exact exec_dispatch_routed hc hf he (h2.mpr hr) (routeAction_two_other hp)
    · exact exec_dispatch_routed hc hf he (h1.mpr hr) (routeAction_one_ok (takeVarint_of_value hv))
    · exact exec_dispatch_actionError hc hf he (h1.mpr hr) (routeAction_one_error (takeVarint_of_insufficient hv))
    · exact exec_dispatch_actionError hc hf he (h1.mpr hr) (routeAction_one_error (takeVarint_of_tooLarge hv))

end Sys2Proof.Machine
end

section
/-! PROOFS. Precise errors (`60_exceptions.md` R342): what a command that completes with an error has written besides
the recording registers. -/

namespace Sys2Proof.Machine

/-! ### Commands of one engine step -/

/-- A command other than FRAME.DEC that completes with an error has written nothing else, or it is DISPATCH, and ROUTE
is 0. -/
theorem exec_oneStep_error {i : Instr} {s t : State} (hi : i ≠ .frameDec) (h : exec i s = .next t) (he : t.err ≠ 0) :
    ∃ e, t = s.completeErr e ∨ (i = .dispatch ∧ t = (s.setRoute 0).completeErr e) := by
  by_cases h1 : i = .nop
  · subst h1; cases h; exact absurd rfl he
  by_cases h2 : i = .connReset
  · subst h2; cases h; exact absurd rfl he
  obtain ⟨-, ht⟩ | ⟨-, e, ht⟩ | ⟨-, u, -, rfl⟩ := exec_oneStep_cases h1 h2 hi h
  · exact ⟨_, .inl ht⟩
  · refine ⟨e, ?_⟩
    split at ht
    · exact .inr ⟨‹_›, ht⟩
    · exact .inl ht
  · exact absurd u.completeOk_err he

/-! ### FRAME.DEC -/

/-- `t` is what a FRAME.DEC that began its step in `s` leaves when it ends in error with `k` bytes taken in the step:
some threshold stands latched, and nothing else is written before the writes of the error case (R257, R265). -/
def FrameFailsAfter (s : State) (k : Nat) (t : State) : Prop :=
  ∃ tl ftlen fdlen e, t = ({ s with tl := tl, rxq := s.rxq.drop k } : State).frameFail ftlen fdlen e

/-- Up to the point where it asks for a byte, FRAME.DEC writes only TL and its own progress. -/
theorem AsksAt.frame {s u : State} {p : RxProgress} (ha : AsksAt s u p) :
    ∃ tl, u = { s with tl := tl, rx := u.rx } := by
  obtain ⟨-, rfl⟩ | ⟨-, -, -, rfl⟩ := ha
  · exact ⟨u.tl, rfl⟩
  · exact ⟨s.thresh, rfl⟩

/-- A failure where FRAME.DEC asks for a byte, with `k` bytes gone from the head of RXQ. -/
theorem AsksAt.frameFailsAfter {s u : State} {p : RxProgress} (ha : AsksAt s u p) (k : Nat) (ftlen fdlen : W32)
    (e : Raise) : FrameFailsAfter s k ((u.setRxq (s.rxq.drop k)).frameFail ftlen fdlen e) := by
  obtain ⟨tl, hu⟩ := ha.frame
  exact ⟨tl, ftlen, fdlen, e, by rw [hu]; rfl⟩

/-- A failure where FRAME.DEC asks for a byte, with none taken. -/
theorem AsksAt.frameFailsAfter_zero {s u : State} {p : RxProgress} (ha : AsksAt s u p) (ftlen fdlen : W32)
    (e : Raise) : FrameFailsAfter s 0 (u.frameFail ftlen fdlen e) := by
  have hq : u.setRxq (s.rxq.drop 0) = u := by
    obtain ⟨tl, hu⟩ := ha.frame
    rw [hu]; rfl
  exact hq ▸ ha.frameFailsAfter 0 ftlen fdlen e

/-- A byte on which FRAME.DEC completes with an error: the only way there is a failure of the frame. -/
theorem rxByte_error {p : RxProgress} {b : Byte} {s : State} (hs : s.busy = true) (hb : (rxByte p b s).busy = false)
    (he : (rxByte p b s).err ≠ 0) : ∃ ftlen fdlen e, rxByte p b s = s.frameFail ftlen fdlen e := by
  obtain ⟨q, h, -⟩ | ⟨ftlen, fdlen, e, h, -⟩ | ⟨tlen, f, _, h, -⟩ := rxByte_cases p b s
  · rw [h, State.setRx_busy, hs] at hb
    cases hb
  · exact ⟨ftlen, fdlen, e, h⟩
  · exact absurd (h ▸ State.completeOk_err _) he

/-- A FRAME.DEC that completes with an error was turned away by the closed check, or failed with at most one byte taken
in its last step. -/
theorem exec_frameDec_error {s t : State} (hs : s.busy = true) (h : exec .frameDec s = .next t) (hb : t.busy = false)
    (he : t.err ≠ 0) :
    (s.rx = none ∧ s.closed = true ∧ t = s.completeErr ⟨.closed, 0⟩) ∨ ∃ k ≤ 1, FrameFailsAfter s k t := by
  obtain hclosed | ⟨u, p, ha, h⟩ := execFrameDec_cases h
  · exact .inl hclosed
  right
  have hu : u.busy = true := by
    obtain ⟨tl, hu⟩ := ha.frame
    rw [hu, hs]
  obtain ⟨-, -, -, rfl⟩ | ⟨-, -, rfl⟩ | ⟨-, -, -, rfl⟩ | ⟨b, q, hq, rfl⟩ := h
  · cases hu.symm.trans hb
  · exact ⟨0, Nat.zero_le 1, ha.frameFailsAfter_zero _ _ _⟩
  · exact ⟨0, Nat.zero_le 1, ha.frameFailsAfter_zero _ _ _⟩
  · obtain ⟨ftlen, fdlen, e, ht⟩ := rxByte_error (s := u.setRxq q) hu hb he
    have hdrop : q = s.rxq.drop 1 := by rw [hq]; rfl
    exact ⟨1, le_rfl, by rw [ht, hdrop]; exact ha.frameFailsAfter 1 ftlen fdlen e⟩

/-! ### Every command -/

/-- Settles O11: by the commands of one engine step, among them DISPATCH, and by the two ways FRAME.DEC can fail. -/
theorem errorsArePrecise : Obligations.ErrorsArePrecise := by
  intro i s t hs h hb he
  by_cases hi : i = .frameDec
  · subst hi
    obtain ⟨hrx, hc, ht⟩ | ⟨k, -, tl, ftlen, fdlen, e, ht⟩ := exec_frameDec_error hs h hb he
    · exact ⟨_, .inr (.inr (.inl ⟨rfl, hrx, hc, ht⟩))⟩
    · exact ⟨e, .inr (.inr (.inr ⟨rfl, ftlen, fdlen, tl, k, ht⟩))⟩
  · obtain ⟨e, ht | ⟨hd, ht⟩⟩ := exec_oneStep_error hi h he
    · exact ⟨e, .inl ⟨hi, ht⟩⟩
    · exact ⟨e, .inr (.inl ⟨hd, ht⟩)⟩

end Sys2Proof.Machine
end

section
/-! PROOFS. The reset input (`70_reset_and_hazards.md` R380): what its rise and its fall leave, and that a block held in
reset does nothing but answer reads. -/

namespace Sys2Proof.Machine

variable {s t : State} {m : Move} {l : List Move}

/-! ### Moves of the reset input -/

/-- The next move of the schedule is made, and taken off it. -/
theorem step_of_sched_cons (hs : s.sched = m :: l) : step s = doMove m (s.setSched l) := by
  simp only [step, hs]

/-- A step that is the rise of the reset input. -/
theorem step_rst_true (hs : s.sched = .rst true :: l) : step s = .next (s.setSched l).enterReset :=
  step_of_sched_cons hs

/-- A step that is the fall of the reset input. -/
theorem step_rst_false (hs : s.sched = .rst false :: l) : step s = .next (s.setSched l).leaveReset :=
  step_of_sched_cons hs

/-! ### The reset state -/

/-- The block is in its reset state: only the level of the reset input and the model's own fields are free. -/
def State.AtReset (s : State) : Prop :=
  s = { State.resetWith s.params with
    rst := s.rst
    resets := s.resets
    bus := s.bus
    wire := s.wire
    sched := s.sched }

/-- The rise of the reset input puts the block in its reset state, whatever it did before. -/
theorem enterReset_atReset (s : State) : s.enterReset.AtReset := rfl

/-- The model starts in the reset state. -/
theorem reset_atReset : State.reset.AtReset := rfl

/-- A block in its reset state runs no command, so none waits for a byte. -/
theorem State.AtReset.held (h : t.AtReset) : t.held = false := by
  have hb : t.busy = false := by rw [h]; rfl
  simp [State.held, State.receiving, hb]

/-- A block in its reset state requests no interrupt, for nothing is pending. -/
theorem State.AtReset.irq (h : t.AtReset) : t.irq = false := by
  have hip : t.ip = 0 := by rw [h]; rfl
  simp [State.irq, hip]

/-- ID reads the same in every state (R41). -/
theorem busWord_id (s : State) : s.busWord 0x0040 = 0x474D5001 := rfl

/-! ### Held in reset -/

/-- The engine of a block held in reset waits. -/
theorem engineStep_of_rst (hr : s.rst = true) : engineStep s = .next s := by
  simp [engineStep, hr]

/-- A block held in reset takes no other move. -/
theorem unlessReset_of_rst (hr : s.rst = true) (t : State) : s.unlessReset t = s := by
  simp [State.unlessReset, hr]

/-- A read only answers. -/
theorem busRead_eq_answer (s : State) (w : BusWidth) (a : BitVec 16) : ∃ b, s.busRead w a = s.answer b := by
  rw [State.busRead]
  split <;> exact ⟨_, rfl⟩

/-- On a block held in reset a move of another agent than the reset input can at most have the bus answer. -/
theorem doMove_of_rst (hr : s.rst = true) (hm : ∀ b, m ≠ .rst b) : ∃ b, doMove m s = .next (s.answer b) := by
  cases m with
  | rst b => exact absurd rfl (hm b)
  | engine => exact ⟨s.bus, engineStep_of_rst hr⟩
  | busRead w a =>
    obtain ⟨b, h⟩ := busRead_eq_answer s w a
    exact ⟨b, congrArg _ h⟩
  | _ => exact ⟨s.bus, congrArg _ (unlessReset_of_rst hr _)⟩

/-- Settles O9: both states of the first clause are reset states, and a block held in reset only answers reads. -/
theorem resetGivesTheResetState : Obligations.ResetGivesTheResetState := by
  refine ⟨fun s t l h => ?_, fun s t l hs h => ?_, fun s t m l hr hs hm h => ?_, fun s l hs => step_rst_false hs, rfl⟩
  · have ht : t.AtReset := by
      obtain ⟨hs, h⟩ | rfl := h
      · rw [step_rst_true hs] at h
        cases h
        exact enterReset_atReset _
      · exact reset_atReset
    rw [ht.held, ht.irq, busWord_id, ht]
    and_intros <;> rfl
  · rw [step_rst_true hs] at h
    cases h
    exact ⟨rfl, rfl, rfl⟩
  · obtain ⟨b, hb⟩ := doMove_of_rst (s := s.setSched l) hr hm
    rw [step_of_sched_cons hs, hb] at h
    cases h
    rfl

end Sys2Proof.Machine
end

section
/-! PROOFS. The decoder and the encoder undo each other, and agree with the opcode table row by row (`30_encoding.md`
R132, R136). -/

namespace Sys2Proof

/-! ### What a format spells -/

/-- A command of a format with the operand fields of its word (R132): the specifiers of its registers, its immediate,
and 0 in every field the format leaves unused. -/
inductive Shape.Spells : Shape → Instr → BitVec 4 → BitVec 4 → BitVec 16 → Prop where
  | z (cmd : Instr) : Spells (.z cmd) cmd 0 0 0
  | r (f : Reg → Instr) (a : Reg) : Spells (.r f) (f a) (regField a) 0 0
  | p (f : Reg → Instr) (a : Reg) (ha : a.Even) : Spells (.p f) (f a) (regField a) 0 0
  | rr (f : Reg → Reg → Instr) (a b : Reg) : Spells (.rr f) (f a b) (regField a) (regField b) 0
  | pr (f : Reg → Reg → Instr) (a b : Reg) (ha : a.Even) : Spells (.pr f) (f a b) (regField a) (regField b) 0
  | ri (f : Reg → BitVec 16 → Instr) (a : Reg) (m : BitVec 16) : Spells (.ri f) (f a m) (regField a) 0 m
  | im (f : BitVec 16 → Instr) (m : BitVec 16) : Spells (.im f) (f m) 0 0 m

/-- A word with the operand fields that a format spells for a command is read as that command. -/
theorem Shape.Spells.read {w : W32} {sh : Shape} {i : Instr}
    (h : sh.Spells i (raField w) (rbField w) (immField w)) : sh.read w = some i := by
  generalize hra : raField w = a, hrb : rbField w = b, him : immField w = m at h
  cases h with
  | z cmd => simp [Shape.read, hra, hrb, him]
  | r f a => simp [Shape.read, hra, hrb, him]
  | p f a ha => simp [Shape.read, hra, hrb, him, pairOf_regField ha]
  | rr f a b => simp [Shape.read, hra, hrb, him]
  | pr f a b ha => simp [Shape.read, hra, hrb, him, pairOf_regField ha]
  | ri f a m => simp [Shape.read, hra, hrb, him]
  | im f m => simp [Shape.read, hra, hrb, him]

/-- A word that is read as a command has the operand fields that the format spells for it. -/
theorem Shape.spells_of_read {w : W32} {sh : Shape} {i : Instr} (h : sh.read w = some i) :
    sh.Spells i (raField w) (rbField w) (immField w) := by
  cases sh with
  | z cmd =>
    obtain ⟨⟨hra, hrb, him⟩, h⟩ := Option.ite_none_right_eq_some.mp h
    cases h
    rw [hra, hrb, him]
    exact .z _
  | r f =>
    obtain ⟨⟨hrb, him⟩, h⟩ := Option.ite_none_right_eq_some.mp h
    obtain ⟨a, ha, rfl⟩ := Option.map_eq_some_iff.mp h
    rw [← regField_of_regOf ha, hrb, him]
    exact .r f a
  | p f =>
    obtain ⟨⟨hrb, him⟩, h⟩ := Option.ite_none_right_eq_some.mp h
    obtain ⟨a, ha, rfl⟩ := Option.map_eq_some_iff.mp h
    obtain ⟨heven, hra⟩ := even_of_pairOf ha
    rw [← hra, hrb, him]
    exact .p f a heven
  | rr f =>
    obtain ⟨him, h⟩ := Option.ite_none_right_eq_some.mp h
    obtain ⟨a, ha, h⟩ := Option.bind_eq_some_iff.mp h
    obtain ⟨b, hb, rfl⟩ := Option.map_eq_some_iff.mp h
    rw [← regField_of_regOf ha, ← regField_of_regOf hb, him]
    exact .rr f a b
  | pr f =>
    obtain ⟨him, h⟩ := Option.ite_none_right_eq_some.mp h
    obtain ⟨a, ha, h⟩ := Option.bind_eq_some_iff.mp h
    obtain ⟨b, hb, rfl⟩ := Option.map_eq_some_iff.mp h
    obtain ⟨heven, hra⟩ := even_of_pairOf ha
    rw [← hra, ← regField_of_regOf hb, him]
    exact .pr f a b heven
  | ri f =>
    obtain ⟨hrb, h⟩ := Option.ite_none_right_eq_some.mp h
    obtain ⟨a, ha, rfl⟩ := Option.map_eq_some_iff.mp h
    rw [← regField_of_regOf ha, hrb]
    exact .ri f a _
  | im f =>
    obtain ⟨⟨hra, hrb⟩, h⟩ := Option.ite_none_right_eq_some.mp h
    cases h
    rw [hra, hrb]
    exact .im f _

/-! ### The command map against the encoder -/

/-- What the format of a listed command code spells is well formed and has the word of that code and those fields: code
by code. -/
theorem encode_of_spells {op : BitVec 8} {sh : Shape} {i : Instr} {a b : BitVec 4} {m : BitVec 16}
    (hm : commandMap op = some sh) (h : sh.Spells i a b m) : i.WellFormed ∧ encode i = mkWord op a b m := by
  unfold commandMap at hm
  split at hm <;> cases hm <;> cases h <;> exact ⟨by trivial, rfl⟩

/-- A well-formed command is spelt by the format that its own command code selects: command by command. -/
theorem exists_spells {i : Instr} (h : i.WellFormed) :
    ∃ sh a b m, commandMap (opField (encode i)) = some sh ∧ sh.Spells i a b m := by
  cases i <;> rw [encode, opField_mkWord] <;> exact ⟨_, _, _, _, rfl, by constructor <;> exact h⟩

/-- Settles O1: the fields of a command's word are those its format spells. -/
theorem decodeInvertsEncode : Obligations.DecodeInvertsEncode := by
  intro i hi
  obtain ⟨sh, a, b, m, hm, hs⟩ := exists_spells hi
  obtain ⟨-, hw⟩ := encode_of_spells hm hs
  rw [decode_of_op rfl hm]
  apply Shape.Spells.read
  rw [hw]
  simpa using hs

/-- Settles O2: a word is its command code and the fields its format spells. -/
theorem encodeInvertsDecode : Obligations.EncodeInvertsDecode := by
  intro w i h
  obtain ⟨sh, hm, hread⟩ := Option.bind_eq_some_iff.mp h
  obtain ⟨hwf, hw⟩ := encode_of_spells hm (Shape.spells_of_read hread)
  exact ⟨hwf, hw.trans (mkWord_fields w)⟩

/-! ### The opcode table -/

/-- The word of every well-formed command lies in the row of its mnemonic. -/
theorem encodesRow (i : Instr) : Laws.EncodesRow.Statement i := by
  open Laws.EncodesRow in
  cases i
  exacts [nop, ldi _ _, connReset, phaseSet _, threshSet _, dispatch, bldClr, paySeek _, payLoad, encVarint _,
    decVarint _, encByte _, decByte _, encUbyte _, decUbyte _, encShort _, decShort _, encUshort _, decUshort _,
    encInt _, decInt _, encLong _, decLong _, encBool _, decBool _, encFloat _, decFloat _, encDouble _, decDouble _,
    encString _ _, decString _ _, encUuid _, decUuid _, encRaw _ _, decRaw _ _, uuidFmt _ _, uuidParse _ _,
    frameEnc _, frameDec]

/-- Settles O3: a word that decodes is its command's word, which lies in the command's row; a word in a row decodes. -/
theorem decodeFollowsTheMasks : Obligations.DecodeFollowsTheMasks := by
  refine fun w => ⟨fun i h => ?_, fun h r hr hw => ?_⟩
  · obtain ⟨hwf, rfl⟩ := encodeInvertsDecode w i h
    obtain ⟨r, hr, hname, hrow⟩ := encodesRow i
    exact ⟨r, hr, hname, hrow hwf⟩
  · have hsome := (decode_isSome_iff w).mpr ⟨r, hr, hw⟩
    rw [h] at hsome
    cases hsome

/-- Settles O4, word by word. -/
theorem wordsOfTheSpecDecode : Obligations.WordsOfTheSpecDecode := by
  unfold Obligations.WordsOfTheSpecDecode
  decide

end Sys2Proof
end

section
/-! PROOFS. How a command ends and what it records (`60_exceptions.md` section 3), and what commands may write
(`10_state.md`). -/

namespace Sys2Proof.Machine

/-! ### The engine's step -/

/-- Settles O5: the engine's move stands first in the schedule, or the schedule is empty. -/
theorem stepRunsTheDecodedCommand : Obligations.StepRunsTheDecodedCommand := by
  refine ⟨fun s i hr hb hd => ⟨fun hs => ?_, fun l hs => ?_⟩, fun s hb hs => ?_⟩
  · rw [step_of_sched_nil hs, engineStep_run hr hb hd]
  · rw [step_of_sched_cons hs]
    exact engineStep_run (s := s.setSched l) hr hb hd
  · rw [step_of_sched_nil hs, engineStep, hb, Bool.not_false, Bool.or_true]
    rfl

/-! ### Error codes as numbers -/

/-- Settles O12, word by word. -/
theorem errorWordsFollowTheTable : Obligations.ErrorWordsFollowTheTable := by
  unfold Obligations.ErrorWordsFollowTheTable
  decide

/-- The ERR word of an error holds its cause below its sub-cause (R337). -/
theorem CmdError.toNat_errWord (e : CmdError) : e.errWord.toNat = e.cause.code + 256 * e.sub := by
  cases e <;> decide

/-- The ESTICKY bit of an error is its cause's alone (R47). -/
theorem CmdError.getLsbD_stickyBit (e : CmdError) : ∀ c < 32, e.stickyBit.getLsbD c = (c == e.cause.code) := by
  rw [CmdError.stickyBit]
  cases e.cause <;> decide

/-- The cause that closes the block has the code 1 (R331). -/
theorem Cause.beq_transport (c : Cause) : (c == .transport) = (c.code == 1) := by
  cases c <;> rfl

/-! ### How a command ends -/

/-- The registers that only a completion writes are as they were. -/
structure KeepsRecords (s u : State) : Prop where
  err : u.err = s.err
  errinfo : u.errinfo = s.errinfo
  esticky : u.esticky = s.esticky
  ip : u.ip = s.ip
  cmdcnt : u.cmdcnt = s.cmdcnt

/-- A command has not ended, which only FRAME.DEC does not do in one step, or it ends without or with an error in a
state that its rule left, in which nothing is recorded yet. -/
inductive CommandEnd (i : Instr) (s t : State) : Prop where
  | goesOn (hi : i = .frameDec) (hk : KeepsRecords s t) (hb : t.busy = s.busy) (hc : t.closed = s.closed)
  | ok (u : State) (hk : KeepsRecords s u) (hc : u.closed = (s.closed && i != .connReset)) (ht : t = u.completeOk)
  | error (u : State) (e : Raise) (hk : KeepsRecords s u) (hc : u.closed = s.closed) (ht : t = u.completeErr e)

/-- A command that is not CONN.RESET and ends without error leaves CLOSED. -/
theorem CommandEnd.ok_of_ne {i : Instr} {s t u : State} (hi : i ≠ .connReset) (hk : KeepsRecords s u)
    (hc : u.closed = s.closed) (ht : t = u.completeOk) : CommandEnd i s t :=
  .ok u hk (by rw [hc, bne_iff_ne.mpr hi, Bool.and_true]) ht

/-- Up to the point where it asks for a byte, FRAME.DEC records nothing. -/
theorem AsksAt.keepsRecords {s u : State} {p : RxProgress} (ha : AsksAt s u p) :
    KeepsRecords s u ∧ u.busy = s.busy ∧ u.closed = s.closed := by
  obtain ⟨tl, hu⟩ := ha.frame
  rw [hu]
  exact ⟨⟨rfl, rfl, rfl, rfl, rfl⟩, rfl, rfl⟩

/-- A FRAME.DEC that fails ends with an error. -/
theorem CommandEnd.frameFail {s u : State} (hk : KeepsRecords s u) (hc : u.closed = s.closed) (ftlen fdlen : W32)
    (e : Raise) : CommandEnd .frameDec s (u.frameFail ftlen fdlen e) :=
  .error (u.frameFailed ftlen fdlen) e ⟨hk.err, hk.errinfo, hk.esticky, hk.ip, hk.cmdcnt⟩ hc rfl

/-- How one engine step of FRAME.DEC ends. -/
theorem exec_frameDec_end {s t : State} (h : exec .frameDec s = .next t) : CommandEnd .frameDec s t := by
  obtain ⟨-, -, rfl⟩ | ⟨u, p, ha, h⟩ := execFrameDec_cases h
  · exact .error s _ ⟨rfl, rfl, rfl, rfl, rfl⟩ rfl rfl
  obtain ⟨hk, hb, hc⟩ := ha.keepsRecords
  obtain ⟨-, -, -, rfl⟩ | ⟨-, -, rfl⟩ | ⟨-, -, -, rfl⟩ | ⟨b, q, -, rfl⟩ := h
  · exact .goesOn rfl hk hb hc
  · exact .frameFail hk hc _ _ _
  · exact .frameFail hk hc _ _ _
  · have hq : KeepsRecords s (u.setRxq q) := ⟨hk.err, hk.errinfo, hk.esticky, hk.ip, hk.cmdcnt⟩
    obtain ⟨r, hr, -⟩ | ⟨ftlen, fdlen, e, he, -⟩ | ⟨tlen, f, _, hf, -⟩ := rxByte_cases p b (u.setRxq q)
    · rw [hr]
      exact .goesOn rfl ⟨hq.err, hq.errinfo, hq.esticky, hq.ip, hq.cmdcnt⟩ hb hc
    · rw [he]
      exact .frameFail hq hc _ _ _
    · exact .ok_of_ne (u := (u.setRxq q).frameDone (word32 tlen) f) (by decide)
        ⟨hq.err, hq.errinfo, hq.esticky, hq.ip, hq.cmdcnt⟩ hc hf

/-- How a command ends. -/
theorem exec_end {i : Instr} {s t : State} (h : exec i s = .next t) : CommandEnd i s t := by
  by_cases h1 : i = .nop
  · subst h1; cases h
    exact .ok_of_ne (by decide) ⟨rfl, rfl, rfl, rfl, rfl⟩ rfl rfl
  by_cases h2 : i = .connReset
  · subst h2; cases h
    exact .ok s.newConnection ⟨rfl, rfl, rfl, rfl, rfl⟩ (Bool.and_false _).symm rfl
  by_cases h3 : i = .frameDec
  · subst h3
    exact exec_frameDec_end h
  obtain ⟨-, ht⟩ | ⟨-, e, ht⟩ | ⟨-, u, hw, ht⟩ := exec_oneStep_cases h1 h2 h3 h
  · exact .error s _ ⟨rfl, rfl, rfl, rfl, rfl⟩ rfl ht
  · obtain ⟨hk, hc⟩ : KeepsRecords s (if i = .dispatch then s.setRoute 0 else s) ∧
        (if i = .dispatch then s.setRoute 0 else s).closed = s.closed := by
      split <;> exact ⟨⟨rfl, rfl, rfl, rfl, rfl⟩, rfl⟩
    exact .error _ e hk hc ht
  · have hu := wrote_frame hw
    refine .ok_of_ne h2 (u := u) ?_ (by rw [hu]) ht
    rw [hu]
    exact ⟨rfl, rfl, rfl, rfl, rfl⟩

/-- Settles O10: what the two completions record over a state in which nothing is recorded yet. -/
theorem completionRecordsTheOutcome : Obligations.CompletionRecordsTheOutcome := by
  intro i s t hs h hb
  have hcount (n : W32) : (n + 1).toNat = (n.toNat + 1) % 2 ^ 32 := by rw [BitVec.toNat_add]; rfl
  cases exec_end h with
  | goesOn _ _ hbusy => cases (hbusy.trans hs).symm.trans hb
  | ok u hk hc ht =>
    have hip : ∀ p : BitVec 2, (p ||| 1).getLsbD 0 = true ∧ (p ||| 1).getLsbD 1 = p.getLsbD 1 := by decide
    subst ht
    refine ⟨?_, rfl, .inl ⟨rfl, rfl, (hip _).1, ?_, hk.esticky, hc⟩⟩
    · rw [← hk.cmdcnt]
      exact hcount _
    · rw [← hk.ip]
      exact (hip _).2
  | error u e hk hc ht =>
    have hip : ∀ p : BitVec 2, p ||| 3 = 3 := by decide
    subst ht
    refine ⟨?_, rfl, .inr ⟨e.error, e.error.toNat_errWord, fun c hlt => ?_, hip _, ?_⟩⟩
    · rw [← hk.cmdcnt]
      exact hcount _
    · rw [State.completeErr_esticky, BitVec.getLsbD_or, hk.esticky, CmdError.getLsbD_stickyBit _ c hlt]
    · rw [State.completeErr_closed, hc, Cause.beq_transport]

/-! ### The closed block -/

/-- TransportError(Closed) recorded over a closed block. -/
theorem completeErr_closed {s : State} (hc : s.closed = true) :
    s.completeErr ⟨.closed, 0⟩ = { s with
      err := 0x00000401
      errinfo := 0
      esticky := s.esticky ||| 2
      ip := s.ip ||| 3
      cmdcnt := s.cmdcnt + 1
      busy := false
      rx := none } := by
  have hclosed : (s.closed || CmdError.closed.cause == .transport) = s.closed := by rw [hc]; rfl
  have herr : CmdError.closed.errWord = 0x00000401 := by decide
  have hbit : CmdError.closed.stickyBit = 2 := by decide
  rw [State.completeErr, hclosed, herr, hbit]

/-- Settles O13: the closed check comes before the rule, of a FRAME.DEC before its first step. -/
theorem closedBlockTurnsCommandsAway : Obligations.ClosedBlockTurnsCommandsAway := by
  intro i s hc h1 h2 h3
  rw [← completeErr_closed hc]
  by_cases hi : i = .frameDec
  · subst hi
    simp only [exec, execFrameDec, h3 rfl, hc, if_true]
  · obtain ⟨r, hr, -⟩ := exec_oneStep i s h1 h2 hi
    rw [hr, performOr_closed hc]

/-! ### What no command writes -/

/-- The registers that the host alone writes, the reset input, and the fields that are the model's own. -/
def State.hostPart (s : State) :=
  (s.rt, s.ie, s.ovr, s.cur, s.rst, s.params, s.resets, s.bus, s.wire, s.sched)

/-- One engine step of FRAME.DEC writes no other field than these. -/
theorem exec_frameDec_frame {s t : State} (h : exec .frameDec s = .next t) :
    t = { s with
      busy := t.busy
      closed := t.closed
      fvalid := t.fvalid
      fcomp := t.fcomp
      err := t.err
      errinfo := t.errinfo
      esticky := t.esticky
      ip := t.ip
      cmdcnt := t.cmdcnt
      opc := t.opc
      rpos := t.rpos
      ftlen := t.ftlen
      fdlen := t.fdlen
      pay := t.pay
      rxq := t.rxq
      tl := t.tl
      rx := t.rx } := by
  obtain ⟨-, -, rfl⟩ | ⟨u, p, ha, h⟩ := execFrameDec_cases h
  · rfl
  obtain ⟨tl, rx, rfl⟩ : ∃ tl rx, u = { s with tl := tl, rx := rx } := ha.frame.imp fun _ hu => ⟨u.rx, hu⟩
  obtain ⟨-, -, -, rfl⟩ | ⟨-, -, rfl⟩ | ⟨-, -, -, rfl⟩ | ⟨b, q, -, rfl⟩ := h
  · rfl
  · rfl
  · rfl
  · generalize hu : State.setRxq _ q = u
    obtain ⟨r, hr, -⟩ | ⟨ftlen, fdlen, e, he, -⟩ | ⟨tlen, f, _, hf, -⟩ := rxByte_cases p b u
    · rw [hr, ← hu]; rfl
    · rw [he, ← hu]; rfl
    · rw [hf, ← hu]; rfl

/-- Every command keeps the host's part. -/
theorem exec_hostPart {i : Instr} {s t : State} (h : exec i s = .next t) : t.hostPart = s.hostPart := by
  by_cases h1 : i = .nop
  · subst h1; cases h; rfl
  by_cases h2 : i = .connReset
  · subst h2; cases h; rfl
  by_cases h3 : i = .frameDec
  · subst h3
    rw [exec_frameDec_frame h]
    rfl
  obtain ⟨-, rfl⟩ | ⟨-, e, rfl⟩ | ⟨-, u, hw, rfl⟩ := exec_oneStep_cases h1 h2 h3 h
  · rfl
  · split <;> rfl
  · rw [wrote_frame hw]
    rfl

/-- Settles O15, field by field of the host's part. -/
theorem commandsKeepWhatTheHostSets : Obligations.CommandsKeepWhatTheHostSets := by
  intro i s t h
  have hpart := exec_hostPart h
  simpa only [State.hostPart, Prod.mk.injEq] using hpart

end Sys2Proof.Machine
end

section
/-! PROOFS. The registers, buffers, queues and flags that only some commands write (`10_state.md` sections 1 and 3 to
5). -/

namespace Sys2Proof.Machine

/-- Everything that a step of command `i` from `s` to `t` has changed, but for what every completion writes, is among
what the rule of `i` names. -/
structure WritesOnlyNamed (i : Instr) (s t : State) : Prop where
  x : ∀ r : Reg, t.x[r] ≠ s.x[r] → r ∈ i.destinations
  phase : t.phase ≠ s.phase → i = .dispatch ∨ i = .connReset ∨ ∃ imm, i = .phaseSet imm := by simp
  thresh : t.thresh ≠ s.thresh → i = .dispatch ∨ i = .connReset ∨ ∃ ra, i = .threshSet ra := by simp
  opc : t.opc ≠ s.opc → i = .frameDec := by simp
  route : t.route ≠ s.route → i = .dispatch ∨ i = .connReset := by simp
  pay : t.pay ≠ s.pay → i = .frameDec ∨ i = .connReset ∨ i = .payLoad := by simp
  rxq : t.rxq ≠ s.rxq → i = .frameDec ∨ i = .connReset := by simp
  txq : t.txq ≠ s.txq → i = .connReset ∨ ∃ ra, i = .frameEnc ra := by simp
  scr : t.scr ≠ s.scr → (∃ ra rb, i = .decString ra rb) ∨ (∃ ra rb, i = .decRaw ra rb) ∨ ∃ ra rb, i = .uuidFmt ra rb
    := by simp
  bld : t.bld ≠ s.bld → i = .connReset ∨ i = .bldClr ∨ (∃ ra, i = .frameEnc ra) ∨
    i.isEnc = true ∧ ∃ b, t.bld = s.bld ++ b := by simp [Instr.isEnc, Instr.isDec]
  rpos : t.rpos ≠ s.rpos → i = .frameDec ∨ i = .connReset ∨ i = .payLoad ∨ (∃ ra, i = .paySeek ra) ∨ i.isDec = true
    := by simp [Instr.isEnc, Instr.isDec]
  lastn : t.lastn ≠ s.lastn → i = .connReset ∨ (∃ ra, i = .frameEnc ra) ∨ i.isEnc = true ∨ i.isDec = true
    := by simp [Instr.isEnc, Instr.isDec]
  ftlen : t.ftlen ≠ s.ftlen ∨ t.fdlen ≠ s.fdlen → i = .frameDec ∨ i = .connReset := by simp
  tl : t.tl ≠ s.tl → i = .frameDec ∨ ∃ ra, i = .frameEnc ra := by simp
  fcomp : t.fcomp ≠ s.fcomp → i = .frameDec ∨ i = .connReset := by simp
  fvalid : t.fvalid ≠ s.fvalid → i = .frameDec ∨ i = .connReset ∨ i = .payLoad := by simp
  stream : t.rxend ≠ s.rxend ∨ t.rxerr ≠ s.rxerr ∨ t.txerr ≠ s.txerr → i = .connReset := by simp

/-- A register write changes no other register. -/
theorem eq_of_setReg_ne {s : State} {r q : Reg} {v : W64} (h : (s.setReg r v).x[q] ≠ s.x[q]) : q = r := by
  by_contra hne
  exact h (reg_setReg_ne s v (Ne.symm hne))

/-- A write of a pair changes no other register. -/
theorem mem_pair_of_setReg_ne {s : State} {r q : Reg} {v w : W64}
    (h : ((s.setReg r v).setReg (pairLow r) w).x[q] ≠ s.x[q]) : q ∈ [r, r + 1] := by
  by_cases hlow : (s.setReg r v).x[q] = s.x[q]
  · rw [← hlow] at h
    exact List.mem_pair.mpr (.inr (eq_of_setReg_ne h))
  · exact List.mem_pair.mpr (.inl (eq_of_setReg_ne hlow))

/-- What a command of one engine step writes is what its rule names. -/
theorem writesOnlyNamed_of_wrote {i : Instr} {s u : State} (h : Wrote i s u) : WritesOnlyNamed i s u := by
  cases i <;> simp only [Wrote] at h
  case ldi ra imm =>
    subst h
    exact { x := fun r hr => List.mem_singleton.mpr (eq_of_setReg_ne hr) }
  case phaseSet imm =>
    obtain ⟨-, rfl | rfl⟩ := h <;> exact { x := by simp }
  case dispatch =>
    obtain ⟨-, r, rfl | ⟨v, rfl⟩ | ⟨-, rfl⟩⟩ := h <;> exact { x := by simp }
  case threshSet | bldClr | payLoad =>
    subst h
    exact { x := by simp }
  case paySeek =>
    obtain ⟨-, rfl⟩ := h
    exact { x := by simp }
  case frameEnc =>
    obtain ⟨-, f, -, rfl⟩ := h
    exact { x := by simp }
  case decVarint | decByte | decUbyte | decShort | decUshort | decInt | decLong | decBool | decFloat | decDouble =>
    obtain ⟨v, n, -, -, rfl⟩ := h
    exact { x := fun r hr => List.mem_singleton.mpr (eq_of_setReg_ne hr) }
  case decUuid =>
    obtain ⟨v, w, -, rfl⟩ := h
    exact { x := fun r hr => mem_pair_of_setReg_ne hr }
  case decString =>
    obtain ⟨v, n, b, -, -, rfl⟩ := h
    exact { x := fun r hr => List.mem_singleton.mpr (eq_of_setReg_ne hr) }
  case decRaw =>
    obtain ⟨n, b, -, -, rfl⟩ := h
    exact { x := by simp }
  case uuidFmt =>
    obtain ⟨b, -, rfl⟩ := h
    exact { x := by simp }
  case uuidParse =>
    obtain ⟨v, w, rfl⟩ := h
    exact { x := fun r hr => mem_pair_of_setReg_ne hr }
  case encVarint | encByte | encUbyte | encShort | encUshort | encInt | encLong | encBool | encFloat | encDouble |
      encString | encUuid | encRaw =>
    obtain ⟨b, -, rfl⟩ := h
    exact { x := by simp }

namespace WritesOnlyNamed

/-- Nothing that the rules name is among what every completion writes. -/
theorem congr {i : Instr} {s u t : State} (h : WritesOnlyNamed i s u)
    (ht : t = { u with
      closed := t.closed
      err := t.err
      errinfo := t.errinfo
      esticky := t.esticky
      ip := t.ip
      cmdcnt := t.cmdcnt
      busy := t.busy
      rx := t.rx }) : WritesOnlyNamed i s t := by
  obtain ⟨h1, h2, h3, h4, h5, h6, h7, h8, h9, h10, h11, h12, h13, h14, h15, h16, h17⟩ := h
  rw [ht]
  exact ⟨h1, h2, h3, h4, h5, h6, h7, h8, h9, h10, h11, h12, h13, h14, h15, h16, h17⟩

end WritesOnlyNamed

/-- Every command writes only what its rule names, besides what every completion writes. -/
theorem exec_writesOnlyNamed {i : Instr} {s t : State} (h : exec i s = .next t) : WritesOnlyNamed i s t := by
  by_cases h1 : i = .nop
  · subst h1; cases h
    exact { x := by simp }
  by_cases h2 : i = .connReset
  · subst h2; cases h
    exact { x := by simp }
  by_cases h3 : i = .frameDec
  · subst h3
    rw [exec_frameDec_frame h]
    exact { x := by simp }
  obtain ⟨-, rfl⟩ | ⟨-, e, rfl⟩ | ⟨-, u, hw, rfl⟩ := exec_oneStep_cases h1 h2 h3 h
  · exact { x := by simp }
  · split
    · subst i
      exact { x := by simp }
    · exact { x := by simp }
  · exact (writesOnlyNamed_of_wrote hw).congr rfl

/-- Settles O16, field by field. -/
theorem onlyNamedCommandsWrite : Obligations.OnlyNamedCommandsWrite := by
  intro i s t h
  obtain ⟨hx, hphase, hthresh, hopc, hroute, hpay, hrxq, htxq, hscr, hbld, hrpos, hlastn, hftlen, htl, hfcomp, hfvalid,
    hstream⟩ := exec_writesOnlyNamed h
  have hrx : t.rx ≠ none → i = .frameDec := by
    cases exec_end h with
    | goesOn hi => exact fun _ => hi
    | ok u _ _ ht => exact fun hne => absurd (ht ▸ u.completeOk_rx) hne
    | error u e _ _ ht => exact fun hne => absurd (ht ▸ u.completeErr_rx e) hne
  exact ⟨hx, hphase, hthresh, hopc, hroute, hpay, hrxq, htxq, hscr, hbld, hrpos, hlastn, hftlen, htl, hrx, hfcomp,
    hfvalid, hstream⟩

end Sys2Proof.Machine
end

section
/-! PROOFS. What steps of every agent do to the connection: CLOSED (`60_exceptions.md` section 3), PHASE
(`10_state.md` section 3), and the bytes on their way to the wire (`20_memory.md` sections 2 and 6). -/

namespace Sys2Proof.Machine

/-! ### Kinds of steps -/

/-- What steps can do to the connection. The last kind stands for every move that leaves it alone: a read, a write other
than an effective stop request, the moves of the RX transport, the fall of the reset input, and waiting. -/
inductive StepKind (s t : State) : Prop where
  | reset (l : List Move) (hs : s.ResetNext) (ht : t = (s.setSched l).enterReset)
  | command (i : Instr) (l : List Move) (hi : s.Runs i) (ht : exec i (s.setSched l) = .next t)
  | illegal (l : List Move) (ht : t = (s.setSched l).completeErr ⟨.reservedEncoding, s.cur⟩)
  | stop (l : List Move) (ftlen info : W32) (a : BusAnswer)
      (ht : t = ((s.setSched l).frameFail ftlen 0 ⟨.stopped, info⟩).answer a)
  | txPop (l : List Move) (b : Byte) (q : Bytes) (hq : s.txq = b :: q) (ht : t = (s.setSched l).popTx b q)
  | txFail (l : List Move) (hs : s.TxFailNext) (ht : t = (s.setSched l).failTx)
  | other (ht : t = { s with
      x := t.x
      busy := t.busy
      ovr := t.ovr
      ie := t.ie
      ip := t.ip
      rxend := t.rxend
      rxerr := t.rxerr
      rt := t.rt
      scr := t.scr
      rxq := t.rxq
      cur := t.cur
      rx := t.rx
      rst := t.rst
      bus := t.bus
      sched := t.sched })

/-- The kind of a step of the engine. -/
theorem stepKind_engine {s t : State} {l : List Move} (hl : s.sched = [] ∧ l = [] ∨ s.sched = .engine :: l)
    (h : engineStep (s.setSched l) = .next t) : StepKind s t := by
  have hnext : s.EngineNext := hl.imp (·.1) fun hs => ⟨l, hs⟩
  obtain ⟨-, rfl⟩ | ⟨hr, hb, ⟨i, hd, h⟩ | ⟨-, rfl⟩⟩ := engineStep_cases h
  · exact .other rfl
  · exact .command i l ⟨hnext, hr, hb, hd⟩ h
  · exact .illegal l rfl

/-- The kind of a step that is a write of the host. -/
theorem stepKind_busWrite (s : State) (l : List Move) (w : BusWidth) (a : BitVec 16) (v : W32) :
    StepKind s ((s.setSched l).busWrite w a v) := by
  rw [State.busWrite]
  split
  · obtain h | ⟨-, h⟩ | ⟨-, _, _, h⟩ | ⟨-, -, h⟩ | ⟨-, -, h⟩ | h | h | ⟨-, h⟩ | ⟨-, -, h⟩ :=
      writeWord_cases (s.setSched l) a.toNat v <;> rw [h]
    case inr.inr.inr.inr.inl =>
      rw [State.stopRx]
      split
      · exact .stop l _ _ _ rfl
      · exact .other rfl
    all_goals exact .other rfl
  · exact .other rfl

/-- Every step is of one of the kinds. -/
theorem stepKind {s t : State} (h : step s = .next t) : StepKind s t := by
  obtain ⟨l, hl, h⟩ | ⟨w, a, l, -, rfl⟩ | ⟨l, hs, rfl⟩ | ⟨l, -, rfl⟩ | ⟨-, m, l, -, rfl⟩ |
    ⟨-, ⟨w, a, v, l, -, rfl⟩ | ⟨b, l, -, rfl⟩ | ⟨l, -, rfl⟩ | ⟨l, -, rfl⟩ | ⟨l, -, rfl⟩ | ⟨l, hs, rfl⟩⟩ := step_cases h
  · exact stepKind_engine hl h
  · obtain ⟨b, hb⟩ := busRead_eq_answer (s.setSched l) w a
    rw [hb]
    exact .other rfl
  · exact .reset l ⟨l, hs⟩ rfl
  · exact .other rfl
  · exact .other rfl
  · exact stepKind_busWrite s l w a v
  · obtain ⟨-, h⟩ | ⟨-, -, h⟩ := rxPush_cases (s.setSched l) b <;> rw [h] <;> exact .other rfl
  · exact .other rfl
  · exact .other rfl
  · obtain ⟨-, h⟩ | ⟨b, q, hq, h⟩ := txPop_cases (s.setSched l) <;> rw [h]
    · exact .other rfl
    · exact .txPop l b q hq rfl
  · obtain ⟨-, h⟩ | ⟨-, h⟩ := txFail_cases (s.setSched l) <;> rw [h]
    · exact .other rfl
    · exact .txFail l ⟨l, hs⟩ rfl

/-! ### CLOSED -/

/-- A completion with error that closes an open block records the cause 1. -/
theorem completeErr_closes {u : State} {e : Raise} (hu : u.closed = false) (h : (u.completeErr e).closed = true) :
    (u.completeErr e).err.toNat % 16 = 1 := by
  rw [State.completeErr_closed, hu, Bool.false_or, Cause.beq_transport, beq_iff_eq] at h
  rw [State.completeErr_err, CmdError.toNat_errWord, h]
  omega

/-- A completion with error leaves a closed block closed. -/
theorem completeErr_stays_closed {u : State} (e : Raise) (hu : u.closed = true) : (u.completeErr e).closed = true := by
  rw [State.completeErr_closed, hu, Bool.true_or]

/-- What a command can do to CLOSED. -/
theorem exec_closed {i : Instr} {s t : State} (h : exec i s = .next t) :
    (s.closed = true → t.closed = false → i = .connReset) ∧
    (s.closed = false → t.closed = true → t.err.toNat % 16 = 1) := by
  cases exec_end h with
  | goesOn _ _ _ hc =>
    rw [hc]
    exact ⟨fun h1 h2 => absurd (h1.symm.trans h2) (by decide), fun h1 h2 => absurd (h1.symm.trans h2) (by decide)⟩
  | ok u _ hc ht =>
    subst ht
    rw [State.completeOk_closed, hc]
    refine ⟨fun h1 h2 => ?_, fun h1 h2 => ?_⟩
    · rw [h1, Bool.true_and, bne_eq_false_iff_eq] at h2
      exact h2
    · rw [h1, Bool.false_and] at h2
      cases h2
  | error u e _ hc ht =>
    subst ht
    refine ⟨fun h1 h2 => ?_, fun h1 h2 => completeErr_closes (hc.trans h1) h2⟩
    cases (completeErr_stays_closed e (hc.trans h1)).symm.trans h2

/-- Settles O14: of the kinds of steps only a command, a completion with error and hardware reset write CLOSED. -/
theorem closedChangesOnlyAsSaid : Obligations.ClosedChangesOnlyAsSaid := by
  intro s t h
  cases stepKind h with
  | reset l hs ht => exact ⟨fun _ _ => .inl hs, fun _ h2 => by rw [ht] at h2; cases h2⟩
  | command i l hi ht =>
    obtain ⟨hopen, hclose⟩ := exec_closed ht
    refine ⟨fun h1 h2 => .inr ?_, hclose⟩
    obtain rfl := hopen h1 h2
    exact hi
  | illegal l ht =>
    subst ht
    exact ⟨fun h1 h2 => absurd ((completeErr_stays_closed (u := s.setSched l) _ h1).symm.trans h2) (by decide),
      fun h1 h2 => completeErr_closes (u := s.setSched l) h1 h2⟩
  | stop l ftlen info a ht =>
    subst ht
    refine ⟨fun h1 h2 => ?_, fun h1 h2 => completeErr_closes (u := (s.setSched l).frameFailed ftlen 0) h1 h2⟩
    cases (completeErr_stays_closed (u := (s.setSched l).frameFailed ftlen 0) _ h1).symm.trans h2
  | txPop | txFail | other =>
    have hc : t.closed = s.closed := by
      rename_i ht
      rw [ht] <;> rfl
    rw [hc]
    exact ⟨fun h1 h2 => absurd (h1.symm.trans h2) (by decide), fun h1 h2 => absurd (h1.symm.trans h2) (by decide)⟩

/-! ### PHASE -/

/-- What a command can do to PHASE. -/
theorem exec_phase {i : Instr} {s t : State} (h : exec i s = .next t) (hi : i ≠ .connReset) :
    t.phase = s.phase ∨
    (s.phase = .handshake ∧ (t.phase = .status ∨ t.phase = .login)) ∨
    (i = .dispatch ∧ s.phase = .login ∧ t.phase = .play) := by
  by_cases hne : t.phase = s.phase
  · exact .inl hne
  right
  obtain rfl | hreset | ⟨imm, rfl⟩ := (exec_writesOnlyNamed h).phase hne
  · obtain ⟨-, rfl⟩ | ⟨-, e, rfl⟩ | ⟨-, u, hw, rfl⟩ := exec_oneStep_cases (by decide) (by decide) (by decide) h
    · exact absurd rfl hne
    · exact absurd rfl hne
    · obtain ⟨-, r, rfl | ⟨v, rfl⟩ | ⟨hp, rfl⟩⟩ := hw
      · exact absurd rfl hne
      · exact absurd rfl hne
      · exact .inr ⟨rfl, hp, rfl⟩
  · exact absurd hreset hi
  · obtain ⟨-, rfl⟩ | ⟨-, e, rfl⟩ | ⟨-, u, hw, rfl⟩ := exec_oneStep_cases (by simp) (by simp) (by simp) h
    · exact absurd rfl hne
    · exact absurd rfl hne
    · obtain ⟨hp, rfl | rfl⟩ := hw
      · exact .inl ⟨hp, .inl rfl⟩
      · exact .inl ⟨hp, .inr rfl⟩

/-- A step that is neither a command nor hardware reset leaves PHASE. -/
theorem step_phase {s t : State} (h : step s = .next t) (hr : ¬ s.ResetNext) :
    t.phase = s.phase ∨ ∃ i l, s.Runs i ∧ exec i (s.setSched l) = .next t := by
  cases stepKind h with
  | reset l hs ht => exact absurd hs hr
  | command i l hi ht => exact .inr ⟨i, l, hi, ht⟩
  | illegal l ht => exact .inl (ht ▸ rfl)
  | stop l ftlen info a ht => exact .inl (ht ▸ rfl)
  | txPop l b q hq ht => exact .inl (ht ▸ rfl)
  | txFail l hs ht => exact .inl (ht ▸ rfl)
  | other ht => exact .inl (by rw [ht])

/-- Settles O17: PHASE.SET starts from Handshake, DISPATCH from Login, and nothing else writes PHASE. -/
theorem phaseMovesForward : Obligations.PhaseMovesForward := by
  intro s t h hr hc
  obtain heq | ⟨i, l, hi, ht⟩ := step_phase h hr
  · exact ⟨.inl heq, fun h1 h2 => absurd (heq.symm.trans h1) h2⟩
  have hne : i ≠ .connReset := by
    rintro rfl
    exact hc hi
  obtain heq | ⟨hp, htgt⟩ | ⟨rfl, hp, hplay⟩ := exec_phase ht hne
  · exact ⟨.inl heq, fun h1 h2 => absurd (heq.symm.trans h1) h2⟩
  · change s.phase = .handshake at hp
    obtain htgt | htgt := htgt <;> rw [hp, htgt] <;> exact ⟨.inr (by decide), nofun⟩
  · change s.phase = .login at hp
    rw [hp, hplay]
    exact ⟨.inr (by decide), fun _ _ => ⟨rfl, hi⟩⟩

/-! ### The wire -/

/-- What a command can do to TXQ. -/
theorem exec_txq {i : Instr} {s t : State} (h : exec i s = .next t) :
    t.txq = s.txq ∨ (i = .connReset ∧ t.txq = []) ∨
    ∃ ra f, i = .frameEnc ra ∧ s.closed = false ∧
      frameBytes Config.zip s.thresh (BitVec.ofNat 32 s.x[ra].toNat) s.bld = .ok f ∧ t.txq = s.txq ++ f := by
  by_cases hne : t.txq = s.txq
  · exact .inl hne
  right
  obtain rfl | ⟨ra, rfl⟩ := (exec_writesOnlyNamed h).txq hne
  · cases h
    exact .inl ⟨rfl, rfl⟩
  · obtain ⟨-, rfl⟩ | ⟨-, e, rfl⟩ | ⟨hc, u, ⟨-, f, hf, rfl⟩, rfl⟩ :=
      exec_oneStep_cases (by simp) (by simp) (by simp) h
    · exact absurd rfl hne
    · exact absurd rfl hne
    · rw [trunc_eq] at hf
      exact .inr ⟨ra, f, rfl, hc, hf, rfl⟩

/-- Settles O30: TXQ grows by FRAME.ENC alone, and what leaves it at its head goes on the wire. -/
theorem wireCarriesWholeFrames : Obligations.WireCarriesWholeFrames := by
  intro s t h
  cases stepKind h with
  | reset l hs ht => exact .inr (.inr ⟨.inl hs, ht ▸ rfl, ht ▸ rfl⟩)
  | command i l hi ht =>
    have hwire : t.wire = s.wire := by
      have hpart := exec_hostPart ht
      simp only [State.hostPart, Prod.mk.injEq] at hpart
      obtain ⟨-, -, -, -, -, -, -, -, hwire, -⟩ := hpart
      exact hwire
    obtain hq | ⟨rfl, hq⟩ | ⟨ra, f, rfl, hc, hf, hq⟩ := exec_txq ht
    · exact .inl (by rw [hwire, hq]; rfl)
    · exact .inr (.inr ⟨.inr (.inl hi), hwire, hq⟩)
    · exact .inr (.inl ⟨ra, f, hi, hc, hf, hwire, hq⟩)
  | illegal l ht => exact .inl (ht ▸ rfl)
  | stop l ftlen info a ht => exact .inl (ht ▸ rfl)
  | txPop l b q hq ht =>
    subst ht
    rw [State.popTx_wire, State.popTx_txq, hq, List.append_assoc]
    exact .inl rfl
  | txFail l hs ht => exact .inr (.inr ⟨.inr (.inr hs), ht ▸ rfl, ht ▸ rfl⟩)
  | other ht => exact .inl (by rw [ht])

end Sys2Proof.Machine
end

section
/-! PROOFS. The commands other than FRAME.DEC and CONN.RESET do not look at RXQ, and FRAME.DEC only at its head: an
arrival and a step of the engine may change places (`20_memory.md` R97, `44_framer.md` R269). -/

namespace Sys2Proof.Machine

/-! ### Rules that ignore their input -/

/-- The same state with another RXQ and other moves to come. -/
def State.withInput (s : State) (q : Bytes) (l : List Move) : State := (s.setSched l).setRxq q


/-- A rule that neither reads RXQ or the schedule nor writes them: with others it does the same and leaves them. -/
def IgnoresInput (r : State → Effect) : Prop :=
  ∀ (s : State) (q : Bytes) (l : List Move), r (s.withInput q l) = (r s).map (·.withInput q l)

namespace IgnoresInput

/-- A rule that writes other fields. -/
theorem ok {f : State → State} (hf : ∀ s q l, f (s.withInput q l) = (f s).withInput q l) :
    IgnoresInput fun s => .ok (f s) :=
  fun s q l => congrArg Except.ok (hf s q l)

/-- A rule that raises an error. -/
theorem error {e : State → Raise} (he : ∀ s q l, e (s.withInput q l) = e s) : IgnoresInput fun s => .error (e s) :=
  fun s q l => congrArg Except.error (he s q l)

/-- A rule that tests something else. -/
theorem ite {c : State → Prop} [∀ s, Decidable (c s)] (hc : ∀ s q l, c (s.withInput q l) = c s)
    {f g : State → Effect} (hf : IgnoresInput f) (hg : IgnoresInput g) :
    IgnoresInput fun s => if c s then f s else g s := by
  intro s q l
  have hq := hc s q l
  by_cases h : c s
  · simp only [hq, h, if_true, hf s q l]
  · simp only [hq, h, if_false, hg s q l]

/-- A rule that begins with reading something else. -/
theorem bind {α : Type} {x : State → Except Raise α} (hx : ∀ s q l, x (s.withInput q l) = x s)
    {f : α → State → Effect} (hf : ∀ a, IgnoresInput (f a)) : IgnoresInput fun s => x s >>= fun a => f a s := by
  intro s q l
  simp only [hx s q l]
  cases x s with
  | ok a => exact hf a s q l
  | error e => rfl

/-- A rule that goes on to write other fields. -/
theorem bind_ok {x : State → Effect} (hx : IgnoresInput x) {f : State → State}
    (hf : ∀ s q l, f (s.withInput q l) = (f s).withInput q l) : IgnoresInput fun s => x s >>= fun t => .ok (f t) := by
  intro s q l
  simp only [hx s q l]
  cases x s with
  | ok t => exact congrArg Except.ok (hf t q l)
  | error e => rfl

/-- `BldAppend`. -/
theorem bldAppend {b : State → Bytes} (hb : ∀ s q l, b (s.withInput q l) = b s) :
    IgnoresInput fun s => Machine.bldAppend (b s) s :=
  ite (fun s q l => congrArg (fun b => s.blen + b.length ≤ s.params.bldCap) (hb s q l))
    (ok fun s q l => congrArg (s.withInput q l).appendBld (hb s q l))
    (error fun s q l => congrArg (fun b => Raise.mk .bldFull (word32 (s.blen + b.length))) (hb s q l))

/-- `MemWrite`. -/
theorem memWrite (a : State → W64) {b : State → Bytes} (ha : ∀ s q l, a (s.withInput q l) = a s)
    (hb : ∀ s q l, b (s.withInput q l) = b s) : IgnoresInput fun s => Machine.memWrite (a s) (b s) s :=
  ite (fun s q l => congrArg₂ (fun a b => s.scrLegal a b.length) (ha s q l) (hb s q l))
    (ok fun s q l => congrArg₂ (fun (a : W64) b => (s.withInput q l).setScr (Memory.insertAll s.scr a.toNat b))
      (ha s q l) (hb s q l))
    (error fun s q l => congrArg scrRaise (ha s q l))

/-- `MemRead`. -/
theorem memRead (a : W64) (n : Nat) (s : State) (q : Bytes) (l : List Move) :
    Machine.memRead a n (s.withInput q l) = Machine.memRead a n s := by
  simp only [Machine.memRead, scrBytes_eq_map]
  rfl

/-- The DEC of a fixed width. -/
theorem decFixed (n : Nat) (ext : BitVec (8 * n) → W64) (ra : Reg) : IgnoresInput (Machine.decFixed n ext ra) :=
  bind (x := payPeek n) (fun _ _ _ => rfl) fun _ => ok fun _ _ _ => rfl

/-- The action of a route. -/
theorem routeAction (r : BitVec 8) : IgnoresInput (Machine.routeAction r) :=
  ite (fun _ _ _ => rfl) (bind (x := fun s => takeVarint s.pay) (fun _ _ _ => rfl) fun _ => ok fun _ _ _ => rfl)
    (ite (fun _ _ _ => rfl)
      (ok fun s q l => (apply_ite (fun t : State => t.withInput q l) (s.phase = .login) (s.setPhase .play) s).symm)
      (ok fun _ _ _ => rfl))

/-- The rule of DISPATCH. -/
theorem dispatchRule : IgnoresInput Machine.dispatchRule := by
  refine ite (c := fun s => (!s.fvalid) = true) (fun _ _ _ => rfl) (fun _ _ _ => rfl) fun s q l => ?_
  have hentry : (s.withInput q l).routeEntry = s.routeEntry := rfl
  simp only [hentry]
  cases s.routeEntry with
  | none =>
    exact ite (c := fun s => s.phase = .login) (fun _ _ _ => rfl)
      (error (e := fun s => ⟨.unknownOpcode, s.opc⟩) fun _ _ _ => rfl)
      (ok (f := fun s => s.setRoute 0) fun _ _ _ => rfl) s q l
  | some e => exact bind_ok (routeAction e.route) (f := fun t => t.setRoute e.route) (fun _ _ _ => rfl) s q l

end IgnoresInput

/-- The commands of one engine step ignore their input. -/
theorem exec_ignoresInput (i : Instr) (h1 : i ≠ .nop) (h2 : i ≠ .connReset) (h3 : i ≠ .frameDec) :
    ∃ r : State → Effect, IgnoresInput r ∧
      ∀ s, exec i s = .next (s.performOr (if i = .dispatch then s.setRoute 0 else s) (r s)) := by
  cases i <;> first | contradiction | refine ⟨_, ?_, fun _ => rfl⟩
  case ldi => exact .ok fun _ _ _ => rfl
  case threshSet => exact .ok fun _ _ _ => rfl
  case bldClr => exact .ok fun _ _ _ => rfl
  case payLoad => exact .ok fun _ _ _ => rfl
  case dispatch => exact .dispatchRule
  case phaseSet imm =>
    exact .bind (x := fun _ => targetPhase imm) (fun _ _ _ => rfl) fun _ =>
      .ite (fun _ _ _ => rfl) (.ok fun _ _ _ => rfl) (.error fun _ _ _ => rfl)
  case paySeek => exact .ite (fun _ _ _ => rfl) (.error fun _ _ _ => rfl) (.ok fun _ _ _ => rfl)
  case decVarint =>
    exact .bind (x := fun s => takeVarint s.payRest) (fun _ _ _ => rfl) fun _ => .ok fun _ _ _ => rfl
  case encVarint ra => exact .bldAppend (b := fun s => encodeVarint (trunc 32 (s.reg ra))) fun _ _ _ => rfl
  case encByte ra | encUbyte ra => exact .bldAppend (b := fun s => beBytes 1 (s.reg ra)) fun _ _ _ => rfl
  case encShort ra | encUshort ra => exact .bldAppend (b := fun s => beBytes 2 (s.reg ra)) fun _ _ _ => rfl
  case encInt ra | encFloat ra => exact .bldAppend (b := fun s => beBytes 4 (s.reg ra)) fun _ _ _ => rfl
  case encLong ra | encDouble ra => exact .bldAppend (b := fun s => beBytes 8 (s.reg ra)) fun _ _ _ => rfl
  case encBool ra => exact .bldAppend (b := fun s => [if s.reg ra = 0 then 0x00 else 0x01]) fun _ _ _ => rfl
  case encUuid ra => exact .bldAppend (b := fun s => uuidBytes (s.reg ra) (s.reg (pairLow ra))) fun _ _ _ => rfl
  case encString ra rb =>
    exact .bind (x := fun s => byteCount (s.reg ra)) (fun _ _ _ => rfl) fun n =>
      .bind (x := fun s => memRead (s.reg rb) n s) (fun s => IgnoresInput.memRead (s.reg rb) n s) fun b =>
        .bldAppend fun _ _ _ => rfl
  case encRaw ra rb =>
    exact .bind (x := fun s => byteCount (s.reg ra)) (fun _ _ _ => rfl) fun n =>
      .bind (x := fun s => memRead (s.reg rb) n s) (fun s => IgnoresInput.memRead (s.reg rb) n s) fun b =>
        .bldAppend fun _ _ _ => rfl
  case decByte | decUbyte | decShort | decUshort | decInt | decLong | decFloat | decDouble => exact .decFixed _ _ _
  case decBool =>
    exact .bind (x := payPeek 1) (fun _ _ _ => rfl) fun b =>
      .bind (x := fun _ => boolValue (fromBE 8 b)) (fun _ _ _ => rfl) fun _ => .ok fun _ _ _ => rfl
  case decUuid => exact .bind (x := payPeek 16) (fun _ _ _ => rfl) fun _ => .ok fun _ _ _ => rfl
  case decString ra rb =>
    exact .bind (x := fun s => takeVarint s.payRest) (fun _ _ _ => rfl) fun p =>
      .bind (x := fun _ => stringCount p.1) (fun _ _ _ => rfl) fun n =>
        .bind (x := payPeek (p.2 + n)) (fun _ _ _ => rfl) fun b =>
          .bind_ok (.memWrite (fun s => s.reg rb) (b := fun _ => b.drop p.2) (fun _ _ _ => rfl) fun _ _ _ => rfl)
            fun _ _ _ => rfl
  case decRaw ra rb =>
    exact .bind (x := fun s => byteCount (s.reg ra)) (fun _ _ _ => rfl) fun n =>
      .bind (x := payPeek n) (fun _ _ _ => rfl) fun b =>
        .bind_ok (.memWrite (fun s => s.reg rb) (b := fun _ => b) (fun _ _ _ => rfl) fun _ _ _ => rfl) fun _ _ _ => rfl
  case uuidFmt ra rb =>
    exact .memWrite (fun s => s.reg rb) (b := fun s => uuidText (s.reg ra) (s.reg (pairLow ra))) (fun _ _ _ => rfl)
      fun _ _ _ => rfl
  case uuidParse ra rb =>
    exact .bind (x := fun s => memRead (s.reg rb) 36 s) (fun s => IgnoresInput.memRead (s.reg rb) 36 s) fun b =>
      .bind (x := fun _ => parseUuid b) (fun _ _ _ => rfl) fun _ => .ok fun _ _ _ => rfl
  case frameEnc ra =>
    exact .ite (c := fun s => s.txerr = true) (fun _ _ _ => rfl) (fun _ _ _ => rfl)
      (.bind (x := fun s => frameBytes Config.zip s.thresh (trunc 32 (s.reg ra)) s.bld) (fun _ _ _ => rfl)
        fun _ => .ok fun _ _ _ => rfl)

/-- The closed check and the completion ignore the input. -/
theorem performOr_withInput (s b : State) (r : Effect) (q : Bytes) (l : List Move) :
    (s.withInput q l).performOr (b.withInput q l) (r.map (·.withInput q l)) = (s.performOr b r).withInput q l := by
  obtain ⟨hc, h⟩ | ⟨hc, t, rfl, h⟩ | ⟨hc, e, rfl, h⟩ := performOr_cases s b r <;> rw [h]
  · exact performOr_closed (s := s.withInput q l) hc _ _
  · exact performOr_ok (s := s.withInput q l) hc _ _
  · exact performOr_error (s := s.withInput q l) hc _ _

/-- A command of one engine step does the same with another input, and leaves that input. -/
theorem exec_withInput {i : Instr} {s t : State} (h2 : i ≠ .connReset) (h3 : i ≠ .frameDec) (h : exec i s = .next t)
    (q : Bytes) (l : List Move) : exec i (s.withInput q l) = .next (t.withInput q l) := by
  by_cases h1 : i = .nop
  · subst h1; cases h; rfl
  obtain ⟨r, hr, hexec⟩ := exec_ignoresInput i h1 h2 h3
  rw [hexec] at h ⊢
  injection h with h
  have hbase : (if i = .dispatch then (s.withInput q l).setRoute 0 else s.withInput q l) =
      (if i = .dispatch then s.setRoute 0 else s).withInput q l := by split <;> rfl
  rw [hr, hbase, performOr_withInput, h]

/-- What FRAME.DEC does with a byte it has taken does not depend on what is left in RXQ. -/
theorem rxByte_withInput (p : RxProgress) (c : Byte) (s : State) (q : Bytes) (l : List Move) :
    rxByte p c (s.withInput q l) = (rxByte p c s).withInput q l := by
  obtain ⟨taken, point⟩ := p
  cases point with
  | len i acc =>
    simp only [rxByte, gotLength, apply_ite (fun t : State => t.withInput q l)]
    rfl
  | take tlen buf =>
    have hfinish : finishFrame tlen (buf ++ [c]) (s.withInput q l) =
        (finishFrame tlen (buf ++ [c]) s).withInput q l := by
      change (match parseFrame Config.zip s.params.payCap s.tl (buf ++ [c]) with | .ok f => _ | .error e => _) = _
      rw [finishFrame]
      cases parseFrame Config.zip s.params.payCap s.tl (buf ++ [c]) <;> rfl
    simp only [rxByte, hfinish, apply_ite (fun t : State => t.withInput q l)]
    rfl
  | skip tlen j =>
    simp only [rxByte, apply_ite (fun t : State => t.withInput q l)]
    rfl

/-! ### An arrival and a step of the engine -/

/-- A byte arrives, and other moves are to come. -/
def State.arrive (s : State) (b : Byte) (l : List Move) : State := (s.setSched l).pushRx b

/-- The byte that arrives stands at the tail of RXQ. -/
theorem State.arrive_eq (s : State) (b : Byte) (l : List Move) : s.arrive b l = s.withInput (s.rxq ++ [b]) l := rfl

/-- A step of FRAME.DEC with a byte waiting, after the arrival of another. -/
theorem exec_frameDec_arrive {s t : State} (h : exec .frameDec s = .next t) (hq : s.rxq ≠ []) (b : Byte)
    (l : List Move) : exec .frameDec (s.arrive b l) = .next (t.arrive b l) := by
  obtain ⟨hrx, hc, rfl⟩ | ⟨u, p, ha, h⟩ := execFrameDec_cases h
  · have hrx' : (s.arrive b l).rx = none := hrx
    have hc' : (s.arrive b l).closed = true := hc
    simp only [exec, execFrameDec, hrx', hc', if_true]
    rfl
  have hpush : AsksAt (s.arrive b l) (u.arrive b l) p := by
    obtain ⟨hrx, rfl⟩ | ⟨hrx, hc, hp, rfl⟩ := ha
    · exact .inl ⟨hrx, rfl⟩
    · exact .inr ⟨hrx, hc, hp, rfl⟩
  obtain ⟨hnil, -⟩ | ⟨hnil, -⟩ | ⟨hnil, -⟩ | ⟨c, q, hcons, rfl⟩ := h
  · exact absurd hnil hq
  · exact absurd hnil hq
  · exact absurd hnil hq
  · have hcons' : (s.arrive b l).rxq = c :: (q ++ [b]) := congrArg (· ++ [b]) hcons
    have hleft : (rxByte p c (u.setRxq q)).rxq = q :=
      congrArg State.rxq (rxByte_withInput p c (u.setRxq q) q (u.setRxq q).sched)
    rw [execFrameDec_byte hpush hcons', State.arrive_eq (rxByte p c _), hleft, ← rxByte_withInput]
    rfl

/-- A command but CONN.RESET with a byte waiting, after the arrival of another. -/
theorem exec_arrive {i : Instr} {s t : State} (h : exec i s = .next t) (hi : i ≠ .connReset) (hq : s.rxq ≠ [])
    (b : Byte) (l : List Move) : exec i (s.arrive b l) = .next (t.arrive b l) := by
  by_cases h3 : i = .frameDec
  · subst h3
    exact exec_frameDec_arrive h hq b l
  · have hkeep : t.rxq = s.rxq := by
      by_contra hne
      exact ((exec_writesOnlyNamed h).rxq hne).elim h3 hi
    rw [State.arrive_eq, State.arrive_eq, hkeep]
    exact exec_withInput hi h3 h _ l

/-- A step of the engine with a byte waiting, after the arrival of another. -/
theorem engineStep_arrive {s t : State} (h : engineStep s = .next t) (hi : decode s.cur ≠ some .connReset)
    (hq : s.rxq ≠ []) (b : Byte) (l : List Move) : engineStep (s.arrive b l) = .next (t.arrive b l) := by
  obtain ⟨hw, rfl⟩ | ⟨hr, hb, ⟨i, hd, h⟩ | ⟨hd, rfl⟩⟩ := engineStep_cases h
  · have hw' : ((t.arrive b l).rst || !(t.arrive b l).busy) = true := by
      change (t.rst || !t.busy) = true
      obtain hr | hb := hw
      · rw [hr, Bool.true_or]
      · rw [hb, Bool.not_false, Bool.or_true]
    rw [engineStep, hw', if_pos rfl]
  · have hne : i ≠ .connReset := fun e => hi (e ▸ hd)
    rw [engineStep_run (s := s.arrive b l) hr hb hd]
    exact exec_arrive h hne hq b l
  · exact engineStep_of_decode_none (s := s.arrive b l) hr hb hd

/-- The engine always answers a next state. -/
theorem engineStep_next (s : State) : ∃ t, engineStep s = .next t := by
  rw [engineStep]
  split
  · exact ⟨s, rfl⟩
  · split
    · exact exec_next _ s
    · exact ⟨_, rfl⟩

/-- A step of the engine but CONN.RESET leaves the schedule, the reset input and the state of the receive stream. -/
theorem engineStep_keeps {s t : State} (h : engineStep s = .next t) (hi : decode s.cur ≠ some .connReset) :
    t.sched = s.sched ∧ t.rst = s.rst ∧ t.rxend = s.rxend ∧ t.rxerr = s.rxerr := by
  obtain ⟨-, rfl⟩ | ⟨-, -, ⟨i, hd, h⟩ | ⟨-, rfl⟩⟩ := engineStep_cases h
  · exact ⟨rfl, rfl, rfl, rfl⟩
  · have hstream := mt (exec_writesOnlyNamed h).stream fun e => hi (e ▸ hd)
    obtain ⟨hend, herr, -⟩ : t.rxend = s.rxend ∧ t.rxerr = s.rxerr ∧ t.txerr = s.txerr := by
      simpa only [not_or, not_not, ne_eq] using hstream
    obtain ⟨-, -, -, -, hrst, -, -, -, -, hsched⟩ := commandsKeepWhatTheHostSets i s t h
    exact ⟨hsched, hrst, hend, herr⟩
  · exact ⟨rfl, rfl, rfl, rfl⟩

/-- The arrival of a byte, while the receive stream goes on. -/
theorem step_rxPush {s : State} {b : Byte} {l : List Move} (hs : s.sched = .rxPush b :: l) (hr : s.rst = false)
    (hend : s.rxend = false) (herr : s.rxerr = false) : step s = .next (s.arrive b l) := by
  rw [step_of_sched_cons hs, doMove, unlessReset_eq (s := s.setSched l) hr, State.rxPush, State.setSched_rxend,
    State.setSched_rxerr, hend, herr]
  rfl

/-- A run of two steps. -/
theorem run_two {s t u : State} (h1 : step s = .next t) (h2 : step t = .next u) :
    Host.Core.run Sys2Proof.core 2 s = .next u := by
  rw [run_succ 1 h1, run_succ 0 h2, run_zero]

/-- Settles O31: in both orders the engine's step is followed by the state in which the byte stands at RXQ's tail. -/
theorem arrivalCommutesWithTheEngine : Obligations.ArrivalCommutesWithTheEngine := by
  intro s b hr hq hend herr hi
  obtain ⟨t, ht⟩ := engineStep_next (s.setSched [.rxPush b])
  obtain ⟨hsched', hr', hend', herr'⟩ := engineStep_keeps ht hi
  have hfirst : Host.Core.run Sys2Proof.core 2 { s with sched := [.engine, .rxPush b] } = .next (t.arrive b []) :=
    run_two ht (step_rxPush hsched' (hr'.trans hr) (hend'.trans hend) (herr'.trans herr))
  have hsecond : Host.Core.run Sys2Proof.core 2 { s with sched := [.rxPush b, .engine] } = .next (t.arrive b []) :=
    run_two (step_rxPush (l := [.engine]) rfl hr hend herr) (engineStep_arrive ht hi hq b [])
  rw [hfirst, hsecond]

end Sys2Proof.Machine
end

section
/-! PROOFS. The invariant of the machine: the reset state meets it, and every step of every agent keeps it. -/

namespace Sys2Proof.Machine

variable {s t u : State}

/-! ### The part of the invariant that rules keep -/

/-- What the invariant says of the sizes, tables, buffers and flags, but for what only a completion writes: the part
that also holds between a rule's writes and the completion. -/
structure State.Sound (s : State) : Prop where
  params : s.params.Valid
  rt : s.RtWf
  buffers : s.BuffersFit
  scr : s.ScrWf
  sticky : s.esticky &&& ~~~0x7E = 0
  closed : s.ClosedRecorded
  frame : s.FrameRecorded
  tx : s.TxWf

theorem State.Inv.sound (h : s.Inv) : s.Sound :=
  ⟨h.params, h.rt, h.buffers, h.scr, h.errors.1, h.closed, h.frame, h.tx⟩

/-- A block out of reset is not held in the reset state. -/
theorem resetHeld_of_rst (h : s.rst = false) : s.ResetHeld :=
  fun h1 => absurd (h.symm.trans h1) (by decide)

/-- A block in which no FRAME.DEC is in flight stands at no control point. -/
theorem rxWf_of_none (h : s.rx = none) : s.RxWf :=
  fun _ hp => absurd (h.symm.trans hp) nofun

namespace State.Sound

/-- Fields of which this part of the invariant does not speak. -/
theorem congr (h : s.Sound) (ht : t = { s with
      x := t.x
      busy := t.busy
      ovr := t.ovr
      err := t.err
      errinfo := t.errinfo
      ie := t.ie
      ip := t.ip
      cmdcnt := t.cmdcnt
      phase := t.phase
      thresh := t.thresh
      opc := t.opc
      route := t.route
      lastn := t.lastn
      rxend := t.rxend
      rxerr := t.rxerr
      rxq := t.rxq
      cur := t.cur
      tl := t.tl
      rx := t.rx
      rst := t.rst
      resets := t.resets
      bus := t.bus
      wire := t.wire
      sched := t.sched }) : t.Sound := by
  rw [ht]
  exact ⟨h.params, h.rt, h.buffers, h.scr, h.sticky, h.closed, h.frame, h.tx⟩

/-- Buffers that fit, with no decoded frame or the one there was. -/
theorem setBuffers (h : s.Sound) {bld pay : Bytes} {rpos : Nat} {fvalid : Bool} (hbld : bld.length ≤ s.params.bldCap)
    (hpay : pay.length ≤ s.params.payCap) (hrpos : rpos ≤ pay.length) (hv : fvalid = true → s.fvalid = true) :
    ({ s with bld := bld, pay := pay, rpos := rpos, fvalid := fvalid } : State).Sound :=
  ⟨h.params, h.rt, ⟨hbld, hpay, hrpos⟩, h.scr, h.sticky, h.closed, fun hf => h.frame (hv hf), h.tx⟩

/-- Bytes written to SCR within its size. -/
theorem setScr_insertAll (h : s.Sound) {a : Nat} {b : Bytes} (ha : a + b.length ≤ s.params.scrSize) :
    (s.setScr (Memory.insertAll s.scr a b)).Sound :=
  ⟨h.params, h.rt, h.buffers, ⟨Memory.insertAll_wf b h.scr.1 a, Memory.insertAll_bound b h.scr.2 ha⟩, h.sticky,
    h.closed,
    h.frame, h.tx⟩

/-- The cursor advanced within PAY. -/
theorem advance (h : s.Sound) {n : Nat} (hn : s.rpos + n ≤ s.pay.length) : (s.advance n).Sound :=
  (h.setBuffers (rpos := s.rpos + n) h.buffers.1 h.buffers.2.1 hn id).congr rfl

/-- The writes of a command of one engine step. -/
theorem wrote {i : Instr} (h : s.Sound) (hw : Wrote i s u) : u.Sound := by
  obtain ⟨hbld, hpay, hrpos⟩ := h.buffers
  cases i <;> simp only [Wrote] at hw
  case ldi | threshSet =>
    subst hw
    exact h.congr rfl
  case phaseSet =>
    obtain ⟨-, rfl | rfl⟩ := hw <;> exact h.congr rfl
  case dispatch =>
    obtain ⟨-, r, rfl | ⟨v, rfl⟩ | ⟨-, rfl⟩⟩ := hw <;> exact h.congr rfl
  case bldClr =>
    subst hw
    exact h.setBuffers (Nat.zero_le _) hpay hrpos id
  case paySeek =>
    obtain ⟨hn, rfl⟩ := hw
    exact h.setBuffers hbld hpay hn id
  case payLoad =>
    subst hw
    have hcap : s.bld.length ≤ s.params.payCap := by
      obtain ⟨-, -, hcap, -⟩ := h.params
      exact hbld.trans (by omega)
    exact h.setBuffers hbld hcap (Nat.zero_le _) nofun
  case uuidFmt =>
    obtain ⟨b, hb, rfl⟩ := hw
    exact h.setScr_insertAll hb
  case uuidParse =>
    obtain ⟨v, w, rfl⟩ := hw
    exact h.congr rfl
  case decVarint | decByte | decUbyte | decShort | decUshort | decInt | decLong | decBool | decFloat | decDouble =>
    obtain ⟨v, n, -, hn, rfl⟩ := hw
    exact advance (h.congr rfl) hn
  case decUuid =>
    obtain ⟨v, w, hn, rfl⟩ := hw
    exact advance (h.congr rfl) hn
  case decString =>
    obtain ⟨v, n, b, hn, hb, rfl⟩ := hw
    exact advance ((h.setScr_insertAll hb).congr rfl) hn
  case decRaw =>
    obtain ⟨n, b, hn, hb, rfl⟩ := hw
    exact advance (h.setScr_insertAll hb) hn
  case frameEnc =>
    obtain ⟨htx, f, -, rfl⟩ := hw
    exact ⟨h.params, h.rt, ⟨Nat.zero_le _, hpay, hrpos⟩, h.scr, h.sticky, h.closed, h.frame,
      fun herr => absurd (htx.symm.trans herr) (by decide)⟩
  case encVarint | encByte | encUbyte | encShort | encUshort | encInt | encLong | encBool | encFloat | encDouble |
      encString | encUuid | encRaw =>
    obtain ⟨b, hb, rfl⟩ := hw
    have hlen : (s.bld ++ b).length ≤ s.params.bldCap := List.length_append.trans_le hb
    exact (h.setBuffers hlen hpay hrpos id).congr rfl

/-- A new connection. -/
theorem newConnection (h : s.Sound) : s.newConnection.Sound :=
  ⟨h.params, h.rt, ⟨Nat.zero_le _, Nat.zero_le _, le_rfl⟩, h.scr, h.sticky, nofun, nofun, nofun⟩

/-- The writes of a FRAME.DEC that fails. -/
theorem frameFailed (h : s.Sound) (ftlen fdlen : W32) : (s.frameFailed ftlen fdlen).Sound :=
  ⟨h.params, h.rt, ⟨h.buffers.1, Nat.zero_le _, le_rfl⟩, h.scr, h.sticky, h.closed, nofun, h.tx⟩

/-- The writes of a FRAME.DEC that has found a frame. -/
theorem frameDone (h : s.Sound) {tlen : Nat} {buf : Bytes} {f : FrameParts} (h0 : 0 < tlen)
    (hcap : tlen ≤ s.params.payCap) (hbuf : buf.length ≤ s.params.payCap)
    (hf : parseFrame Config.zip s.params.payCap s.tl buf = .ok f) : (s.frameDone (word32 tlen) f).Sound := by
  obtain ⟨hpay, hplain⟩ := parseFrame_ok hf hbuf
  have hlen : (word32 tlen).toInt = tlen := by
    obtain ⟨-, -, -, hmax, -⟩ := h.params
    have hnat : (word32 tlen).toNat = tlen := Nat.mod_eq_of_lt (by omega)
    rw [BitVec.toInt_eq_toNat_of_lt (by omega), hnat]
  refine ⟨h.params, h.rt, ⟨h.buffers.1, hpay, Nat.zero_le _⟩, h.scr, h.sticky, h.closed, fun _ => ?_, h.tx⟩
  refine ⟨?_, ?_, fun hcomp => hplain ?_⟩
  · rw [State.frameDone_ftlen, hlen]
    exact Int.natCast_pos.mpr h0
  · rw [State.frameDone_ftlen, hlen]
    exact Int.ofNat_le.mpr hcap
  · rw [State.frameDone_fcomp, decide_eq_false_iff_not] at hcomp
    exact Int.not_le.mp hcomp

/-- After a completion without error the invariant holds. -/
theorem completeOk (h : s.Sound) (hr : s.rst = false) : s.completeOk.Inv :=
  ⟨h.params, h.rt, h.buffers, h.scr, ⟨h.sticky, .inl ⟨rfl, rfl⟩⟩, h.closed, h.frame, rxWf_of_none rfl, h.tx,
    resetHeld_of_rst hr⟩

/-- After a completion with error the invariant holds. -/
theorem completeErr (h : s.Sound) (hr : s.rst = false) (e : Raise) : (s.completeErr e).Inv := by
  have hgrows : StickyGrows s (s.completeErr e) := .completeErr rfl e
  have hbit : (s.completeErr e).esticky &&& e.error.stickyBit = e.error.stickyBit := by
    rw [State.completeErr_esticky]
    ext i hi
    simpa using Or.inr
  refine ⟨h.params, h.rt, h.buffers, h.scr, ⟨hgrows.and_unnamed h.sticky, .inr ⟨e.error, rfl, hbit⟩⟩, fun hc => ?_,
    h.frame, rxWf_of_none rfl, h.tx, resetHeld_of_rst hr⟩
  rw [State.completeErr_closed, Bool.or_eq_true, beq_iff_eq] at hc
  obtain hc | hc := hc
  · exact hgrows.getLsbD (h.closed hc)
  · have hcause := stickyBit_getLsbD_cause e.error
    rw [hc] at hcause
    rw [State.completeErr_esticky, BitVec.getLsbD_or, Bool.or_eq_true]
    exact .inr hcause

end State.Sound

/-! ### Reset -/

/-- The reset state of a valid configuration meets the invariant. -/
theorem resetWith_inv {p : Params} (hp : p.Valid) : (State.resetWith p).Inv := by
  have hrt : (State.resetWith p).RtWf := by
    have hlen : 5 ≤ p.rtN := by
      obtain ⟨-, -, -, -, -, -, -, h5, -⟩ := hp
      exact h5
    refine ⟨?_, fun e he => ?_⟩
    · change (rtReset ++ List.replicate (p.rtN - 5) (⟨0, 0⟩ : RtEntry)).length = p.rtN
      rw [List.length_append, List.length_replicate]
      exact Nat.add_sub_cancel' hlen
    · have hfixed : ∀ e ∈ rtReset, e.Wf := by decide
      obtain he | he := List.mem_append.mp he
      · exact hfixed e he
      · obtain rfl := List.eq_of_mem_replicate he
        decide
  exact ⟨hp, hrt, ⟨Nat.zero_le _, Nat.zero_le _, le_rfl⟩, ⟨List.Pairwise.nil, nofun⟩,
    ⟨BitVec.zero_and, .inl ⟨rfl, rfl⟩⟩, nofun,
    nofun, rxWf_of_none rfl, nofun, nofun⟩

/-- Settles O7: the reset state of every valid configuration, of which the reference configuration is one. -/
theorem resetMeetsTheInvariant : Obligations.ResetMeetsTheInvariant :=
  ⟨fun _ hp => resetWith_inv hp, resetWith_inv (by decide)⟩

/-! ### Commands -/

/-- Where a running FRAME.DEC asks for a byte, it stands at a proper control point with THRESH latched, and only it has
been noted in the state. -/
theorem AsksAt.inv {p : RxProgress} (ha : AsksAt s u p) (h : s.Inv) (hr : s.rst = false) (hb : s.busy = true)
    (hcur : s.cur = 0x00000051) : u.Inv ∧ u.rx = some p ∧ u.rst = false := by
  obtain ⟨hrx, rfl⟩ | ⟨hrx, hc, rfl, rfl⟩ := ha
  · exact ⟨h, hrx, hr⟩
  · have hrxwf : s.startRx.RxWf := by
      intro p hp
      obtain rfl : RxProgress.start = p := Option.some.inj hp
      exact ⟨hb, hcur, hc, rfl, by decide, rfl⟩
    exact ⟨⟨h.params, h.rt, h.buffers, h.scr, h.errors, h.closed, h.frame, hrxwf, h.tx, resetHeld_of_rst hr⟩, rfl, hr⟩

/-- A FRAME.DEC that fails keeps the invariant. -/
theorem State.Sound.frameFail (h : s.Sound) (hr : s.rst = false) (ftlen fdlen : W32) (e : Raise) :
    (s.frameFail ftlen fdlen e).Inv :=
  (h.frameFailed ftlen fdlen).completeErr hr e

/-- What a FRAME.DEC does with a byte keeps the invariant. -/
theorem rxByte_inv {p : RxProgress} (h : s.Inv) (hp : s.rx = some p) (hr : s.rst = false) (b : Byte) :
    (rxByte p b s).Inv := by
  obtain ⟨hb, hcur, hc, htl, hwf⟩ := h.rx p hp
  obtain ⟨q, hq, hqwf⟩ | ⟨ftlen, fdlen, e, he, -⟩ | ⟨tlen, f, buf, hf, hparse, hpoint, hlast⟩ := rxByte_cases p b s
  · rw [hq]
    have hrxwf : (s.setRx q).RxWf := by
      intro q' hq'
      obtain rfl : q = q' := Option.some.inj hq'
      exact ⟨hb, hcur, hc, htl, hqwf hwf⟩
    exact ⟨h.params, h.rt, h.buffers, h.scr, h.errors, h.closed, h.frame, hrxwf, h.tx, resetHeld_of_rst hr⟩
  · rw [he]
    exact h.sound.frameFail hr ftlen fdlen e
  · rw [hf]
    obtain ⟨hlt, hcap⟩ : buf.length < tlen ∧ tlen ≤ s.params.payCap := by
      rw [RxProgress.Wf, hpoint] at hwf
      exact ⟨hwf.1, hwf.2.1⟩
    have hlen : (buf ++ [b]).length ≤ s.params.payCap := by
      rw [List.length_append, List.length_singleton]
      omega
    exact (h.sound.frameDone (by omega) hcap hlen hparse).completeOk hr

/-- One engine step of FRAME.DEC keeps the invariant. -/
theorem exec_frameDec_inv (h : s.Inv) (hr : s.rst = false) (hb : s.busy = true) (hcur : s.cur = 0x00000051)
    (ht : exec .frameDec s = .next t) : t.Inv := by
  obtain ⟨-, -, rfl⟩ | ⟨u, p, ha, ht⟩ := execFrameDec_cases ht
  · exact h.sound.completeErr hr _
  obtain ⟨hu, hp, hru⟩ := ha.inv h hr hb hcur
  obtain ⟨-, -, -, rfl⟩ | ⟨-, -, rfl⟩ | ⟨-, -, -, rfl⟩ | ⟨b, q, -, rfl⟩ := ht
  · exact hu
  · exact hu.sound.frameFail hru _ _ _
  · exact hu.sound.frameFail hru _ _ _
  · have hq : (u.setRxq q).Inv :=
      ⟨hu.params, hu.rt, hu.buffers, hu.scr, hu.errors, hu.closed, hu.frame, hu.rx, hu.tx, resetHeld_of_rst hru⟩
    exact rxByte_inv hq hp hru b

/-- Every command keeps the invariant. -/
theorem exec_inv {i : Instr} (h : s.Inv) (hr : s.rst = false) (hb : s.busy = true) (hd : decode s.cur = some i)
    (ht : exec i s = .next t) : t.Inv := by
  by_cases h1 : i = .nop
  · subst h1; cases ht
    exact h.sound.completeOk hr
  by_cases h2 : i = .connReset
  · subst h2; cases ht
    exact h.sound.newConnection.completeOk hr
  by_cases h3 : i = .frameDec
  · subst h3
    have hcur : s.cur = 0x00000051 := (encodeInvertsDecode _ _ hd).2.symm.trans (by decide)
    exact exec_frameDec_inv h hr hb hcur ht
  obtain ⟨-, rfl⟩ | ⟨-, e, rfl⟩ | ⟨-, u, hw, rfl⟩ := exec_oneStep_cases h1 h2 h3 ht
  · exact h.sound.completeErr hr _
  · split
    · exact State.Sound.completeErr (s := s.setRoute 0) (h.sound.congr rfl) hr e
    · exact h.sound.completeErr hr e
  · have hru : u.rst = false := by rw [wrote_frame hw, hr]
    exact (h.sound.wrote hw).completeOk hru

/-- The engine's move keeps the invariant. -/
theorem engineStep_inv (h : s.Inv) (ht : engineStep s = .next t) : t.Inv := by
  obtain ⟨-, rfl⟩ | ⟨hr, hb, ⟨i, hd, ht⟩ | ⟨-, rfl⟩⟩ := engineStep_cases ht
  · exact h
  · exact exec_inv h hr hb hd ht
  · exact h.sound.completeErr hr _

/-! ### The moves of the other agents -/

namespace State.Inv

/-- The schedule and the answer of the bus are not the block's. -/
theorem setSched (h : s.Inv) (l : List Move) : (s.setSched l).Inv := by
  have hreset : (s.setSched l).ResetHeld := fun hr => by
    conv_lhs => rw [h.reset hr]
    rfl
  exact ⟨h.params, h.rt, h.buffers, h.scr, h.errors, h.closed, h.frame, h.rx, h.tx, hreset⟩

theorem answer (h : s.Inv) (a : BusAnswer) : (s.answer a).Inv := by
  have hreset : (s.answer a).ResetHeld := fun hr => by
    conv_lhs => rw [h.reset hr]
    rfl
  exact ⟨h.params, h.rt, h.buffers, h.scr, h.errors, h.closed, h.frame, h.rx, h.tx, hreset⟩

/-- The reset input rises. -/
theorem enterReset (h : s.Inv) : s.enterReset.Inv := by
  obtain ⟨hparams, hrt, hbuffers, hscr, herrors, hclosed, hframe, -, htx, -⟩ := resetWith_inv h.params
  exact ⟨hparams, hrt, hbuffers, hscr, herrors, hclosed, hframe, rxWf_of_none rfl, htx, fun _ => rfl⟩

/-- The reset input falls. -/
theorem leaveReset (h : s.Inv) : s.leaveReset.Inv :=
  ⟨h.params, h.rt, h.buffers, h.scr, h.errors, h.closed, h.frame, h.rx, h.tx, resetHeld_of_rst rfl⟩

/-- Fields of which the invariant says nothing out of reset. -/
theorem congr (h : s.Inv) (hr : s.rst = false) (ht : t = { s with
      x := t.x
      ovr := t.ovr
      ie := t.ie
      ip := t.ip
      rxend := t.rxend
      rxerr := t.rxerr
      rxq := t.rxq }) : t.Inv := by
  rw [ht]
  exact ⟨h.params, h.rt, h.buffers, h.scr, h.errors, h.closed, h.frame, h.rx, h.tx, resetHeld_of_rst hr⟩

/-- A command is issued. -/
theorem issue (h : s.Inv) (hr : s.rst = false) (w : W32) : (s.issue w).Inv :=
  ⟨h.params, h.rt, h.buffers, h.scr, h.errors, h.closed, h.frame, rxWf_of_none rfl, h.tx, resetHeld_of_rst hr⟩

/-- A word is written to RT: the unnamed bits of CTL stay 0. -/
theorem writeRtWord (h : s.Inv) (hr : s.rst = false) (addr : Nat) (v : W32) : (s.writeRtWord addr v).Inv := by
  have hmask : (v &&& ctlMask) &&& ~~~ctlMask = 0 := by
    rw [BitVec.and_assoc]
    exact BitVec.and_zero
  have hrt : (s.writeRtWord addr v).RtWf := by
    obtain ⟨hlen, hwf⟩ := h.rt
    refine ⟨(List.length_modify _ _ _).trans hlen, fun e he => ?_⟩
    obtain ⟨j, hj, rfl⟩ := List.mem_iff_getElem.mp he
    have hj' : j < s.rt.length := hj.trans_eq (List.length_modify _ _ _)
    have hold : s.rt[j].Wf := hwf _ (List.getElem_mem hj')
    simp only [State.writeRtWord, State.setRt_rt, List.getElem_modify]
    split
    · split
      · exact hmask
      · exact hold
    · exact hold
  exact ⟨h.params, hrt, h.buffers, h.scr, h.errors, h.closed, h.frame, h.rx, h.tx, resetHeld_of_rst hr⟩

/-- A word is written to SCR. -/
theorem writeScrWord (h : s.Inv) (hr : s.rst = false) {addr : Nat} (ha : s.scrAddr addr) (h4 : addr % 4 = 0) (v : W32) :
    (s.writeScrWord addr v).Inv := by
  have hfit : addr - 0x1000 + (leBytes 4 v).length ≤ s.params.scrSize := by
    obtain ⟨-, -, -, -, -, hsize, -⟩ := h.params
    rw [leBytes_length]
    omega
  exact ⟨h.params, h.rt, h.buffers, (h.sound.setScr_insertAll hfit).scr, h.errors, h.closed, h.frame, h.rx, h.tx,
    resetHeld_of_rst hr⟩

/-- A stop request. -/
theorem stopRx (h : s.Inv) (hr : s.rst = false) : s.stopRx.Inv := by
  rw [State.stopRx]
  split
  · exact h.sound.frameFail hr _ _ _
  · exact h

/-- The host writes a word. -/
theorem writeWord (h : s.Inv) (hr : s.rst = false) {addr : Nat} (h4 : addr % 4 = 0) (v : W32) :
    (s.writeWord addr v).Inv := by
  obtain hw | ⟨-, hw⟩ | ⟨-, _, _, hw⟩ | ⟨-, -, hw⟩ | ⟨-, -, hw⟩ | hw | hw | ⟨-, hw⟩ | ⟨-, ha, hw⟩ :=
    writeWord_cases s addr v <;> rw [hw]
  · exact h
  · exact h.congr hr rfl
  · exact h.congr hr rfl
  · exact h.issue hr v
  · exact h.stopRx hr
  · exact h.congr hr rfl
  · exact h.congr hr rfl
  · exact h.writeRtWord hr addr v
  · exact h.writeScrWord hr ha h4 v

/-- The host writes. -/
theorem busWrite (h : s.Inv) (hr : s.rst = false) (w : BusWidth) (a : BitVec 16) (v : W32) :
    (s.busWrite w a v).Inv := by
  rw [State.busWrite]
  split
  · rename_i hp
    exact (h.writeWord hr hp.2 v).answer _
  · exact h.answer _

/-- The TX transport takes a byte. -/
theorem txPop (h : s.Inv) (hr : s.rst = false) : s.txPop.Inv := by
  obtain ⟨-, ht⟩ | ⟨b, q, hq, ht⟩ := txPop_cases s <;> rw [ht]
  · exact h
  · have htx : (s.popTx b q).TxWf := fun herr => by
      cases hq.symm.trans (h.tx herr)
    exact ⟨h.params, h.rt, h.buffers, h.scr, h.errors, h.closed, h.frame, h.rx, htx, resetHeld_of_rst hr⟩

/-- The TX transport declares an I/O error. -/
theorem txFail (h : s.Inv) (hr : s.rst = false) : s.txFail.Inv := by
  obtain ⟨-, ht⟩ | ⟨-, ht⟩ := txFail_cases s <;> rw [ht]
  · exact h
  · exact ⟨h.params, h.rt, h.buffers, h.scr, h.errors, h.closed, h.frame, h.rx, fun _ => rfl, resetHeld_of_rst hr⟩

end State.Inv

/-- Settles O8, by whose move the step is. -/
theorem stepKeepsTheInvariant : Obligations.StepKeepsTheInvariant := by
  intro s t h ht
  obtain ⟨l, -, ht⟩ | ⟨w, a, l, -, rfl⟩ | ⟨l, -, rfl⟩ | ⟨l, -, rfl⟩ | ⟨-, m, l, -, rfl⟩ |
    ⟨hr, ⟨w, a, v, l, -, rfl⟩ | ⟨b, l, -, rfl⟩ | ⟨l, -, rfl⟩ | ⟨l, -, rfl⟩ | ⟨l, -, rfl⟩ | ⟨l, -, rfl⟩⟩ := step_cases ht
  · exact engineStep_inv (h.setSched l) ht
  · obtain ⟨b, hb⟩ := busRead_eq_answer (s.setSched l) w a
    rw [hb]
    exact (h.setSched l).answer b
  · exact (h.setSched l).enterReset
  · exact (h.setSched l).leaveReset
  · exact h.setSched l
  · exact (h.setSched l).busWrite hr w a v
  · obtain ⟨-, ht⟩ | ⟨-, -, ht⟩ := rxPush_cases (s.setSched l) b <;> rw [ht]
    · exact h.setSched l
    · exact (h.setSched l).congr hr rfl
  · exact (h.setSched l).congr hr rfl
  · exact (h.setSched l).congr hr rfl
  · exact (h.setSched l).txPop hr
  · exact (h.setSched l).txFail hr

end Sys2Proof.Machine
end

section
/-! PROOFS. FRAME.ENC, and FRAME.DEC one engine step at a time (`44_framer.md` sections 1 to 3). -/

namespace Sys2Proof.Machine

/-! ### FRAME.ENC -/

section
variable {zip : ZipUnit} {tl opcode : W32} {payload : Bytes}

/-- The frame of the plain format (R250). -/
theorem frameBytes_plain (ht : tl.toInt < 0) :
    frameBytes zip tl opcode payload =
      .ok (encodeVarint (word32 (frameInner opcode payload).length) ++ frameInner opcode payload) := by
  rw [frameBytes, if_pos ht]

/-- The frame of the compression-capable format below the threshold (R254). -/
theorem frameBytes_short (ht : (frameInner opcode payload).length < tl.toInt) :
    frameBytes zip tl opcode payload =
      .ok (encodeVarint (word32 (1 + (frameInner opcode payload).length)) ++ [0x00] ++ frameInner opcode payload) := by
  have h0 : 0 ≤ tl.toInt := (Int.natCast_nonneg _).trans ht.le
  rw [toInt_of_nonneg h0] at ht
  rw [frameBytes, if_neg (not_lt.mpr h0), if_neg (by omega)]

/-- The frame of the compression-capable format from the threshold on, or the error when it is too long (R254). -/
theorem frameBytes_deflated (h0 : 0 ≤ tl.toInt) (ht : tl.toInt ≤ (frameInner opcode payload).length) :
    frameBytes zip tl opcode payload =
      if 2 ^ 31 ≤ varintLen (word32 (frameInner opcode payload).length) +
          (zip.deflate (frameInner opcode payload)).length then
        .error ⟨.frameTooLarge, 0⟩
      else .ok (encodeVarint (word32 (varintLen (word32 (frameInner opcode payload).length) +
          (zip.deflate (frameInner opcode payload)).length)) ++
        encodeVarint (word32 (frameInner opcode payload).length) ++ zip.deflate (frameInner opcode payload)) := by
  rw [toInt_of_nonneg h0] at ht
  rw [frameBytes, if_neg (not_lt.mpr h0), if_pos (by omega)]

end

section
variable {s : State} (hc : s.closed = false) (ra : Reg)
include hc

/-- FRAME.ENC on a failed transmit stream (R255). -/
theorem exec_frameEnc_txerr (ht : s.txerr = true) : exec (.frameEnc ra) s = .next (s.completeErr ⟨.txIoError, 0⟩) :=
  congrArg _ (perform_error hc (by rw [ht]; rfl))

variable (ht : s.txerr = false)
include ht

/-- FRAME.ENC emits the frame of its message (R255). -/
theorem exec_frameEnc_ok {f : Bytes}
    (hf : frameBytes Config.zip s.thresh (BitVec.ofNat 32 s.x[ra].toNat) s.bld = .ok f) :
    exec (.frameEnc ra) s = .next (s.emitFrame f).completeOk := by
  rw [← trunc_eq] at hf
  exact congrArg _ (perform_ok hc (by rw [ht]; exact bind_eq_ok.mpr ⟨f, hf, rfl⟩))

/-- FRAME.ENC emits nothing when its message has no frame (R255). -/
theorem exec_frameEnc_error {e : Raise}
    (hf : frameBytes Config.zip s.thresh (BitVec.ofNat 32 s.x[ra].toNat) s.bld = .error e) :
    exec (.frameEnc ra) s = .next (s.completeErr e) := by
  rw [← trunc_eq] at hf
  refine congrArg _ (perform_error hc ?_)
  rw [ht]
  exact congrArg (· >>= fun f => .ok (s.emitFrame f)) hf

end

/-- Settles O54, by the frame of each format. -/
theorem frameEncEmitsTheFrame : Obligations.FrameEncEmitsTheFrame := by
  intro ra s hc inner len c total emitted
  refine ⟨mkWord_register 0x50 ra, exec_frameEnc_txerr hc ra, fun ht => ⟨fun hneg => ?_, fun hlt => ?_,
    fun h0 hle htotal => ?_, fun h0 hle htotal => ?_⟩⟩
  · exact exec_frameEnc_ok hc ra ht (frameBytes_plain hneg)
  · exact exec_frameEnc_ok hc ra ht (frameBytes_short hlt)
  · exact exec_frameEnc_ok hc ra ht ((frameBytes_deflated h0 hle).trans (if_neg (Nat.not_le.mpr htotal)))
  · exact exec_frameEnc_error hc ra ht ((frameBytes_deflated h0 hle).trans (if_pos htotal))

/-! ### FRAME.DEC with a byte waiting -/

/-- FRAME.DEC asks for a byte: what it does then is `rxStep`. -/
theorem execFrameDec_rxStep {s u : State} {p : RxProgress} (ha : AsksAt s u p) :
    exec .frameDec s = .next (rxStep p u) := by
  obtain ⟨hp, rfl⟩ | ⟨hp, hc, rfl, rfl⟩ := ha
  · simp only [exec, execFrameDec, hp]
  · simp only [exec, execFrameDec, hp, hc, Bool.false_eq_true, if_false]

section
variable {p : RxProgress} {b : Byte} {s : State}

/-- A byte of the length field that another one follows (R263). -/
theorem rxByte_len_more {i : Nat} {acc : W32} (hp : p.point = .len i acc) (hb : 128 ≤ b.toNat) (hi : i + 1 < 5) :
    rxByte p b s = s.setRx ⟨p.taken + 1, .len (i + 1) (addGroup acc i b)⟩ := by
  simp only [rxByte, hp, (continues_iff b).mpr hb, if_true, if_pos hi]

/-- A fifth byte of the length field that says another one follows (R263). -/
theorem rxByte_len_tooLarge {i : Nat} {acc : W32} (hp : p.point = .len i acc) (hb : 128 ≤ b.toNat) (hi : 5 ≤ i + 1) :
    rxByte p b s = s.frameFail 0 0 ⟨.varIntTooLarge, 0⟩ := by
  simp only [rxByte, hp, (continues_iff b).mpr hb, if_true, if_neg (Nat.not_lt.mpr hi)]

/-- The last byte of the length field (R263). -/
theorem rxByte_len_last {i : Nat} {acc : W32} (hp : p.point = .len i acc) (hb : b.toNat < 128) :
    rxByte p b s = gotLength (addGroup acc i b) (p.taken + 1) s := by
  have hlast : ¬ continues b = true := fun h => absurd ((continues_iff b).mp h) (Nat.not_le.mpr hb)
  simp only [rxByte, hp, if_neg hlast]

/-- A byte of a frame that another one follows (R269). -/
theorem rxByte_take_more {tlen : Nat} {buf : Bytes} (hp : p.point = .take tlen buf) (h : buf.length + 1 < tlen) :
    rxByte p b s = s.setRx ⟨p.taken + 1, .take tlen (buf ++ [b])⟩ := by
  simp only [rxByte, hp, if_pos h]

/-- The last byte of a frame (R269). -/
theorem rxByte_take_last {tlen : Nat} {buf : Bytes} (hp : p.point = .take tlen buf) (h : tlen ≤ buf.length + 1) :
    rxByte p b s = finishFrame tlen (buf ++ [b]) s := by
  simp only [rxByte, hp, if_neg (Nat.not_lt.mpr h)]

/-- A byte of an oversized frame that another one follows (R264). -/
theorem rxByte_skip_more {tlen j : Nat} (hp : p.point = .skip tlen j) (h : j + 1 < tlen) :
    rxByte p b s = s.setRx ⟨p.taken + 1, .skip tlen (j + 1)⟩ := by
  simp only [rxByte, hp, if_pos h]

/-- The last byte of an oversized frame (R264). -/
theorem rxByte_skip_last {tlen j : Nat} (hp : p.point = .skip tlen j) (h : tlen ≤ j + 1) :
    rxByte p b s = s.frameFail (word32 tlen) 0 ⟨.frameTooLarge, word32 tlen⟩ := by
  simp only [rxByte, hp, if_neg (Nat.not_lt.mpr h)]

variable {v : W32} {n : Nat}

/-- A total length of 0 or less (R258). -/
theorem gotLength_nonPositive (h : v.toInt ≤ 0) :
    gotLength v n s = s.frameFail v 0 ⟨.lengthNonPositive, v⟩ := by
  rw [gotLength, if_pos h]

/-- A total length above the capacity (R264). -/
theorem gotLength_skip (h0 : 0 < v.toInt) (h : s.params.payCap < v.toNat) :
    gotLength v n s = s.setRx ⟨n, .skip v.toNat 0⟩ := by
  rw [gotLength, if_neg (not_le.mpr h0), if_pos h]

/-- A total length that fits (R257). -/
theorem gotLength_take (h0 : 0 < v.toInt) (h : v.toNat ≤ s.params.payCap) :
    gotLength v n s = s.setRx ⟨n, .take v.toNat []⟩ := by
  rw [gotLength, if_neg (not_le.mpr h0), if_neg (Nat.not_lt.mpr h)]

/-- A frame that holds what its format asks for (R257). -/
theorem finishFrame_ok {tlen : Nat} {buf : Bytes} {f : FrameParts}
    (h : parseFrame Config.zip s.params.payCap s.tl buf = .ok f) :
    finishFrame tlen buf s = (s.frameDone (word32 tlen) f).completeOk := by
  rw [finishFrame, h]

/-- A frame that does not (R265). -/
theorem finishFrame_error {tlen : Nat} {buf : Bytes} {e : FrameError}
    (h : parseFrame Config.zip s.params.payCap s.tl buf = .error e) :
    finishFrame tlen buf s = s.frameFail (word32 tlen) e.dlen e.raise := by
  rw [finishFrame, h]

end

/-- FRAME.DEC takes the byte waiting, in flight or in its first step. -/
theorem exec_frameDec_takes {s t : State} {p : RxProgress} {b : Byte} {q : Bytes} (hq : s.rxq = b :: q)
    (h : s.rx = some p ∧ t = { s with rxq := q } ∨
      s.rx = none ∧ s.closed = false ∧ p = ⟨0, .len 0 0⟩ ∧ t = { s with tl := s.thresh, rxq := q }) :
    exec .frameDec s = .next (rxByte p b t) := by
  obtain ⟨hp, rfl⟩ | ⟨hp, hc, rfl, rfl⟩ := h
  · exact execFrameDec_byte (.inl ⟨hp, rfl⟩) hq
  · rw [execFrameDec_byte (.inr ⟨hp, hc, rfl, rfl⟩) hq]
    exact congrArg _ (rxByte_setRx _ RxProgress.start b { s with tl := s.thresh, rxq := q })

/-- Settles O56, control point by control point. -/
theorem frameDecTakesOneByteAStep : Obligations.FrameDecTakesOneByteAStep := by
  refine ⟨by decide, ?_⟩
  intro s t p b q hq h at' failed
  have hpayCap : t.params.payCap = s.params.payCap := by obtain ⟨-, rfl⟩ | ⟨-, -, -, rfl⟩ := h <;> rfl
  rw [exec_frameDec_takes hq h, ← hpayCap]
  refine ⟨fun i acc hp => ?_, fun tlen buf hp => ⟨fun hlt => ?_, fun hle => ⟨fun f hf => ?_, fun e he => ?_⟩⟩,
    fun tlen j hp => ⟨fun hlt => ?_, fun hle => ?_⟩⟩
  · rw [← addGroup_eq]
    refine ⟨fun hb hi => ?_, fun hb hi => ?_, fun hb h0 => ?_, fun hb h0 hcap => ?_, fun hb h0 hcap => ?_⟩
    · exact congrArg _ (rxByte_len_more hp hb hi)
    · exact congrArg _ (rxByte_len_tooLarge hp hb hi)
    · exact congrArg _ ((rxByte_len_last hp hb).trans (gotLength_nonPositive h0))
    · exact congrArg _ ((rxByte_len_last hp hb).trans (gotLength_skip h0 hcap))
    · exact congrArg _ ((rxByte_len_last hp hb).trans (gotLength_take h0 hcap))
  · exact congrArg _ (rxByte_take_more hp hlt)
  · exact congrArg _ ((rxByte_take_last hp hle).trans (finishFrame_ok hf))
  · exact congrArg _ ((rxByte_take_last hp hle).trans (finishFrame_error he))
  · exact congrArg _ (rxByte_skip_more hp hlt)
  · exact congrArg _ (rxByte_skip_last hp hle)

/-! ### FRAME.DEC with no byte waiting -/

section
variable {p : RxProgress} {s : State} (hq : s.rxq = [])
include hq

/-- The error of the stream comes before its end (R262). -/
theorem rxStep_rxerr (h : s.rxerr = true) :
    rxStep p s = s.frameFail p.point.ftlen 0 ⟨.rxIoError, word32 p.taken⟩ := by
  simp only [rxStep, hq, h, if_true]

/-- The end of the stream (R262). -/
theorem rxStep_rxend (herr : s.rxerr = false) (h : s.rxend = true) :
    rxStep p s = s.frameFail p.point.ftlen 0 ⟨.rxEnd, word32 p.taken⟩ := by
  simp only [rxStep, hq, herr, h, Bool.false_eq_true, if_false, if_true]

/-- With neither, FRAME.DEC holds (R262). -/
theorem rxStep_holds (herr : s.rxerr = false) (hend : s.rxend = false) : rxStep p s = s := by
  simp only [rxStep, hq, herr, hend, Bool.false_eq_true, if_false]

end

/-- When FRAME.DEC holds (R44). -/
theorem held_iff (s : State) :
    s.held = true ↔ s.busy = true ∧ s.cur = 0x00000051 ∧ (s.rx ≠ none ∨ s.closed = false) ∧ s.rxq = [] ∧
      s.rxend = false ∧ s.rxerr = false := by
  simp [State.held, State.receiving, Option.isSome_iff_ne_none, and_assoc]

/-- The fields that say whether FRAME.DEC holds. -/
theorem held_congr {s t : State} (hs : s.held = true) (hb : t.busy = s.busy) (hcur : t.cur = s.cur) (hrx : t.rx = s.rx)
    (hc : t.closed = s.closed) (hq : t.rxq = s.rxq) (hend : t.rxend = s.rxend) (herr : t.rxerr = s.rxerr) :
    t.held = true := by
  rw [held_iff] at hs ⊢
  rwa [hb, hcur, hrx, hc, hq, hend, herr]

/-- A FRAME.DEC that holds goes on holding when the engine steps. -/
theorem engineStep_held {s t : State} (hs : s.held = true) (h : engineStep s = .next t) : t.held = true := by
  obtain ⟨hb, hcur, hopen, hq, hend, herr⟩ := (held_iff s).mp hs
  have hd : decode s.cur = some .frameDec := by rw [hcur]; decide
  obtain ⟨-, rfl⟩ | ⟨-, -, ⟨i, hi, h⟩ | ⟨hnone, -⟩⟩ := engineStep_cases h
  · exact hs
  · obtain rfl : .frameDec = i := Option.some.inj (hd.symm.trans hi)
    obtain ⟨u, p, ha, hu⟩ : ∃ u p, AsksAt s u p ∧ u.held = true := by
      cases hrx : s.rx with
      | some p => exact ⟨s, p, .inl ⟨hrx, rfl⟩, hs⟩
      | none =>
        have hc : s.closed = false := hopen.resolve_left fun hne => hne hrx
        exact ⟨s.startRx, _, .inr ⟨hrx, hc, rfl, rfl⟩, (held_iff _).mpr ⟨hb, hcur, .inl nofun, hq, hend, herr⟩⟩
    obtain ⟨-, -, -, hq', hend', herr'⟩ := (held_iff u).mp hu
    rw [execFrameDec_rxStep ha, rxStep_holds hq' herr' hend'] at h
    cases h
    exact hu
  · cases hd.symm.trans hnone

/-- A write of the host lifts a hold only as a stop request. -/
theorem writeWord_held {s : State} (hs : s.held = true) (addr : Nat) (v : W32) :
    (s.writeWord addr v).held = true ∨ addr = 0x0048 ∧ v.getLsbD 0 = true := by
  obtain ⟨hb, -⟩ := (held_iff s).mp hs
  have hbusy : ¬ s.busy = false := by rw [hb]; decide
  obtain h | ⟨-, h⟩ | ⟨hi, -⟩ | ⟨hi, -⟩ | ⟨ha, hv, -⟩ | h | h | ⟨hi, -⟩ | ⟨hi, -⟩ := writeWord_cases s addr v
  · exact .inl (h.symm ▸ hs)
  · exact .inl (h ▸ held_congr hs rfl rfl rfl rfl rfl rfl rfl)
  · exact absurd hi hbusy
  · exact absurd hi hbusy
  · exact .inr ⟨ha, hv⟩
  · exact .inl (h ▸ held_congr hs rfl rfl rfl rfl rfl rfl rfl)
  · exact .inl (h ▸ held_congr hs rfl rfl rfl rfl rfl rfl rfl)
  · exact absurd hi hbusy
  · exact absurd hi hbusy

/-- Settles O57: at the byte it asks for, FRAME.DEC does what the stream says, and only the moves named touch what a
hold depends on. -/
theorem frameDecHoldsOrEndsWithTheStream : Obligations.FrameDecHoldsOrEndsWithTheStream := by
  refine ⟨?_, fun s t hs h => ?_⟩
  · intro s t p hq h failed
    obtain ⟨ha, hrxq, hrxerr, hrxend⟩ :
        AsksAt s t p ∧ t.rxq = [] ∧ t.rxerr = s.rxerr ∧ t.rxend = s.rxend := by
      obtain ⟨hrx, rfl⟩ | ⟨hrx, hc, rfl, rfl⟩ := h
      · exact ⟨.inl ⟨hrx, rfl⟩, hq, rfl, rfl⟩
      · exact ⟨.inr ⟨hrx, hc, rfl, rfl⟩, hq, rfl, rfl⟩
    have hfailed (e : CmdError) : t.frameFail p.point.ftlen 0 ⟨e, word32 p.taken⟩ = failed e := by
      obtain ⟨taken, point⟩ := p
      cases point <;> rfl
    rw [execFrameDec_rxStep ha, ← hfailed, ← hfailed, ← hrxerr, ← hrxend]
    exact ⟨fun herr => congrArg _ (rxStep_rxerr hrxq herr), fun herr hend => congrArg _ (rxStep_rxend hrxq herr hend),
      fun herr hend => congrArg _ (rxStep_holds hrxq herr hend)⟩
  · obtain ⟨l, -, h⟩ | ⟨w, a, l, -, rfl⟩ | ⟨l, hsched, -⟩ | ⟨l, -, rfl⟩ | ⟨-, m, l, -, rfl⟩ |
      ⟨-, ⟨w, a, v, l, hsched, rfl⟩ | ⟨b, l, hsched, -⟩ | ⟨l, hsched, -⟩ | ⟨l, hsched, -⟩ | ⟨l, -, rfl⟩ |
        ⟨l, -, rfl⟩⟩ :=
      step_cases h
    · exact .inl (engineStep_held (s := s.setSched l) hs h)
    · obtain ⟨b, hb⟩ := busRead_eq_answer (s.setSched l) w a
      exact .inl (hb ▸ hs)
    · exact .inr ⟨l, .inr (.inr (.inr (.inl hsched)))⟩
    · exact .inl hs
    · exact .inl hs
    · by_cases hp : properAccess w a
      · obtain ⟨rfl, -⟩ := hp
        obtain hheld | ⟨ha, hv⟩ := writeWord_held (s := s.setSched l) hs a.toNat v
        · rw [State.busWrite]
          split
          · exact .inl hheld
          · exact .inl hs
        · obtain rfl : a = 0x0048 := BitVec.eq_of_toNat_eq ha
          exact .inr ⟨l, .inr (.inr (.inr (.inr ⟨v, hv, hsched⟩)))⟩
      · rw [State.busWrite, if_neg hp]
        exact .inl hs
    · exact .inr ⟨l, .inl ⟨b, hsched⟩⟩
    · exact .inr ⟨l, .inr (.inl hsched)⟩
    · exact .inr ⟨l, .inr (.inr (.inl hsched))⟩
    · obtain ⟨-, ht⟩ | ⟨b, q, -, ht⟩ := txPop_cases (s.setSched l) <;> exact .inl (ht.symm ▸ hs)
    · obtain ⟨-, ht⟩ | ⟨-, ht⟩ := txFail_cases (s.setSched l) <;> exact .inl (ht.symm ▸ hs)

end Sys2Proof.Machine
end

section
/-! PROOFS. A whole frame, byte by byte: FRAME.DEC takes the length field and then the bytes it says, or drops them
(`44_framer.md` sections 3 and 4). -/

namespace Sys2Proof.Machine

/-! ### A FRAME.DEC that takes byte after byte -/

/-- The block runs a FRAME.DEC, and no other agent moves. -/
structure State.RunsAlone (s : State) : Prop where
  sched : s.sched = []
  rst : s.rst = false
  busy : s.busy = true
  cur : s.cur = 0x00000051

/-- A FRAME.DEC at a control point, with the bytes waiting. -/
def State.asksWith (w : State) (p : RxProgress) (q : Bytes) : State := (w.setRxq q).setRx p

/-- At a control point a FRAME.DEC with bytes waiting takes a number of them, one a step, and is then in the state
`t`. -/
inductive Takes (w : State) : RxProgress → Bytes → Nat → State → Prop where
  /-- The byte on which it completes. -/
  | last {p : RxProgress} {b : Byte} {q : Bytes} {t : State} (h : rxByte p b (w.setRxq q) = t) : Takes w p (b :: q) 1 t
  /-- A byte after which it asks for another. -/
  | more {p p' : RxProgress} {b : Byte} {q : Bytes} {n : Nat} {t : State}
      (h : rxByte p b (w.setRxq q) = (w.setRxq q).setRx p') (hn : Takes w p' q n t) : Takes w p (b :: q) (n + 1) t

section
variable {w : State} (hw : w.RunsAlone)
include hw

/-- A FRAME.DEC that runs alone takes the byte waiting. -/
theorem step_asksWith (p : RxProgress) (b : Byte) (q : Bytes) :
    step (w.asksWith p (b :: q)) = .next (rxByte p b (w.setRxq q)) := by
  rw [step_frameDec (s := w.asksWith p (b :: q)) hw.sched hw.rst hw.busy hw.cur (.inl ⟨rfl, rfl⟩) rfl]
  exact congrArg _ (rxByte_setRx p p b (w.setRxq q))

/-- As many steps as bytes taken end in the state said. -/
theorem Takes.run {p : RxProgress} {q : Bytes} {n : Nat} {t : State} (h : Takes w p q n t) :
    Host.Core.run Sys2Proof.core n (w.asksWith p q) = .next t := by
  induction h with
  | last h => rw [run_succ 0 (step_asksWith hw _ _ _), run_zero, h]
  | more h _ ih => rw [run_succ _ (step_asksWith hw _ _ _), h]; exact ih

/-- After fewer steps it asks for the next of the bytes. -/
theorem Takes.run_lt {p : RxProgress} {q : Bytes} {n m : Nat} {t : State} (h : Takes w p q n t) (hm : m < n) :
    ∃ p', Host.Core.run Sys2Proof.core m (w.asksWith p q) = .next (w.asksWith p' (q.drop m)) := by
  induction h generalizing m with
  | @last p b q t h =>
    obtain rfl : m = 0 := Nat.lt_one_iff.mp hm
    exact ⟨p, rfl⟩
  | @more p p' b q n t h _ ih =>
    cases m with
    | zero => exact ⟨p, rfl⟩
    | succ m =>
      rw [run_succ _ (step_asksWith hw _ _ _), h]
      exact ih (Nat.lt_of_succ_lt_succ hm)

end

/-! ### The parts of a frame -/

section
variable {w : State} {rest : Bytes}

/-- The bytes of the length field, and then what follows the total length read. -/
theorem takes_field {field : Bytes} {point : RxPoint} {v : W32} {m : Nat} {t : State}
    (hgot : ∀ k, gotLength v k (w.setRxq rest) = (w.setRxq rest).setRx ⟨k, point⟩)
    (ht : ∀ k, Takes w ⟨k, point⟩ rest m t) {n i k : Nat} {acc : W32} (hn : i + n = 5)
    (hv : decodeGroups n i acc field = .value v (i + field.length)) :
    Takes w ⟨k, .len i acc⟩ (field ++ rest) (field.length + m) t := by
  induction field generalizing n i k acc with
  | nil =>
    have := decodeGroups_value hv
    simp at this
  | cons b field ih =>
    obtain ⟨n, rfl⟩ : ∃ n', n = n' + 1 := by
      cases n with
      | zero => cases hv
      | succ n => exact ⟨n, rfl⟩
    rw [List.cons_append, List.length_cons, Nat.add_right_comm]
    obtain hb | hb := Nat.lt_or_ge b.toNat 128
    · rw [decodeGroups_cons_of_lt hb] at hv
      injection hv with hacc hlen
      obtain rfl : field = [] := List.eq_nil_of_length_eq_zero (by rw [List.length_cons] at hlen; omega)
      refine .more ?_ ((Nat.zero_add m).symm ▸ ht (k + 1))
      rw [rxByte_len_last rfl hb, hacc]
      exact hgot _
    · rw [decodeGroups_cons_of_le hb, List.length_cons, ← Nat.add_assoc, Nat.add_right_comm] at hv
      have hi : i + 1 < 5 := by
        cases n with
        | zero => cases hv
        | succ n => omega
      exact .more (rxByte_len_more rfl hb hi) (ih (by omega) hv)

/-- The bytes of a frame that fits. -/
theorem takes_frame {pre buf : Bytes} {tlen k : Nat} (hne : buf ≠ []) (hlen : pre.length + buf.length = tlen) :
    Takes w ⟨k, .take tlen pre⟩ (buf ++ rest) buf.length (finishFrame tlen (pre ++ buf) (w.setRxq rest)) := by
  induction buf generalizing pre k with
  | nil => exact absurd rfl hne
  | cons b buf ih =>
    rw [List.length_cons] at hlen
    cases buf with
    | nil => exact .last (rxByte_take_last rfl (by rw [List.length_nil] at hlen; omega))
    | cons c buf =>
      rw [List.length_cons] at hlen
      have hrest := ih (pre := pre ++ [b]) (k := k + 1) (List.cons_ne_nil c buf) (by simp; omega)
      rw [List.append_assoc, List.singleton_append] at hrest
      exact .more (rxByte_take_more rfl (by omega)) hrest

/-- The bytes of an oversized frame. -/
theorem takes_skipped {buf : Bytes} {tlen j k : Nat} (hne : buf ≠ []) (hlen : j + buf.length = tlen) :
    Takes w ⟨k, .skip tlen j⟩ (buf ++ rest) buf.length
      ((w.setRxq rest).frameFail (word32 tlen) 0 ⟨.frameTooLarge, word32 tlen⟩) := by
  induction buf generalizing j k with
  | nil => exact absurd rfl hne
  | cons b buf ih =>
    rw [List.length_cons] at hlen
    cases buf with
    | nil => exact .last (rxByte_skip_last rfl (by rw [List.length_nil] at hlen; omega))
    | cons c buf =>
      rw [List.length_cons] at hlen
      exact .more (rxByte_skip_more rfl (by omega))
        (ih (j := j + 1) (k := k + 1) (List.cons_ne_nil c buf) (by rw [List.length_cons]; omega))

end

/-! ### A whole frame from the start -/

/-- A FRAME.DEC that has just been issued in an open block. -/
structure State.StartsFrame (s : State) : Prop extends s.RunsAlone where
  rx : s.rx = none
  closed : s.closed = false

section
variable {s : State} (hs : s.StartsFrame)
include hs

/-- With the threshold latched it runs alone too. -/
theorem State.StartsFrame.startRx_runsAlone : s.startRx.RunsAlone :=
  ⟨hs.sched, hs.rst, hs.busy, hs.cur⟩

/-- Its first step is the step at the start of a frame. -/
theorem State.StartsFrame.step_eq {b : Byte} {q : Bytes} (hq : s.rxq = b :: q) :
    step s = step (s.startRx.asksWith RxProgress.start s.rxq) := by
  rw [step_frameDec hs.sched hs.rst hs.busy hs.cur (.inr ⟨hs.rx, hs.closed, rfl, rfl⟩) hq, hq,
    step_asksWith hs.startRx_runsAlone]

/-- So is every run but the empty one. -/
theorem State.StartsFrame.run_eq {n : Nat} (hn : 0 < n) (hq : s.rxq ≠ []) :
    Host.Core.run Sys2Proof.core n s =
      Host.Core.run Sys2Proof.core n (s.startRx.asksWith RxProgress.start s.rxq) := by
  obtain ⟨n, rfl⟩ : ∃ m, n = m + 1 := Nat.exists_eq_add_of_le' hn
  obtain ⟨b, q, hcons⟩ := List.exists_cons_of_ne_nil hq
  have hstep := hs.step_eq hcons
  obtain ⟨t, ht⟩ : ∃ t, step (s.startRx.asksWith RxProgress.start s.rxq) = .next t := by
    rw [hcons]
    exact ⟨_, step_asksWith hs.startRx_runsAlone _ _ _⟩
  rw [run_succ n (hstep.trans ht), run_succ n ht]

end

section
variable {w : State} {field buf rest : Bytes} {v : W32} (hfield : decodeVarint field = .value v field.length)
  (h0 : 0 < v.toInt) (hbuf : buf.length = v.toNat)
include h0 hbuf

/-- A frame of a positive length has a byte. -/
theorem ne_nil_of_length_pos : buf ≠ [] := by
  rintro rfl
  rw [toInt_of_nonneg h0.le, ← hbuf] at h0
  exact absurd h0 (lt_irrefl _)

include hfield

/-- A frame that fits is taken byte by byte and then finished. -/
theorem takes_whole_frame (hcap : v.toNat ≤ w.params.payCap) :
    Takes w RxProgress.start (field ++ buf ++ rest) (field.length + buf.length)
      (finishFrame v.toNat buf (w.setRxq rest)) := by
  have hne : buf ≠ [] := ne_nil_of_length_pos h0 hbuf
  rw [List.append_assoc]
  exact takes_field (rest := buf ++ rest) (fun k => gotLength_take h0 hcap)
    (fun k => takes_frame (pre := []) hne ((Nat.zero_add _).trans hbuf)) rfl (by rwa [Nat.zero_add])

/-- An oversized frame is dropped byte by byte. -/
theorem takes_whole_skipped (hcap : w.params.payCap < v.toNat) :
    Takes w RxProgress.start (field ++ buf ++ rest) (field.length + buf.length)
      ((w.setRxq rest).frameFail (word32 v.toNat) 0 ⟨.frameTooLarge, word32 v.toNat⟩) := by
  have hne : buf ≠ [] := ne_nil_of_length_pos h0 hbuf
  rw [List.append_assoc]
  exact takes_field (rest := buf ++ rest) (fun k => gotLength_skip h0 hcap)
    (fun k => takes_skipped hne ((Nat.zero_add _).trans hbuf)) rfl (by rwa [Nat.zero_add])

end

/-- What is counted in a word is the word. -/
theorem word32_toNat (v : W32) : word32 v.toNat = v := by
  rw [word32, BitVec.ofNat_toNat, BitVec.setWidth_eq]

section
variable {s t : State} (hs : s.StartsFrame) {n : Nat}
  (h : Takes s.startRx RxProgress.start s.rxq n t)
include hs h

/-- A FRAME.DEC that takes its bytes from the start ends where they lead. -/
theorem Takes.run_start (hn : 0 < n) : Host.Core.run Sys2Proof.core n s = .next t := by
  have hq : s.rxq ≠ [] := by intro hq; rw [hq] at h; cases h
  rw [hs.run_eq hn hq]
  exact h.run hs.startRx_runsAlone

/-- Before that it is in execution, the bytes not yet taken are in RXQ, and no completion is counted. -/
theorem Takes.run_start_lt {m : Nat} (hm : m < n) :
    ∃ u : State, Host.Core.run Sys2Proof.core m s = .next u ∧ u.busy = true ∧ u.rxq = s.rxq.drop m ∧
      u.cmdcnt = s.cmdcnt := by
  have hq : s.rxq ≠ [] := by intro hq; rw [hq] at h; cases h
  cases m with
  | zero => exact ⟨s, run_zero s, hs.busy, rfl, rfl⟩
  | succ m =>
    obtain ⟨p', hrun⟩ := h.run_lt hs.startRx_runsAlone hm
    exact ⟨_, (hs.run_eq m.succ_pos hq).trans hrun, hs.busy, rfl, rfl⟩

end

/-- Settles O58: the bytes of the frame are taken one a step, and the last finishes the frame. -/
theorem frameDecTakesExactlyOneFrame : Obligations.FrameDecTakesExactlyOneFrame := by
  intro s field buf rest v hsched hr hb hcur hrx hc hq hfield h0 hcap hbuf t
  have hs : s.StartsFrame := ⟨⟨hsched, hr, hb, hcur⟩, hrx, hc⟩
  have htakes : Takes s.startRx RxProgress.start s.rxq (field.length + buf.length)
      (finishFrame v.toNat buf (s.startRx.setRxq rest)) := by
    rw [hq]
    exact takes_whole_frame hfield h0 hbuf hcap
  have hpos : 0 < field.length + buf.length := by
    obtain ⟨hk, -, -⟩ := decodeVarint_value hfield
    omega
  refine ⟨fun n hn => htakes.run_start_lt hs hn, fun f hf => ?_, fun e he => ?_⟩
  · rw [htakes.run_start hs hpos, finishFrame_ok (s := s.startRx.setRxq rest) hf, word32_toNat]
    rfl
  · rw [htakes.run_start hs hpos, finishFrame_error (s := s.startRx.setRxq rest) he, word32_toNat]
    rfl

/-- Settles O59: the bytes of the frame are dropped one a step, and the last completes with the error. -/
theorem oversizedFrameIsDiscardedWhole : Obligations.OversizedFrameIsDiscardedWhole := by
  intro s field buf rest v hsched hr hb hcur hrx hc hq hfield h0 hcap hbuf
  have hs : s.StartsFrame := ⟨⟨hsched, hr, hb, hcur⟩, hrx, hc⟩
  have htakes : Takes s.startRx RxProgress.start s.rxq (field.length + buf.length)
      ((s.startRx.setRxq rest).frameFail (word32 v.toNat) 0 ⟨.frameTooLarge, word32 v.toNat⟩) := by
    rw [hq]
    exact takes_whole_skipped hfield h0 hbuf hcap
  have hpos : 0 < field.length + buf.length := by
    obtain ⟨hk, -, -⟩ := decodeVarint_value hfield
    omega
  rw [htakes.run_start hs hpos, word32_toNat]
  rfl

/-! ### From FRAME.ENC to FRAME.DEC -/

/-- A VarInt there and back (R167). -/
theorem decodeVarint_encodeVarint (v : W32) (t : Bytes) :
    decodeVarint (encodeVarint v ++ t) = .value v (encodeVarint v).length := varIntRoundTrip.1 v t

/-- The content of a message starts with its opcode (R261). -/
theorem frameOpcode_frameInner (d opcode : W32) (payload : Bytes) :
    frameOpcode d (frameInner opcode payload) = .ok ⟨opcode, payload, d⟩ := by
  obtain ⟨hvalue, -, -⟩ := frameOpcode_of_decodeVarint d (frameInner opcode payload)
  rw [hvalue _ _ (decodeVarint_encodeVarint opcode payload), frameInner, List.drop_left]

/-- The content of a message has a byte. -/
theorem frameInner_length_pos (opcode : W32) (payload : Bytes) : 0 < (frameInner opcode payload).length := by
  obtain ⟨hpos, -⟩ := encodeVarint_length opcode
  rw [frameInner, List.length_append]
  omega

/-- A count below `2^31` is a positive `i32` when it is positive. -/
theorem toInt_word32 {n : Nat} (h : n < 2 ^ 31) : (word32 n).toInt = n ∧ (word32 n).toNat = n := by
  have hnat : (word32 n).toNat = n := Nat.mod_eq_of_lt (by omega)
  exact ⟨by rw [BitVec.toInt_eq_toNat_of_lt (by omega), hnat], hnat⟩

/-- The data length that goes with a message: its length from the threshold on, else 0 (R254, R259). -/
def frameDlen (tl opcode : W32) (payload : Bytes) : Nat :=
  if 0 ≤ tl.toInt ∧ tl.toInt ≤ (frameInner opcode payload).length then (frameInner opcode payload).length else 0

/-- A frame is its length field and as many bytes, and these hold the message for a receiver with the same threshold
and room for the message. -/
theorem frameBytes_parse {zip : ZipUnit} {tl opcode : W32} {payload f : Bytes} {payCap : Nat}
    (hf : frameBytes zip tl opcode payload = .ok f) (hinner : (frameInner opcode payload).length ≤ payCap)
    (hcap : payCap < 2 ^ 31) :
    ∃ (body : Bytes) (d : W32), f = encodeVarint (word32 body.length) ++ body ∧ 0 < body.length ∧
      d.toNat = frameDlen tl opcode payload ∧ parseFrame zip payCap tl body = .ok ⟨opcode, payload, d⟩ := by
  have hpos := frameInner_length_pos opcode payload
  obtain ⟨hint, hnat⟩ := toInt_word32 (hinner.trans_lt hcap)
  obtain hneg | h0 := lt_or_ge tl.toInt 0
  · rw [frameBytes_plain hneg] at hf
    cases hf
    refine ⟨_, 0, rfl, hpos, ?_, ?_⟩
    · rw [frameDlen, if_neg fun h => absurd h.1 (not_le.mpr hneg)]
      rfl
    · rw [parseFrame_plain hneg, frameOpcode_frameInner]
  obtain hlt | hle := lt_or_ge ((frameInner opcode payload).length : Int) tl.toInt
  · rw [frameBytes_short hlt] at hf
    cases hf
    have hlen : (0x00 :: frameInner opcode payload : Bytes).length = 1 + (frameInner opcode payload).length := by
      rw [List.length_cons, Nat.add_comm]
    refine ⟨0x00 :: frameInner opcode payload, 0, by rw [hlen, List.append_assoc]; rfl, Nat.succ_pos _, ?_, ?_⟩
    · rw [frameDlen, if_neg fun h => absurd h.2 (not_le.mpr hlt)]
      rfl
    · have hzero : decodeVarint (0x00 :: frameInner opcode payload) = .value 0 1 :=
        decodeVarint_encodeVarint 0 (frameInner opcode payload)
      rw [parseFrame_body h0 (frameBody_uncompressed hzero), List.drop_one, List.tail_cons, frameOpcode_frameInner]
  · rw [frameBytes_deflated h0 hle] at hf
    split_ifs at hf
    cases hf
    obtain ⟨hfield, -⟩ := encodeVarint_length (word32 (frameInner opcode payload).length)
    refine ⟨encodeVarint (word32 (frameInner opcode payload).length) ++ zip.deflate (frameInner opcode payload),
      word32 (frameInner opcode payload).length, ?_, ?_, ?_, ?_⟩
    · rw [List.length_append, List.append_assoc]
      rfl
    · rw [List.length_append]
      omega
    · rw [frameDlen, if_pos ⟨h0, hle⟩, hnat]
    · have hdlen := decodeVarint_encodeVarint (word32 (frameInner opcode payload).length)
        (zip.deflate (frameInner opcode payload))
      have hne : word32 (frameInner opcode payload).length ≠ 0 := by
        intro hzero
        rw [hzero] at hnat
        exact absurd hnat.symm hpos.ne'
      obtain ⟨-, hinflated⟩ := frameBody_compressed (zip := zip) (payCap := payCap) hdlen hne (by omega)
      obtain ⟨-, hbody⟩ := hinflated (frameInner opcode payload) (by rw [List.drop_left, zip.zipRt])
      rw [parseFrame_body h0 (hbody hint.symm), frameOpcode_frameInner]

/-- Every error has an ERR word other than 0. -/
theorem errWord_ne_zero (e : CmdError) : e.errWord ≠ 0 := by
  cases e <;> decide

/-- A FRAME.ENC that ends without error has emitted the frame of its message. -/
theorem exec_frameEnc_of_err {ra : Reg} {s t : State} (h : exec (.frameEnc ra) s = .next t) (he : t.err = 0) :
    ∃ f, frameBytes Config.zip s.thresh (BitVec.ofNat 32 s.x[ra].toNat) s.bld = .ok f ∧ t.txq = s.txq ++ f := by
  obtain ⟨-, rfl⟩ | ⟨-, e, rfl⟩ | ⟨-, u, ⟨-, f, hf, rfl⟩, rfl⟩ :=
    exec_oneStep_cases (by simp) (by simp) (by simp) h
  · exact absurd he (errWord_ne_zero _)
  · exact absurd he (errWord_ne_zero _)
  · rw [trunc_eq] at hf
    exact ⟨f, hf, rfl⟩

/-- Settles O60: the frame emitted is a length field and as many bytes, which hold the message. -/
theorem frameRoundTrip : Obligations.FrameRoundTrip := by
  intro ra s t d rest hc henc herr hsched hr hb hcur hrx hdc hthresh inner hinner hcap f htxq hq hfit
  have hd : d.StartsFrame := ⟨⟨hsched, hr, hb, hcur⟩, hrx, hdc⟩
  obtain ⟨f', hf, htxq'⟩ := exec_frameEnc_of_err henc herr
  obtain rfl : f = f' := List.append_cancel_left (htxq.symm.trans htxq')
  obtain ⟨body, dlen, rfl, hpos, hdlen, hparse⟩ := frameBytes_parse hf hinner hcap
  have hbody : body.length ≤ d.params.payCap := by
    have hlen := hfit _ _ (decodeVarint_encodeVarint (word32 body.length) body)
    rw [List.length_append] at hlen
    omega
  obtain ⟨hint, hnat⟩ := toInt_word32 (hbody.trans_lt hcap)
  have hfield : decodeVarint (encodeVarint (word32 body.length)) =
      .value (word32 body.length) (encodeVarint (word32 body.length)).length := by
    simpa using decodeVarint_encodeVarint (word32 body.length) []
  have htakes : Takes d.startRx RxProgress.start d.rxq (encodeVarint (word32 body.length) ++ body).length
      (finishFrame (word32 body.length).toNat body (d.startRx.setRxq rest)) := by
    rw [hq, List.length_append]
    exact takes_whole_frame hfield (by omega) hnat.symm (hnat.trans_le hbody)
  have hparse' : parseFrame Config.zip d.params.payCap (d.startRx.setRxq rest).tl body =
      .ok ⟨BitVec.ofNat 32 s.x[ra].toNat, s.bld, dlen⟩ := by
    rw [← hparse, ← hthresh]
    rfl
  refine ⟨_, htakes.run_start hd (by rw [List.length_append]; omega), ?_⟩
  rw [finishFrame_ok hparse']
  refine ⟨rfl, rfl, rfl, rfl, rfl, rfl, ?_, hdlen⟩
  rw [← hthresh]
  exact decide_eq_true_iff

end Sys2Proof.Machine
end

section
/-! PROOFS. The register bus (`20_memory.md`): general registers, the routing table, control and status registers,
interrupts (`60_exceptions.md` section 4), the stop request, and the moves of the transports. -/

namespace Sys2Proof.Machine

variable {s : State} {l : List Move}

/-! ### Writes while a command runs -/

/-- A write is discarded while a command runs (R95). -/
theorem whenIdle_busy (hb : s.busy = true) (t : State) : s.whenIdle t = s.setOvr := by
  rw [State.whenIdle, hb, if_pos rfl]

/-- A write to an idle block takes effect (R95). -/
theorem whenIdle_idle (hb : s.busy = false) (t : State) : s.whenIdle t = t := by
  rw [State.whenIdle, hb, if_neg Bool.false_ne_true]

section
variable {a : Nat} (v : W32)

/-- A write to a general register. -/
theorem writeWord_reg (ha : a < 0x0040) : s.writeWord a v = s.whenIdle (s.writeRegWord a v) := by
  rw [State.writeWord, if_pos ha]

/-- A write to CMD. -/
theorem writeWord_cmd : s.writeWord 0x0044 v = s.whenIdle (s.issue v) := rfl

/-- A write to CTRL. -/
theorem writeWord_ctrl : s.writeWord 0x0048 v = if v.getLsbD 0 then s.stopRx else s := rfl

/-- A write to IE. -/
theorem writeWord_ie : s.writeWord 0x005C v = s.setIe v := rfl

/-- A write to IP. -/
theorem writeWord_ip : s.writeWord 0x0060 v = s.clearIp v := rfl

/-- A write to the routing table. -/
theorem writeWord_rt (ha : s.rtAddr a) : s.writeWord a v = s.whenIdle (s.writeRtWord a v) := by
  rw [State.writeWord, if_neg (by omega), if_neg (by omega), if_neg (by omega), if_neg (by omega), if_neg (by omega),
    if_pos ha]

/-- A write to the SCR window. -/
theorem writeWord_scr (hv : s.params.Valid) (ha : s.scrAddr a) :
    s.writeWord a v = s.whenIdle (s.writeScrWord a v) := by
  rw [State.writeWord, if_neg (by omega), if_neg (by omega), if_neg (by omega), if_neg (by omega), if_neg (by omega),
    if_neg (not_rtAddr_of_scrAddr hv ha), if_pos ha]

end

/-- The regions whose writes are discarded while a command runs (R95). -/
theorem writeWord_busy {a : Nat} (hv : s.params.Valid) (hb : s.busy = true)
    (h : a < 0x0040 ∨ a = 0x0044 ∨ s.rtAddr a ∨ s.scrAddr a) (v : W32) : s.writeWord a v = s.setOvr := by
  obtain ha | rfl | ha | ha := h
  · rw [writeWord_reg v ha, whenIdle_busy hb]
  · rw [writeWord_cmd, whenIdle_busy hb]
  · rw [writeWord_rt v ha, whenIdle_busy hb]
  · rw [writeWord_scr v hv ha, whenIdle_busy hb]

/-- Settles O23: the four regions are discarded by the same test, which the writes to IE and IP do not make. -/
theorem writesWhileBusyAreDiscarded : Obligations.WritesWhileBusyAreDiscarded := by
  intro s a v l hv hr hb h4 hs
  refine ⟨fun h => ?_, ?_, ?_⟩
  · have ha : a < 0x10000 := by
      obtain ⟨-, -, -, -, -, -, hscr, -, hrt⟩ := hv
      omega
    refine ⟨_, step_busWrite_ofNat hr ha h4 hs, ?_⟩
    rw [writeWord_busy (s := s.setSched l) hv hb h]
    rfl
  · rintro rfl
    refine ⟨_, step_busWrite_ofNat hr (by decide) h4 hs, ?_⟩
    rw [writeWord_ie, State.setIe, trunc_eq]
    rfl
  · rintro rfl
    refine ⟨_, step_busWrite_ofNat hr (by decide) h4 hs, ?_⟩
    rw [writeWord_ip, State.clearIp, trunc_eq]
    rfl

/-! ### General registers -/

/-- The bus address of a register's low word. -/
theorem busReg_low (r : Reg) : busReg (8 * r.val) = r ∧ upperWord (8 * r.val) = false := by
  revert r; decide

/-- The bus address of a register's high word. -/
theorem busReg_high (r : Reg) : busReg (8 * r.val + 4) = r ∧ upperWord (8 * r.val + 4) = true := by
  revert r; decide

/-- A register from its words, as a number. -/
theorem joinWords_eq (hi lo : W32) : joinWords hi lo = BitVec.ofNat 64 (hi.toNat * 2 ^ 32 + lo.toNat) := by
  have hhi := hi.isLt
  have hlo := lo.isLt
  have hshift : hi.toNat <<< 32 = 2 ^ 32 * hi.toNat := by rw [Nat.shiftLeft_eq, Nat.mul_comm]
  apply BitVec.eq_of_toNat_eq
  rw [joinWords, BitVec.toNat_or, BitVec.toNat_shiftLeft, BitVec.toNat_setWidth, BitVec.toNat_setWidth,
    Nat.mod_eq_of_lt (by omega : hi.toNat < 2 ^ 64), Nat.mod_eq_of_lt (by omega : lo.toNat < 2 ^ 64), hshift,
    Nat.mod_eq_of_lt (by omega : 2 ^ 32 * hi.toNat < 2 ^ 64), ← Nat.two_pow_add_eq_or_of_lt hlo, BitVec.toNat_ofNat,
    Nat.mul_comm]
  exact (Nat.mod_eq_of_lt (by omega)).symm

/-- The high word of a register. -/
theorem trunc_high (v : W64) : trunc 32 (v >>> 32) = BitVec.ofNat 32 (v.toNat / 2 ^ 32) := by
  rw [trunc_eq, BitVec.toNat_ushiftRight, Nat.shiftRight_eq_div_pow]

/-- A word read at a register's low word. -/
theorem busWord_reg_low (r : Reg) : s.busWord (8 * r.val) = BitVec.ofNat 32 s.x[r].toNat := by
  obtain ⟨hreg, hupper⟩ := busReg_low r
  rw [State.busWord, if_pos (by omega), hupper, hreg, trunc_eq]
  rfl

/-- A word read at a register's high word. -/
theorem busWord_reg_high (r : Reg) : s.busWord (8 * r.val + 4) = BitVec.ofNat 32 (s.x[r].toNat / 2 ^ 32) := by
  obtain ⟨hreg, hupper⟩ := busReg_high r
  rw [State.busWord, if_pos (by omega), hupper, hreg, trunc_high]
  rfl

/-- A word written to a register's low word. -/
theorem writeWord_reg_low (hb : s.busy = false) (r : Reg) (v : W32) :
    s.writeWord (8 * r.val) v = s.setReg r (BitVec.ofNat 64 (s.x[r].toNat / 2 ^ 32 * 2 ^ 32 + v.toNat)) := by
  obtain ⟨hreg, hupper⟩ := busReg_low r
  have hx : s.x[r].toNat / 2 ^ 32 < 2 ^ 32 := Nat.div_lt_of_lt_mul s.x[r].isLt
  have hhi : (trunc 32 (s.reg r >>> 32)).toNat = s.x[r].toNat / 2 ^ 32 := by
    rw [trunc_high]
    exact Nat.mod_eq_of_lt hx
  rw [writeWord_reg v (by omega), whenIdle_idle hb, State.writeRegWord, hupper, hreg]
  exact congrArg (s.setReg r) (by rw [if_neg Bool.false_ne_true, joinWords_eq, hhi])

/-- A word written to a register's high word. -/
theorem writeWord_reg_high (hb : s.busy = false) (r : Reg) (v : W32) :
    s.writeWord (8 * r.val + 4) v = s.setReg r (BitVec.ofNat 64 (v.toNat * 2 ^ 32 + s.x[r].toNat % 2 ^ 32)) := by
  obtain ⟨hreg, hupper⟩ := busReg_high r
  have hlo : (trunc 32 (s.reg r)).toNat = s.x[r].toNat % 2 ^ 32 := by rw [trunc_eq]; rfl
  rw [writeWord_reg v (by omega), whenIdle_idle hb, State.writeRegWord, hupper, hreg]
  exact congrArg (s.setReg r) (by rw [if_pos rfl, joinWords_eq, hlo])

/-- Settles O20: the two words of a register are its number's halves. -/
theorem busMovesRegisterWords : Obligations.BusMovesRegisterWords := by
  intro s r v l
  refine ⟨fun hs => ?_, fun hs => ?_, fun hr hb hs => ?_, fun hr hb hs => ?_⟩
  · rw [step_busRead_ofNat (by omega) (by omega) hs, busWord_reg_low]
    rfl
  · rw [step_busRead_ofNat (by omega) (by omega) hs, busWord_reg_high]
    rfl
  · refine ⟨_, step_busWrite_ofNat hr (by omega) (by omega) hs, ?_⟩
    rw [writeWord_reg_low (s := s.setSched l) hb]
    rfl
  · refine ⟨_, step_busWrite_ofNat hr (by omega) (by omega) hs, ?_⟩
    rw [writeWord_reg_high (s := s.setSched l) hb]
    rfl

/-! ### The routing table -/

section
variable {k : Nat} (hk : k < s.params.rtN)

/-- The bus addresses of an RT entry's two words. -/
theorem rtIndex_eq (k : Nat) : rtIndex (0x0100 + 8 * k) = k ∧ rtIndex (0x0104 + 8 * k) = k := by
  simp only [rtIndex]
  omega

/-- The second of the two is the upper word. -/
theorem upperWord_rt (k : Nat) : upperWord (0x0100 + 8 * k) = false ∧ upperWord (0x0104 + 8 * k) = true := by
  simp only [upperWord, beq_eq_false_iff_ne, beq_iff_eq]
  omega

include hk

/-- A word read at an RT entry's first word. -/
theorem busWord_rt_opc (h : k < s.rt.length) : s.busWord (0x0100 + 8 * k) = s.rt[k].opc := by
  obtain ⟨hidx, -⟩ := rtIndex_eq k
  obtain ⟨hupper, -⟩ := upperWord_rt k
  rw [State.busWord, if_neg (by omega), if_neg (by omega), if_pos (by omega), hupper, hidx,
    List.getD_eq_getElem _ _ h]
  rfl

/-- A word read at an RT entry's second word. -/
theorem busWord_rt_ctl (h : k < s.rt.length) : s.busWord (0x0104 + 8 * k) = s.rt[k].ctl := by
  obtain ⟨-, hidx⟩ := rtIndex_eq k
  obtain ⟨-, hupper⟩ := upperWord_rt k
  rw [State.busWord, if_neg (by omega), if_neg (by omega), if_pos (by omega), hupper, hidx,
    List.getD_eq_getElem _ _ h]
  rfl

variable (hb : s.busy = false) (h : k < s.rt.length) (v : W32)
include hb

/-- A word written to an RT entry's first word. -/
theorem writeWord_rt_opc : s.writeWord (0x0100 + 8 * k) v = s.setRt (s.rt.set k ⟨v, s.rt[k].ctl⟩) := by
  obtain ⟨hidx, -⟩ := rtIndex_eq k
  obtain ⟨hupper, -⟩ := upperWord_rt k
  rw [writeWord_rt v (by omega), whenIdle_idle hb, State.writeRtWord, hupper, hidx, List.modify_eq_set_getElem?,
    List.getElem?_eq_getElem h]
  rfl

/-- A word written to an RT entry's second word. -/
theorem writeWord_rt_ctl : s.writeWord (0x0104 + 8 * k) v = s.setRt (s.rt.set k ⟨s.rt[k].opc, v &&& 0x0000FF07⟩) := by
  obtain ⟨-, hidx⟩ := rtIndex_eq k
  obtain ⟨-, hupper⟩ := upperWord_rt k
  rw [writeWord_rt v (by omega), whenIdle_idle hb, State.writeRtWord, hupper, hidx, List.modify_eq_set_getElem?,
    List.getElem?_eq_getElem h]
  rfl

end

/-- Settles O22: the two words of an entry are its two fields. -/
theorem busMovesRoutingEntries : Obligations.BusMovesRoutingEntries := by
  intro s k v l h hlen hmax
  have hk : k < s.params.rtN := hlen ▸ h
  refine ⟨fun hs => ?_, fun hs => ?_, fun hr hb hs => ?_, fun hr hb hs => ?_⟩
  · rw [step_busRead_ofNat (by omega) (by omega) hs, busWord_rt_opc hk h]
    rfl
  · rw [step_busRead_ofNat (by omega) (by omega) hs, busWord_rt_ctl hk h]
    rfl
  · refine ⟨_, step_busWrite_ofNat hr (by omega) (by omega) hs, ?_⟩
    rw [writeWord_rt_opc (s := s.setSched l) hk hb h]
    rfl
  · refine ⟨_, step_busWrite_ofNat hr (by omega) (by omega) hs, ?_⟩
    rw [writeWord_rt_ctl (s := s.setSched l) hk hb h]
    rfl

/-! ### Control and status registers -/

/-- The bits of a flag at its place. -/
theorem getLsbD_flagAt (b : Bool) {k n : Nat} (hn : n < 32) : (flagAt b k).getLsbD n = (b && n == k) := by
  rw [flagAt, BitVec.getLsbD_shiftLeft, BitVec.getLsbD_setWidth, BitVec.getLsbD_ofBool, Bool.eq_iff_iff]
  simp only [Bool.and_eq_true, Bool.not_eq_true', decide_eq_true_eq, decide_eq_false_iff_not, beq_iff_eq]
  cases b
  · simp
  · simp
    omega

/-- STATUS, bit by bit (R44). -/
theorem getLsbD_statusWord (s : State) {n : Nat} (hn : n < 32) :
    s.statusWord.getLsbD n = [s.busy, s.closed, s.fvalid, s.fcomp, s.ovr, s.held].getD n false := by
  simp only [State.statusWord, BitVec.getLsbD_or, getLsbD_flagAt _ hn]
  match n with
  | 0 | 1 | 2 | 3 | 4 | 5 | k + 6 => simp

/-- STREAM, bit by bit (R65). -/
theorem getLsbD_streamWord (s : State) {n : Nat} (hn : n < 32) :
    s.streamWord.getLsbD n = [s.rxend, s.rxerr, s.txerr].getD n false := by
  simp only [State.streamWord, BitVec.getLsbD_or, getLsbD_flagAt _ hn]
  match n with
  | 0 | 1 | 2 | k + 3 => simp

/-- The address is that of a control or status register which no write changes (R40). -/
abbrev ReadOnlyAddr (a : Nat) : Prop :=
  0x0040 ≤ a ∧ a < 0x0100 ∧ a % 4 = 0 ∧ a ≠ 0x0044 ∧ a ≠ 0x0048 ∧ a ≠ 0x005C ∧ a ≠ 0x0060

/-- A read-only register ignores a write. -/
theorem writeWord_readOnly {a : Nat} (ha : ReadOnlyAddr a) (v : W32) : s.writeWord a v = s := by
  obtain ⟨hlo, hhi, -, hcmd, hctrl, hie, hip⟩ := ha
  rw [State.writeWord, if_neg (by omega), if_neg hcmd, if_neg hctrl, if_neg hie, if_neg hip, if_neg (by omega),
    if_neg (by omega)]

/-- The registers that a word read shows as numbers. -/
theorem control_numbers (s : State) :
    [0x005C, 0x0060, 0x0068, 0x0074, 0x0078, 0x007C, 0x0080].map (fun a => (s.busWord a).toNat) =
      [s.ie.toNat, s.ip.toNat, s.phase.number, s.route.toNat, s.bld.length % 2 ^ 32, s.pay.length % 2 ^ 32,
        s.rpos % 2 ^ 32] := by
  have hie : (s.busWord 0x005C).toNat = s.ie.toNat :=
    BitVec.toNat_setWidth_of_le (b := s.ie) (by decide : 2 ≤ 32)
  have hip : (s.busWord 0x0060).toNat = s.ip.toNat :=
    BitVec.toNat_setWidth_of_le (b := s.ip) (by decide : 2 ≤ 32)
  have hphase : (s.busWord 0x0068).toNat = s.phase.number :=
    (BitVec.toNat_setWidth_of_le (by decide)).trans s.phase.toNat_code
  have hroute : (s.busWord 0x0074).toNat = s.route.toNat :=
    BitVec.toNat_setWidth_of_le (b := s.route) (by decide : 8 ≤ 32)
  rw [List.map_cons, List.map_cons, List.map_cons, List.map_cons, hie, hip, hphase, hroute]
  rfl

/-- Settles O26, by the map of the registers. -/
theorem controlRegistersReadAsTheMapSays : Obligations.ControlRegistersReadAsTheMapSays := by
  refine ⟨fun s => ⟨fun _ => getLsbD_statusWord s, held_iff s, fun _ => getLsbD_streamWord s, rfl,
    control_numbers s⟩, fun s a l h4 hs => step_busRead h4 hs, fun s v l hr a ha hs => ?_⟩
  have hro : ReadOnlyAddr a := by
    clear hs
    revert a
    decide
  obtain ⟨hlo, hhi, h4, -⟩ := id hro
  refine ⟨_, step_busWrite_ofNat hr (by omega) h4 hs, ?_⟩
  rw [writeWord_readOnly (s := s.setSched l) hro]
  rfl

/-! ### Interrupts -/

/-- The interrupt line, bit by bit (R346). -/
theorem irq_iff (s : State) : s.irq = true ↔ ∃ n < 2, s.ip.getLsbD n = true ∧ s.ie.getLsbD n = true := by
  rw [State.irq, bne_iff_ne]
  generalize s.ip = ip
  generalize s.ie = ie
  revert ip ie
  decide

/-- Settles O27: two bits, looked at one by one. -/
theorem interruptLineFollowsIpAndIe : Obligations.InterruptLineFollowsIpAndIe := by
  refine ⟨irq_iff, fun s v l hr => ⟨fun hs => ?_, fun hs => ?_⟩⟩
  · refine ⟨_, step_busWrite hr (by decide) hs, rfl, fun n hn => ?_⟩
    change (trunc 2 v).getLsbD n = v.getLsbD n
    rw [trunc, BitVec.getLsbD_setWidth, decide_eq_true hn, Bool.true_and]
  · refine ⟨_, step_busWrite hr (by decide) hs, rfl, fun n hn => ?_⟩
    change (s.ip &&& ~~~(trunc 2 v)).getLsbD n = (s.ip.getLsbD n && !v.getLsbD n)
    rw [trunc, BitVec.getLsbD_and, BitVec.getLsbD_not, BitVec.getLsbD_setWidth, decide_eq_true hn, Bool.true_and,
      Bool.true_and]

/-! ### The stop request -/

/-- A stop request that finds no held FRAME.DEC does nothing (R349). -/
theorem stopRx_idle (hh : s.held = false) : s.stopRx = s := by
  rw [State.stopRx, hh, if_neg Bool.false_ne_true]

/-- A stop request ends a held FRAME.DEC at its control point (R349). -/
theorem stopRx_held {p : RxProgress} (hh : s.held = true) (hp : s.rx.getD RxProgress.start = p) :
    s.stopRx = s.frameFail p.point.ftlen 0 ⟨.stopped, word32 p.taken⟩ := by
  rw [State.stopRx, hh, if_pos rfl, hp]

/-- What a FRAME.DEC that the host has stopped leaves: the error closes the block. -/
theorem frameFail_stopped (s : State) (ftlen info : W32) :
    s.frameFail ftlen 0 ⟨.stopped, info⟩ = { s with
      fvalid := false
      pay := []
      rpos := 0
      ftlen := ftlen
      fdlen := 0
      closed := true
      err := 0x00000501
      errinfo := info
      esticky := s.esticky ||| 2
      ip := s.ip ||| 3
      cmdcnt := s.cmdcnt + 1
      busy := false
      rx := none } := by
  have hclosed : (s.closed || CmdError.stopped.cause == .transport) = true := Bool.or_true _
  have herr : CmdError.stopped.errWord = 0x00000501 := by decide
  have hsticky : CmdError.stopped.stickyBit = 2 := by decide
  rw [← hclosed, ← herr, ← hsticky]
  rfl

/-- Settles O28: the stop request is the failure of a FRAME.DEC that holds. -/
theorem stopEndsAHeldReceive : Obligations.StopEndsAHeldReceive := by
  intro s v l hr hs
  have hstep := step_busWrite hr (by decide) hs
  refine ⟨fun hv hh => ⟨_, hstep, ?_⟩, fun h => ⟨_, hstep, ?_⟩⟩
  · obtain ⟨p, hp⟩ : ∃ p, s.rx.getD RxProgress.start = p := ⟨_, rfl⟩
    have hw : (s.setSched l).writeWord 0x0048 v =
        (s.setSched l).frameFail p.point.ftlen 0 ⟨.stopped, word32 p.taken⟩ := by
      rw [writeWord_ctrl, hv, if_pos rfl, stopRx_held (s := s.setSched l) hh hp]
    have ht := congrArg (State.answer · ⟨0, false⟩) (hw.trans (frameFail_stopped _ _ _))
    refine ht.trans ?_
    cases hrx : s.rx with
    | none =>
      rw [hrx] at hp
      subst hp
      rfl
    | some q =>
      rw [hrx] at hp
      subst hp
      obtain ⟨n, _ | _ | _⟩ := q <;> rfl
  · have hw : (s.setSched l).writeWord 0x0048 v = s.setSched l := by
      rw [writeWord_ctrl]
      obtain hv | hh := h
      · rw [hv, if_neg Bool.false_ne_true]
      · rw [stopRx_idle (s := s.setSched l) hh, ite_self]
    exact congrArg (State.answer · ⟨0, false⟩) hw

/-! ### The transports -/

/-- A move of a transport, made out of reset. -/
theorem step_move {m : Move} {f : State → State} (hs : s.sched = m :: l) (hr : s.rst = false)
    (hm : ∀ t : State, doMove m t = .next (t.unlessReset (f t))) : step s = .next (f (s.setSched l)) := by
  rw [step_of_sched_cons hs, hm, unlessReset_eq (s := s.setSched l) hr]

/-- Settles O29, move by move. -/
theorem transportMovesDoAsSaid : Obligations.TransportMovesDoAsSaid := by
  intro s b l hr
  refine ⟨fun hs hend herr => step_rxPush hs hr hend herr, fun hs h => ?_, fun hs => ?_, fun hs => ?_,
    fun q hs hq => ?_, fun hs hq => ?_, fun hs he => ?_, fun hs he => ?_⟩
  · have hin : (s.setSched l).rxPush b = s.setSched l := if_pos (by rwa [Bool.or_eq_true])
    exact (step_move hs hr fun _ => rfl).trans (congrArg _ hin)
  · exact step_move hs hr fun _ => rfl
  · exact step_move hs hr fun _ => rfl
  · have hout : (s.setSched l).txPop = (s.setSched l).popTx b q := by
      rw [State.txPop, State.setSched_txq, hq]
    exact (step_move hs hr fun _ => rfl).trans (congrArg _ hout)
  · have hout : (s.setSched l).txPop = s.setSched l := by rw [State.txPop, State.setSched_txq, hq]
    exact (step_move hs hr fun _ => rfl).trans (congrArg _ hout)
  · have hout : (s.setSched l).txFail = (s.setSched l).failTx := if_neg (Bool.not_eq_true _ ▸ he)
    exact (step_move hs hr fun _ => rfl).trans (congrArg _ hout)
  · have hout : (s.setSched l).txFail = s.setSched l := if_pos he
    exact (step_move hs hr fun _ => rfl).trans (congrArg _ hout)

end Sys2Proof.Machine
end

section
/-! PROOFS. The commands of the fixed-width types, one by one (`41_fixed_int_bool.md` section 1, `42_float.md`,
`40_varint.md` section 4). -/

namespace Sys2Proof.Machine

namespace FixedWidth

variable {enc dec : Reg → Instr} {n : Nat} {signed : Bool}

/-- An ENC of a fixed width without room in BLD. -/
theorem exec_enc_full (hf : FixedWidth enc dec n signed) {s : State} (hc : s.closed = false)
    (h : s.params.bldCap < s.bld.length + n) (ra : Reg) :
    exec (enc ra) s = .next (s.completeErr ⟨.bldFull, word32 (s.bld.length + n)⟩) := by
  have hfull : s.params.bldCap < s.bld.length + (bytesBE n (s.reg ra).toNat).length := by rwa [bytesBE_length]
  rw [hf.exec_enc, encFixed, beBytes_eq, perform_error hc (bldAppend_error hfull), bytesBE_length]

/-- A DEC of a fixed width with too few bytes at the cursor. -/
theorem exec_dec_short (hf : FixedWidth enc dec n signed) {s : State} (hc : s.closed = false)
    (h : s.pay.length < s.rpos + n) (ra : Reg) :
    exec (dec ra) s = .next (s.completeErr ⟨.insufficientBytes, word32 (s.pay.length - s.rpos)⟩) := by
  rw [hf.exec_dec]
  exact congrArg _ (perform_error hc (by rw [decFixed, payPeek_error h]; rfl))

end FixedWidth

/-- Settles O42: each is the ENC of a type of a fixed width. -/
theorem fixedWidthEncodesAppendBigEndian : Obligations.FixedWidthEncodesAppendBigEndian := by
  intro p hp ra s hc
  obtain ⟨⟨enc, dec, n, signed⟩, hq, rfl⟩ := List.mem_map (f := fun q => (q.1, q.2.2.1)) (l := fixedWidthTypes).mp hp
  have hf : FixedWidth enc dec n signed := fixedWidth_of_mem _ hq
  refine ⟨fun h => ?_, fun h => hf.exec_enc_full hc h ra⟩
  rw [hf.exec_enc_ok hc h, State.appendBld, bytesBE_length]
  rfl

/-- Settles O43: each is the DEC of a type of a fixed width. -/
theorem fixedWidthDecodesReadBigEndian : Obligations.FixedWidthDecodesReadBigEndian := by
  intro p hp ra s hc
  obtain ⟨⟨enc, dec, n, signed⟩, hq, rfl⟩ := List.mem_map (f := fun q => (q.2.1, q.2.2)) (l := fixedWidthTypes).mp hp
  have hf : FixedWidth enc dec n signed := fixedWidth_of_mem _ hq
  exact ⟨fun h => hf.exec_dec_ok hc (payPeek_ok h) ra, fun h => hf.exec_dec_short hc h ra⟩

end Sys2Proof.Machine
end

section
/-! PROOFS. The 128-bit identifier from registers to text and back (`43_string_uuid_raw.md` section 3). -/

namespace Sys2Proof.Machine

/-! ### Characters and digits -/

/-- The canonical character of a digit stands for it (R229, R231). -/
theorem charDigit_lowerCase {d : Nat} (hd : d < 16) :
    charDigit (BitVec.ofNat 8 (if d < 10 then 0x30 + d else 0x61 + (d - 10))).toNat = some d := by
  revert d
  decide

/-- A character that stands for a digit and is no upper-case one is the digit's canonical character (R229, R231). -/
theorem lowerCase_charDigit {c : Byte} (h : (charDigit c.toNat).isSome) (hlower : ¬(0x41 ≤ c.toNat ∧ c.toNat ≤ 0x46)) :
    BitVec.ofNat 8 (if (charDigit c.toNat).getD 0 < 10 then 0x30 + (charDigit c.toNat).getD 0
      else 0x61 + ((charDigit c.toNat).getD 0 - 10)) = c := by
  revert c
  decide

/-- No character stands for more than a hexadecimal digit. -/
theorem charDigit_lt (c : Byte) : (charDigit c.toNat).getD 0 < 16 := by
  revert c
  decide

/-- A hyphen is no digit: the digits before the next position are the same (R229). -/
theorem digitIndex_succ_hyphen {i : Nat} (hi : i < 36) (hh : i ∈ hyphenPositions) :
    digitIndex (i + 1) = digitIndex i := by
  revert i
  decide

/-- A digit is one of the 32, and there is one more before the next position (R229). -/
theorem digitIndex_succ_digit {i : Nat} (hi : i < 36) (hh : i ∉ hyphenPositions) :
    digitIndex (i + 1) = digitIndex i + 1 ∧ digitIndex i < 32 := by
  revert i
  decide

/-- At a digit's position one place fewer follows than before it. -/
theorem places_succ_digit {i : Nat} (hi : i < 36) (hh : i ∉ hyphenPositions) :
    32 - digitIndex (i + 1) = 31 - digitIndex i ∧ 32 - digitIndex i = (31 - digitIndex i) + 1 := by
  obtain ⟨hsucc, hlt⟩ := digitIndex_succ_digit hi hh
  omega

/-! ### From the number to the text and back -/

/-- The text of a number may be parsed. -/
theorem charOk_textChar (v i : Nat) : CharOk i (textChar v i) := by
  unfold CharOk
  rw [textChar]
  split_ifs with hi
  · rfl
  · rw [charDigit_lowerCase (Nat.mod_lt _ (by decide))]
    rfl

/-- Reading the text of a number from a position on gives the number, when what was read before is the part of it that
stands above the digits to come. -/
theorem textNumber_textChar_from (v : Nat) {n i : Nat} (h : i + n = 36) :
    textNumber (textChar v) n i (v / 16 ^ (32 - digitIndex i)) = v := by
  induction n generalizing i with
  | zero =>
    obtain rfl : i = 36 := h
    have hlast : 32 - digitIndex 36 = 0 := by decide
    rw [textNumber, hlast, pow_zero, Nat.div_one]
  | succ n ih =>
    have hnext := ih (i := i + 1) (by omega)
    rw [textNumber]
    by_cases hi : i ∈ hyphenPositions
    · rwa [if_pos hi, ← digitIndex_succ_hyphen (by omega) hi]
    · obtain ⟨hafter, hbefore⟩ := places_succ_digit (by omega) hi
      have hdigit : (charDigit (textChar v i).toNat).getD 0 = v / 16 ^ (31 - digitIndex i) % 16 := by
        rw [textChar, if_neg hi, charDigit_lowerCase (Nat.mod_lt _ (by decide))]
        rfl
      have hacc : 16 * (v / 16 ^ (31 - digitIndex i + 1)) + v / 16 ^ (31 - digitIndex i) % 16 =
          v / 16 ^ (31 - digitIndex i) := by
        rw [pow_succ, ← Nat.div_div_eq_div_mul, Nat.div_add_mod]
      rwa [if_neg hi, hdigit, hbefore, hacc, ← hafter]

/-- Reading the text of a 128-bit number gives the number. -/
theorem textNumber_textChar {v : Nat} (hv : v < 2 ^ 128) : textNumber (textChar v) 36 0 0 = v := by
  have hzero : v / 16 ^ (32 - digitIndex 0) = 0 := Nat.div_eq_of_lt hv
  have h := textNumber_textChar_from v (Nat.zero_add 36)
  rwa [hzero] at h

/-- The number of a text depends on the characters read only. -/
theorem textNumber_congr {f g : Nat → Byte} {n i : Nat} (h : ∀ k, i ≤ k → k < i + n → f k = g k) (acc : Nat) :
    textNumber f n i acc = textNumber g n i acc := by
  induction n generalizing i acc with
  | zero => rfl
  | succ n ih =>
    rw [textNumber, textNumber, h i le_rfl (by omega)]
    exact ih (fun k hlo hhi => h k (by omega) (by omega)) _

/-! ### From the text to the number and back -/

section
variable {text : Nat → Byte} {n i : Nat}

/-- What was read before a position stands above the digits to come. -/
theorem textNumber_div (h : i + n = 36) (acc : Nat) : textNumber text n i acc / 16 ^ (32 - digitIndex i) = acc := by
  induction n generalizing i acc with
  | zero =>
    obtain rfl : i = 36 := h
    have hlast : 32 - digitIndex 36 = 0 := by decide
    rw [textNumber, hlast, pow_zero, Nat.div_one]
  | succ n ih =>
    have hnext := ih (i := i + 1) (by omega)
    rw [textNumber]
    by_cases hi : i ∈ hyphenPositions
    · rw [if_pos hi, ← digitIndex_succ_hyphen (by omega) hi, hnext]
    · obtain ⟨hafter, hbefore⟩ := places_succ_digit (by omega) hi
      have hdigit := charDigit_lt (text i)
      rw [if_neg hi, hbefore, ← hafter, pow_succ, ← Nat.div_div_eq_div_mul, hnext]
      omega

/-- A text is read in two parts. -/
theorem textNumber_add (m acc : Nat) :
    textNumber text (m + n) i acc = textNumber text n (i + m) (textNumber text m i acc) := by
  induction m generalizing i acc with
  | zero => rw [Nat.zero_add]; rfl
  | succ m ih => rw [Nat.succ_add, textNumber, ih, textNumber, Nat.succ_add_eq_add_succ]

/-- The digits of the number of a text are those of its characters. -/
theorem textNumber_digit (hi : i < 36) (hh : i ∉ hyphenPositions) :
    textNumber text 36 0 0 / 16 ^ (31 - digitIndex i) % 16 = (charDigit (text i).toNat).getD 0 := by
  obtain ⟨hafter, -⟩ := places_succ_digit hi hh
  have hdigit := charDigit_lt (text i)
  have hsplit : textNumber text 36 0 0 = textNumber text (35 - i) (i + 1)
      (16 * textNumber text i 0 0 + (charDigit (text i).toNat).getD 0) := by
    have hlen : 36 = i + ((35 - i) + 1) := by omega
    rw [hlen, textNumber_add, Nat.zero_add, textNumber, if_neg hh]
  rw [hsplit, ← hafter, textNumber_div (by omega)]
  omega

/-- The text of the number of a text is that text, when it has no upper-case digit. -/
theorem textChar_textNumber (hi : i < 36) (h : CharOk i (text i))
    (hlower : ¬(0x41 ≤ (text i).toNat ∧ (text i).toNat ≤ 0x46)) :
    textChar (textNumber text 36 0 0) i = text i := by
  unfold CharOk at h
  rw [textChar]
  split_ifs at h ⊢ with hh
  · exact h.symm
  · rw [textNumber_digit hi hh]
    exact lowerCase_charDigit h hlower

end

/-- The number of a text has 32 digits. -/
theorem textNumber_lt (text : Nat → Byte) : textNumber text 36 0 0 < 2 ^ 128 := by
  have h := digitsNumber_lt (textDigits text 36 0)
  rw [textDigits_length] at h
  rw [textNumber_eq]
  exact h.trans_eq (by decide)

/-! ### The two commands -/

/-- Two words as one number, and back. -/
theorem halves_of_join (hi lo : W64) :
    hi.toNat * 2 ^ 64 + lo.toNat < 2 ^ 128 ∧
    BitVec.ofNat 64 ((hi.toNat * 2 ^ 64 + lo.toNat) / 2 ^ 64) = hi ∧
    BitVec.ofNat 64 ((hi.toNat * 2 ^ 64 + lo.toNat) % 2 ^ 64) = lo := by
  have hhi := hi.isLt
  have hlo := lo.isLt
  refine ⟨by omega, BitVec.eq_of_toNat_eq ?_, BitVec.eq_of_toNat_eq ?_⟩
  · rw [BitVec.toNat_ofNat]
    omega
  · rw [BitVec.toNat_ofNat]
    omega

/-- A 128-bit number as two words, and back. -/
theorem join_of_halves {v : Nat} (hv : v < 2 ^ 128) :
    (BitVec.ofNat 64 (v / 2 ^ 64)).toNat * 2 ^ 64 + (BitVec.ofNat 64 (v % 2 ^ 64)).toNat = v := by
  rw [BitVec.toNat_ofNat, BitVec.toNat_ofNat]
  omega

section
variable {s : State} {ra rb : Reg} {v : Nat}

/-- UUID.FMT puts the text of the pair's number at its place in SCR (R230). -/
theorem exec_uuidFmt_text (h : ra.val + 1 < 8) (he : ra.Even) (hc : s.closed = false)
    (hbound : s.x[rb].toNat + 36 ≤ s.params.scrSize) (hv : s.x[ra].toNat * 2 ^ 64 + s.x[ra.val + 1].toNat = v) :
    ∃ t : State, exec (.uuidFmt ra rb) s = .next t ∧ t.err = 0 ∧ t.x = s.x ∧ t.closed = false ∧ t.params = s.params ∧
      ∀ k < 36, t.scrByte (s.x[rb].toNat + k) = textChar v k := by
  obtain ⟨-, -, hfmt⟩ := uuidFmtWritesTheText ra rb s h he hc
  obtain ⟨t, ht, hframe, hbytes⟩ := hfmt hbound
  have hx : t.x = s.x := by rw [hframe]
  have hclosed : t.closed = s.closed := by rw [hframe]
  have hparams : t.params = s.params := by rw [hframe]
  refine ⟨_, ht, rfl, hx, hclosed.trans hc, hparams, fun k hk => ?_⟩
  have hbyte := hbytes (s.x[rb].toNat + k)
  rw [if_pos (by omega), Nat.add_sub_cancel_left, hv] at hbyte
  exact hbyte

/-- UUID.PARSE of a text that may be parsed puts its number into the pair (R231). -/
theorem exec_uuidParse_text (h : ra.val + 1 < 8) (he : ra.Even) (hc : s.closed = false)
    (hbound : s.x[rb].toNat + 36 ≤ s.params.scrSize) (hok : ∀ k < 36, CharOk k (s.scrByte (s.x[rb].toNat + k)))
    (hv : textNumber (fun k => s.scrByte (s.x[rb].toNat + k)) 36 0 0 = v) :
    ∃ t : State, exec (.uuidParse ra rb) s = .next t ∧ t.err = 0 ∧ t.closed = false ∧ t.params = s.params ∧
      t.x = (s.x.set ra.val (BitVec.ofNat 64 (v / 2 ^ 64)) ra.isLt).set (ra.val + 1)
        (BitVec.ofNat 64 (v % 2 ^ 64)) h := by
  obtain ⟨-, -, hparse, -⟩ := uuidParseReadsTheText ra rb s h he hc
  refine ⟨_, hparse hbound hok, rfl, hc, rfl, ?_⟩
  rw [hv]
  rfl

end

/-- UUID.FMT, then UUID.PARSE of what it wrote. -/
theorem uuidFmt_uuidParse {ra rb rc : Reg} {s : State} (ha : ra.val + 1 < 8) (hrc : rc.val + 1 < 8) (hae : ra.Even)
    (hce : rc.Even) (hc : s.closed = false) (hbound : s.x[rb].toNat + 36 ≤ s.params.scrSize) :
    ∃ t u : State, exec (.uuidFmt ra rb) s = .next t ∧ exec (.uuidParse rc rb) t = .next u ∧ u.err = 0 ∧
      u.x = (s.x.set rc.val s.x[ra] rc.isLt).set (rc.val + 1) s.x[ra.val + 1] hrc := by
  obtain ⟨t, ht, -, hx, hct, hparams, htext⟩ := exec_uuidFmt_text ha hae hc hbound rfl
  obtain ⟨hv, hhi, hlo⟩ := halves_of_join s.x[ra] s.x[ra.val + 1]
  have hok : ∀ k < 36, CharOk k (t.scrByte (t.x[rb].toNat + k)) := fun k hk => by
    rw [hx, htext k hk]
    exact charOk_textChar _ k
  have hnum : textNumber (fun k => t.scrByte (t.x[rb].toNat + k)) 36 0 0 =
      s.x[ra].toNat * 2 ^ 64 + s.x[ra.val + 1].toNat := by
    rw [hx, textNumber_congr fun k _ hk => htext k (by omega), textNumber_textChar hv]
  obtain ⟨u, hu, herr, -, -, hux⟩ := exec_uuidParse_text hrc hce hct (by rwa [hx, hparams]) hok hnum
  refine ⟨t, u, ht, hu, herr, ?_⟩
  rw [hux, hhi, hlo, hx]

/-- UUID.PARSE of a text without an upper-case digit, then UUID.FMT of what it read. -/
theorem uuidParse_uuidFmt {rc rb : Reg} {s : State} (hrc : rc.val + 1 < 8) (hce : rc.Even) (hc : s.closed = false)
    (hbound : s.x[rb].toNat + 36 ≤ s.params.scrSize)
    (htext : ∀ k < 36, CharOk k (s.scrByte (s.x[rb].toNat + k)) ∧
      ¬(0x41 ≤ (s.scrByte (s.x[rb].toNat + k)).toNat ∧ (s.scrByte (s.x[rb].toNat + k)).toNat ≤ 0x46)) (rd : Reg) :
    ∃ t : State, exec (.uuidParse rc rb) s = .next t ∧ t.err = 0 ∧
      (t.x[rd].toNat + 36 ≤ s.params.scrSize →
        ∃ u : State, exec (.uuidFmt rc rd) t = .next u ∧ u.err = 0 ∧
          ∀ k < 36, u.scrByte (t.x[rd].toNat + k) = s.scrByte (s.x[rb].toNat + k)) := by
  obtain ⟨v, hv⟩ : ∃ v, textNumber (fun k => s.scrByte (s.x[rb].toNat + k)) 36 0 0 = v := ⟨_, rfl⟩
  obtain ⟨t, ht, herr, hct, hparams, hx⟩ := exec_uuidParse_text hrc hce hc hbound (fun k hk => (htext k hk).1) hv
  have hpair : t.x[rc].toNat * 2 ^ 64 + t.x[rc.val + 1].toNat = v := by
    have hhi : t.x[rc] = BitVec.ofNat 64 (v / 2 ^ 64) := by simp [hx]
    have hlo : t.x[rc.val + 1] = BitVec.ofNat 64 (v % 2 ^ 64) := by simp [hx]
    rw [hhi, hlo, join_of_halves (hv ▸ textNumber_lt _)]
  refine ⟨t, ht, herr, fun hout => ?_⟩
  obtain ⟨u, hu, huerr, -, -, -, hbytes⟩ := exec_uuidFmt_text hrc hce hct (by rwa [hparams]) hpair
  refine ⟨u, hu, huerr, fun k hk => ?_⟩
  obtain ⟨hok, hlower⟩ := htext k hk
  rw [hbytes k hk, ← hv]
  exact textChar_textNumber hk hok hlower

/-- Settles O53: both round trips are those of a number and its text. -/
theorem uuidTextRoundTrip : Obligations.UuidTextRoundTrip :=
  ⟨fun _ _ _ _ ha hrc hae hce hc hbound => uuidFmt_uuidParse ha hrc hae hce hc hbound,
    fun _ _ rd _ hrc hce hc hbound htext => uuidParse_uuidFmt hrc hce hc hbound htext rd⟩

end Sys2Proof.Machine
end
